-- ==== Sys2Proof/Word.lean ====
section
/-! DEFINITION. The words of the block (00_scope.md R8, R9): 256-bit operand values, 64-bit limbs and
host words, bytes of text, and register indexes. -/

namespace Sys2Proof

/-- A 64-bit host word, command word or limb (R8 `LIMB`, `CMDW`). -/
abbrev Word := BitVec 64

/-- A 256-bit operand value (R8 `XLEN`, R41). -/
abbrev U256 := BitVec 256

/-- One byte of text (R84). -/
abbrev Byte := BitVec 8

/-- The index of an operand register, U0 to U15 (R8 `NREGS`, R40, R123). -/
abbrev Reg := Fin 16

end Sys2Proof
end

