-- ==== Sys2Proof/Config.lean ====
section
/-! DEFINITION. What one implementation of the block fixes (00_scope.md R8, 10_state.md R58), and the
values the spec leaves free (70_reset_and_hazards.md R421). -/

namespace Sys2Proof

/-- The reading of the unsigned remainder for a zero divisor (42_division.md R221). -/
inductive RemuDiv0 where
  /-- The remainder is 0. -/
  | zero
  /-- The remainder is the dividend. -/
  | dividend
  deriving DecidableEq, Repr

/-- The parameters of R8 on which a rule depends. `State` carries one `Config` that no step changes, so a
statement about every state holds for every admitted parameter value (log 6). -/
structure Config where
  /-- TBUF_BYTES, the size of the text buffer. -/
  tbufBytes : Nat
  /-- HAS_SIGNED, the signed extension is present (R4). -/
  hasSigned : Bool
  /-- REMU_DIV0 (R221). -/
  remuDiv0 : RemuDiv0
  /-- R8: TBUF_BYTES is at least 80. -/
  tbufBytes_ge : 80 ≤ tbufBytes
  /-- R8: TBUF_BYTES is at most 4096. -/
  tbufBytes_le : tbufBytes ≤ 4096
  deriving DecidableEq, Repr

/-- The default of every parameter (R8): 256 bytes of text, the signed extension present, `ZERO`. -/
def Config.default : Config where
  tbufBytes := 256
  hasSigned := true
  remuDiv0 := .zero
  tbufBytes_ge := by decide
  tbufBytes_le := by decide

/-- FREE VALUE (log 3): what a host read of limb `j` of `U[i]` returns after the `e`-th reset while that
limb is unwritten (R421; 93_implementation_defined.md I3 `any value`). It has no body. -/
opaque Config.unwrittenLimb : (e : Nat) → (i : Nat) → (j : Nat) → Word

/-- FREE VALUE (log 3): what a host read of TBUF byte `k` returns after the `e`-th reset while that byte is
unwritten (R421, I3). It has no body. -/
opaque Config.unwrittenByte : (e : Nat) → (k : Nat) → Byte

end Sys2Proof
end

