-- ==== Sys2Proof/Syntax.lean ====
section
/-! DEFINITION. The commands of the block: one constructor per row of spec/opcode_table.json
(30_encoding.md R126), with the operands of its format (R122) in the assembler's order (R134). -/

namespace Sys2Proof

/-- A command with its operands, in the table's order. -/
inductive Instr where
  /-- ZERO, format D, R160. -/
  | zero (rd : Reg)
  /-- ONE, format D, R161. -/
  | one (rd : Reg)
  /-- LDU64, format L (two words), R162. -/
  | ldu64 (rd : Reg) (imm64 : Word)
  /-- EQ, format DSS, R165. -/
  | eq (rd rs1 rs2 : Reg)
  /-- LT, format DSS, R166. -/
  | lt (rd rs1 rs2 : Reg)
  /-- CMP, format DSS, R167. -/
  | cmp (rd rs1 rs2 : Reg)
  /-- ADD, format DSS, R182. -/
  | add (rd rs1 rs2 : Reg)
  /-- ADDO, format DSS, R183. -/
  | addo (rd rs1 rs2 : Reg)
  /-- SUB, format DSS, R186. -/
  | sub (rd rs1 rs2 : Reg)
  /-- SUBO, format DSS, R187. -/
  | subo (rd rs1 rs2 : Reg)
  /-- SUBU, format DSS, R188. -/
  | subu (rd rs1 rs2 : Reg)
  /-- MUL, format DSS, R192. -/
  | mul (rd rs1 rs2 : Reg)
  /-- MULO, format DSS, R193. -/
  | mulo (rd rs1 rs2 : Reg)
  /-- MULW, format DDSS, R194. -/
  | mulw (rd rd2 rs1 rs2 : Reg)
  /-- DIVU, format DSS, R226. -/
  | divu (rd rs1 rs2 : Reg)
  /-- REMU, format DSS, R227. -/
  | remu (rd rs1 rs2 : Reg)
  /-- DIVREMU, format DDSS, R228. -/
  | divremu (rd rd2 rs1 rs2 : Reg)
  /-- LSH, format DSI, R262. -/
  | lsh (rd rs1 : Reg) (n : BitVec 32)
  /-- RSH, format DSI, R263. -/
  | rsh (rd rs1 : Reg) (n : BitVec 32)
  /-- SRSH, format DSI, R264. -/
  | srsh (rd rs1 : Reg) (n : BitVec 32)
  /-- PARSED, format D, R286. -/
  | parsed (rd : Reg)
  /-- FMTD, format S, R292. -/
  | fmtd (rs1 : Reg)
  /-- PARSEH, format D, R302. -/
  | parseh (rd : Reg)
  /-- TOU64, format DS, R310. -/
  | tou64 (rd rs1 : Reg)
  /-- SIGN (signed extension), format DS, R332. -/
  | sign (rd rs1 : Reg)
  /-- ABS (signed extension), format DS, R333. -/
  | abs (rd rs1 : Reg)
  /-- NEG (signed extension), format DS, R334. -/
  | neg (rd rs1 : Reg)
  /-- SDIV (signed extension), format DSS, R340. -/
  | sdiv (rd rs1 rs2 : Reg)
  /-- SREM (signed extension), format DSS, R341. -/
  | srem (rd rs1 rs2 : Reg)
  /-- SQUO (signed extension), format DSS, R343. -/
  | squo (rd rs1 rs2 : Reg)
  /-- SMOD (signed extension), format DSS, R344. -/
  | smod (rd rs1 rs2 : Reg)
  /-- SDIVE (signed extension), format DSS, R346. -/
  | sdive (rd rs1 rs2 : Reg)
  /-- SMODE (signed extension), format DSS, R347. -/
  | smode (rd rs1 rs2 : Reg)
  /-- ADDD (signed extension), format DSS, R352. -/
  | addd (rd rs1 rs2 : Reg)
  /-- ADDDO (signed extension), format DSS, R353. -/
  | adddo (rd rs1 rs2 : Reg)
  /-- TOI64 (signed extension), format DS, R355. -/
  | toi64 (rd rs1 : Reg)
  deriving DecidableEq, Repr

/-- The command belongs to the signed extension (R126, rows marked S). -/
def Instr.signed : Instr → Bool
  | .zero _ | .one _ | .ldu64 _ _ | .eq _ _ _ | .lt _ _ _ | .cmp _ _ _ | .add _ _ _ | .addo _ _ _
  | .sub _ _ _ | .subo _ _ _ | .subu _ _ _ | .mul _ _ _ | .mulo _ _ _ | .mulw _ _ _ _
  | .divu _ _ _ | .remu _ _ _ | .divremu _ _ _ _ | .lsh _ _ _ | .rsh _ _ _ | .srsh _ _ _
  | .parsed _ | .fmtd _ | .parseh _ | .tou64 _ _ => false
  | .sign _ _ | .abs _ _ | .neg _ _ | .sdiv _ _ _ | .srem _ _ _ | .squo _ _ _ | .smod _ _ _
  | .sdive _ _ _ | .smode _ _ _ | .addd _ _ _ | .adddo _ _ _ | .toi64 _ _ => true

/-- The length of a command in words: 2 for LDU64, else 1 (R132). -/
def Instr.length : Instr → Nat
  | .ldu64 _ _ => 2
  | .zero _ | .one _ | .eq _ _ _ | .lt _ _ _ | .cmp _ _ _ | .add _ _ _ | .addo _ _ _
  | .sub _ _ _ | .subo _ _ _ | .subu _ _ _ | .mul _ _ _ | .mulo _ _ _ | .mulw _ _ _ _
  | .divu _ _ _ | .remu _ _ _ | .divremu _ _ _ _ | .lsh _ _ _ | .rsh _ _ _ | .srsh _ _ _
  | .parsed _ | .fmtd _ | .parseh _ | .tou64 _ _
  | .sign _ _ | .abs _ _ | .neg _ _ | .sdiv _ _ _ | .srem _ _ _ | .squo _ _ _ | .smod _ _ _
  | .sdive _ _ _ | .smode _ _ _ | .addd _ _ _ | .adddo _ _ _ | .toi64 _ _ => 1

/-- The registers a command reads as sources, in the order rs1, rs2 (R122). -/
def Instr.sources : Instr → List Reg
  | .zero _ | .one _ | .ldu64 _ _ | .parsed _ | .parseh _ => []
  | .fmtd rs1 | .tou64 _ rs1 | .sign _ rs1 | .abs _ rs1 | .neg _ rs1 | .toi64 _ rs1
  | .lsh _ rs1 _ | .rsh _ rs1 _ | .srsh _ rs1 _ => [rs1]
  | .eq _ rs1 rs2 | .lt _ rs1 rs2 | .cmp _ rs1 rs2 | .add _ rs1 rs2 | .addo _ rs1 rs2
  | .sub _ rs1 rs2 | .subo _ rs1 rs2 | .subu _ rs1 rs2 | .mul _ rs1 rs2 | .mulo _ rs1 rs2
  | .mulw _ _ rs1 rs2 | .divu _ rs1 rs2 | .remu _ rs1 rs2 | .divremu _ _ rs1 rs2
  | .sdiv _ rs1 rs2 | .srem _ rs1 rs2 | .squo _ rs1 rs2 | .smod _ rs1 rs2 | .sdive _ rs1 rs2
  | .smode _ rs1 rs2 | .addd _ rs1 rs2 | .adddo _ rs1 rs2 => [rs1, rs2]

/-- The registers a command may write (R122: rd, and rd2 in format DDSS; FMTD has none). -/
def Instr.dests : Instr → List Reg
  | .fmtd _ => []
  | .mulw rd rd2 _ _ | .divremu rd rd2 _ _ => [rd, rd2]
  | .zero rd | .one rd | .ldu64 rd _ | .parsed rd | .parseh rd
  | .tou64 rd _ | .sign rd _ | .abs rd _ | .neg rd _ | .toi64 rd _
  | .lsh rd _ _ | .rsh rd _ _ | .srsh rd _ _
  | .eq rd _ _ | .lt rd _ _ | .cmp rd _ _ | .add rd _ _ | .addo rd _ _ | .sub rd _ _
  | .subo rd _ _ | .subu rd _ _ | .mul rd _ _ | .mulo rd _ _ | .divu rd _ _ | .remu rd _ _
  | .sdiv rd _ _ | .srem rd _ _ | .squo rd _ _ | .smod rd _ _ | .sdive rd _ _ | .smode rd _ _
  | .addd rd _ _ | .adddo rd _ _ => [rd]

end Sys2Proof
end

