-- ==== Sys2Proof/Machine/State.lean ====
section
/-! DEFINITION. The state of the block (10_state.md), the host accesses it is given (20_memory.md R98), the
reasons the model stops, and the state after reset (70_reset_and_hazards.md R420). -/

namespace Sys2Proof.Machine

/-- The fault causes of STATUS.FCAUSE (60_exceptions.md R386); values 6..15 are never produced. -/
inductive FCause where
  /-- 0: no fault since reset. -/
  | none
  /-- 1 -/
  | overflow
  /-- 2 -/
  | underflow
  /-- 3 -/
  | divideByZero
  /-- 4 -/
  | narrowRange
  /-- 5 -/
  | illegalCommand
  deriving DecidableEq, Repr

/-- The parse results of STATUS.PERR (60_exceptions.md R396); values 9..15 are never produced. -/
inductive PErr where
  /-- 0 -/
  | ok
  /-- 1 -/
  | emptyString
  /-- 2 -/
  | syntaxError
  /-- 3 -/
  | missingPrefix
  /-- 4 -/
  | emptyNumber
  /-- 5 -/
  | leadingZero
  /-- 6 -/
  | range
  /-- 7: reserved, never raised. -/
  | invalidBase
  /-- 8: reserved, never raised. -/
  | invalidBitsize
  deriving DecidableEq, Repr

/-- The text buffer: (byte index, byte) pairs with indexes strictly rising. An unlisted byte has not been
written since reset and has no value (R50, log 2). -/
abbrev Memory := List Host.Cell

/-- One action of the host on the block (R98). Offsets are from HOST_BASE (R81); `bytes` is the width of the
access, of which only 8 is admitted (R88). -/
inductive HostAccess where
  /-- Read the host port. -/
  | read (offset : Nat) (bytes : Nat)
  /-- Write the host port; offset 0x200 pushes a command word (R86). -/
  | write (offset : Nat) (bytes : Nat) (value : Word)
  /-- Assert the reset input (R420). -/
  | reset
  deriving DecidableEq, Repr

/-- The state of the block. -/
structure State where
  /-- The parameters of R8; constant (log 6). -/
  cfg : Config
  /-- U0..U15 (R40, R41). -/
  regs : Vector U256 16
  /-- Bit j of entry i: limb j of U[i] has been written since reset (R42, R82). -/
  written : Vector (BitVec 4) 16
  /-- STATUS.OVF (R45). -/
  ovf : Bool
  /-- STATUS.FAULT (R46). -/
  fault : Bool
  /-- STATUS.BUSY (R51): 1 only while a command executes, that is, inside a step (log 5). -/
  busy : Bool
  /-- STATUS.WAIT2 is 1 iff this is some; then it is the rd of the LDU64 whose second word is awaited (R51,
  R127, R131). -/
  wait2 : Option Reg
  /-- STATUS.FCAUSE (R386). -/
  fcause : FCause
  /-- STATUS.PERR (R396). -/
  perr : PErr
  /-- PC, the number of command words consumed since reset (R47). -/
  pc : BitVec 32
  /-- FPC, the PC of the faulting command (R48). -/
  fpc : BitVec 32
  /-- TLEN, the length of the text (R49). -/
  tlen : BitVec 16
  /-- TBUF (R50). -/
  tbuf : Memory
  /-- The host accesses still to come, in their total order (R90); the command stream is the words written to
  CMD among them (R86, log 4). -/
  host : List HostAccess
  /-- The data of the last host read (log 9). -/
  hostData : Word
  /-- The number of resets taken, which indexes the free values of R421 (log 3). -/
  epoch : Nat
  deriving DecidableEq, Repr

/-- The model-only stops on a command's read of the text buffer. The faults of R381 are no stops: the meaning
of a command takes them, and a next state follows. -/
inductive Fault where
  /-- UNINIT_READ (R50, R421): PARSED or PARSEH reads TB(k), which nothing has written since reset. Safe: the
  spec makes this a fault of the model. -/
  | uninitRead (k : Nat)
  /-- A text would reach beyond TB(TBUF_BYTES - 1) (R84: MemRead is defined only within TBUF). Safe: no run
  reaches it, since TLEN never exceeds TBUF_BYTES (R91). -/
  | tbufRange
  deriving DecidableEq, Repr

/-- The actions the model refuses. -/
inductive Refusal where
  /-- Raised by the dispatcher for an instruction without a meaning; no arm raises it now. Safe. -/
  | notModelled (mnemonic : String)
  /-- A host access that is not 64 bits wide or not 8-byte aligned (R88: "a model refuses it"). Safe. -/
  | hostAccessShape (offset bytes : Nat)
  /-- A host write of TLEN with a value above TBUF_BYTES or with a nonzero bit in 63:16 (R91). Safe. -/
  | hostTlenValue (value : Word)
  deriving DecidableEq, Repr

/-- The outcome of a command or a step. -/
abbrev Result := Host.Outcome State Fault Refusal

/-- The state after reset of a block with given parameters (R420, R59). Registers hold 0, and are marked
unwritten (log 1). -/
def State.resetOf (c : Config) : State where
  cfg := c
  regs := Vector.replicate 16 0
  written := Vector.replicate 16 0
  ovf := false
  fault := false
  busy := false
  wait2 := none
  fcause := .none
  perr := .ok
  pc := 0
  fpc := 0
  tlen := 0
  tbuf := []
  host := []
  hostData := 0
  epoch := 0

/-- The state after reset with the default parameters (R8), with no host access pending. -/
def State.reset : State := State.resetOf Config.default

end Sys2Proof.Machine
end

