-- ==== Sys2Proof/Machine/Rom.lean ====
section
/-! DEFINITION. The constants of the block: ID and the read-only tables POW19, NIB and MAXDEC
(10_state.md R52, R54 to R57), and the codes of STATUS (R386, R396). -/

namespace Sys2Proof.Machine

/-- ID (R52). -/
def idValue : Word := 0x5532353600000007

/-- Four limbs, written limb 3 first as the spec writes them. -/
def ofLimbs3210 (l3 l2 l1 l0 : Word) : U256 := l3 ++ l2 ++ l1 ++ l0

/-- POW19[k] for k = 1..4 (R55); for k = 0 it is the factor 1 of window 0 (R284). -/
def pow19 : Nat → U256
  | 0 => 1
  | 1 => ofLimbs3210 0x0000000000000000 0x0000000000000000 0x0000000000000000 0x8ac7230489e80000
  | 2 => ofLimbs3210 0x0000000000000000 0x0000000000000000 0x4b3b4ca85a86c47a 0x098a224000000000
  | 3 => ofLimbs3210 0x0000000000000000 0x28c87cb5c89a2571 0xebfdcb54864ada83 0x4a00000000000000
  | 4 => ofLimbs3210 0x161bcca7119915b5 0x0764b4abe8652979 0x7775a5f171951000 0x0000000000000000
  | _ => 0

/-- NIB[b] (R56); `none` is BAD. -/
def nib (b : Byte) : Option Nat :=
  if 0x30 ≤ b.toNat ∧ b.toNat ≤ 0x39 then some (b.toNat - 0x30)
  else if 0x61 ≤ b.toNat ∧ b.toNat ≤ 0x66 then some (b.toNat - 0x61 + 10)
  else if 0x41 ≤ b.toNat ∧ b.toNat ≤ 0x46 then some (b.toNat - 0x41 + 10)
  else none

/-- The ASCII byte of a decimal digit 0..9 (R280). -/
def digitByte (d : Nat) : Byte := BitVec.ofNat 8 (0x30 + d)

/-- The digits of MAXDEC (R57), first half. -/
def maxDecHigh : List Nat :=
  [1, 1, 5, 7, 9, 2, 0, 8, 9, 2, 3, 7, 3] ++ [1, 6, 1, 9, 5, 4, 2, 3, 5, 7, 0, 9, 8]
    ++ [5, 0, 0, 8, 6, 8, 7, 9, 0, 7, 8, 5, 3]

/-- The digits of MAXDEC (R57), second half. -/
def maxDecLow : List Nat :=
  [2, 6, 9, 9, 8, 4, 6, 6, 5, 6, 4, 0, 5] ++ [6, 4, 0, 3, 9, 4, 5, 7, 5, 8, 4, 0, 0]
    ++ [7, 9, 1, 3, 1, 2, 9, 6, 3, 9, 9, 3, 5]

/-- MAXDEC, the decimal form of 2^256 - 1 as 78 ASCII bytes (R57). -/
def maxDec : List Byte := (maxDecHigh ++ maxDecLow).map digitByte

/-- The code of a fault cause (R386). -/
def FCause.code : FCause → BitVec 4
  | .none => 0
  | .overflow => 1
  | .underflow => 2
  | .divideByZero => 3
  | .narrowRange => 4
  | .illegalCommand => 5

/-- The code of a parse result (R396). -/
def PErr.code : PErr → BitVec 4
  | .ok => 0
  | .emptyString => 1
  | .syntaxError => 2
  | .missingPrefix => 3
  | .emptyNumber => 4
  | .leadingZero => 5
  | .range => 6
  | .invalidBase => 7
  | .invalidBitsize => 8

/-- One status bit. -/
def bit (b : Bool) : BitVec 1 := BitVec.ofBool b

/-- STATUS as the host reads it (R44): bits 63:13 read as zero. -/
def State.statusWord (s : State) : Word :=
  0#51 ++ bit s.cfg.hasSigned ++ s.perr.code ++ s.fcause.code ++ bit s.wait2.isSome ++ bit s.busy
    ++ bit s.fault ++ bit s.ovf

/-- The level output `fault_out` (R399). -/
def State.faultOut (s : State) : Bool := s.fault

end Sys2Proof.Machine
end

