-- ==== Sys2Proof/Machine/Ops.lean ====
section
/-! DEFINITION. The named operations over registers, status and the text buffer: the primitives of
00_scope.md R13, fault entry (60_exceptions.md R384), and reset (70_reset_and_hazards.md R420). -/

namespace Sys2Proof.Machine

/-! ## Operand registers -/

/-- `U[r]` (R13). Reading a register that nothing has written since reset is no stop (log 1). -/
def State.getReg (s : State) (r : Reg) : U256 := s.regs[r]

/-- `U[r] <- v` (R13): all four limbs are written. -/
def State.setReg (s : State) (r : Reg) (v : U256) : State :=
  { s with regs := s.regs.set r v, written := s.written.set r 0xF }

/-- The mark of limb `j` of `U[r]`: written since reset (R82). -/
def State.limbWritten (s : State) (r : Reg) (j : Nat) : Bool := s.written[r].getLsbD j

/-- Every limb of `U[r]` has been written since reset (R42, R425). -/
def State.regWritten (s : State) (r : Reg) : Bool := s.written[r] == 0xF

/-- Limb `j` of a value (R9): bits 64j+63:64j. -/
def limb (v : U256) (j : Nat) : Word := v.extractLsb' (64 * j) 64

/-- A value with bits 64j+63:64j replaced (R82). -/
def setLimb (v : U256) (j : Nat) (w : Word) : U256 :=
  (v &&& ~~~(((0xFFFFFFFFFFFFFFFF#64).setWidth 256) <<< (64 * j))) ||| (w.setWidth 256 <<< (64 * j))

/-- A host write of one limb (R82): the other limbs keep their values and their marks. -/
def State.setRegLimb (s : State) (r : Reg) (j : Nat) (w : Word) : State :=
  { s with regs := s.regs.set r (setLimb s.regs[r] j w),
           written := s.written.set r (s.written[r] ||| (1#4 <<< j)) }

/-! ## Status, TLEN, PC -/

/-- `OVF <- b` (R45). -/
def State.setOvf (s : State) (b : Bool) : State := { s with ovf := b }

/-- `PERR <- c` (R397). -/
def State.setPerr (s : State) (c : PErr) : State := { s with perr := c }

/-- `TLEN <- n` (R49). -/
def State.setTlen (s : State) (n : BitVec 16) : State := { s with tlen := n }

/-- TBUF as a whole. -/
def State.setTbuf (s : State) (m : Memory) : State := { s with tbuf := m }

/-- WAIT2 and the remembered rd (R131). -/
def State.setWait2 (s : State) (o : Option Reg) : State := { s with wait2 := o }

/-- The data of a host read (log 9). -/
def State.setHostData (s : State) (w : Word) : State := { s with hostData := w }

/-- The host accesses still to come. -/
def State.setHost (s : State) (h : List HostAccess) : State := { s with host := h }

/-- BUSY becomes 1 as a command word that completes a command is accepted (R51). -/
def State.setBusy (s : State) : State := { s with busy := true }

/-- The end of a command of `len` words: `pc <- (pc + len) mod 2^32` and BUSY becomes 0 (R47, R51). -/
def State.advance (s : State) (len : Nat) : State :=
  { s with pc := s.pc + BitVec.ofNat 32 len, busy := false }

/-- A command that completes, its destinations already written in `s` (R15, R47). -/
def complete (len : Nat) (s : State) : Result := .next (s.advance len)

/-! ## Faults and reset -/

/-- The writes of fault entry, all of them (R384). -/
def State.enterFault (s : State) (c : FCause) : State :=
  { s with fault := true, fcause := c, fpc := s.pc, busy := false }

/-- `raise Fault(cause)` (R384). The core halts by `fault`, which the step reads (R388). -/
def raise (c : FCause) (s : State) : Result := .next (s.enterFault c)

/-- Reset, the only way out of a fault (R389, R420, R423). The parameters and the model's own fields `host`
and `hostData` stay; registers hold 0 and are marked unwritten (log 1). -/
def State.afterReset (s : State) : State :=
  { State.resetOf s.cfg with host := s.host, hostData := s.hostData, epoch := s.epoch + 1 }

/-! ## The text buffer -/

/-- The byte at an index, `none` if nothing has written it since reset. -/
def Memory.read? : Memory → Nat → Option Byte
  | [], _ => none
  | (k, v) :: m, a => if k = a then some v else Memory.read? m a

/-- Writing one byte; the indexes stay strictly rising. -/
def Memory.write : Memory → Nat → Byte → Memory
  | [], a, b => [(a, b)]
  | (k, v) :: m, a, b =>
    if a < k then (a, b) :: (k, v) :: m
    else if a = k then (a, b) :: m
    else (k, v) :: Memory.write m a b

/-- Writing a string, its first byte at index `a` (R84). -/
def Memory.writeBytes : Memory → Nat → List Byte → Memory
  | m, _, [] => m
  | m, a, b :: bs => Memory.writeBytes (Memory.write m a b) (a + 1) bs

/-- Reading `n` bytes from index `a`, first byte first (R84); an unwritten byte is UNINIT_READ (R50). -/
def Memory.readBytes (m : Memory) : Nat → Nat → Except Fault (List Byte)
  | _, 0 => .ok []
  | a, n + 1 =>
    match Memory.read? m a with
    | none => .error (.uninitRead a)
    | some b =>
      match Memory.readBytes m (a + 1) n with
      | .error f => .error f
      | .ok bs => .ok (b :: bs)

/-- The canonical form: indexes strictly rising. (An unlisted byte has no value, so no entry can equal it.) -/
abbrev Memory.wf (m : Memory) : Prop := m.Pairwise (fun x y => x.1 < y.1)

/-- `MemRead(a, n)` (R13, R84), defined only for a + n <= TBUF_BYTES. -/
def State.memRead (s : State) (a n : Nat) : Except Fault (List Byte) :=
  if s.cfg.tbufBytes < a + n then .error .tbufRange else Memory.readBytes s.tbuf a n

/-- `MemWrite(a, n, str)` with n the length of the string (R13, R84). -/
def State.memWrite (s : State) (a : Nat) (str : List Byte) : Except Fault State :=
  if s.cfg.tbufBytes < a + str.length then .error .tbufRange
  else .ok (s.setTbuf (Memory.writeBytes s.tbuf a str))

end Sys2Proof.Machine
end

