-- ==== Sys2Proof/Machine/Operands.lean ====
section
/-! DEFINITION. The operand forms of the commands: the text operand of the parse commands (00_scope.md R13
`TEXT`), the immediates (30_encoding.md R124, R125), the signed reading and its helpers (45_signed.md R330,
R331), and the results of a comparison as operand values (40_limb_array.md R164). -/

namespace Sys2Proof.Machine

/-- `TEXT = MemRead(0, TLEN)` (R13, R280). -/
def State.text (s : State) : Except Fault (List Byte) := s.memRead 0 s.tlen.toNat

/-- `zext_256(imm64)` (R125). -/
def zextImm64 (w : Word) : U256 := w.setWidth 256

/-- The shift amount as a number (R124). -/
def shiftAmount (n : BitVec 32) : Nat := n.toNat

/-- MIN, the pattern of the most negative value (R10). -/
def minValue : U256 := BitVec.twoPow 256 255

/-- MAX, all 256 bits set, s(MAX) = -1 (R10). -/
def maxValue : U256 := BitVec.allOnes 256

/-- `isneg(v) = v[255]` (R331). -/
def isNeg (v : U256) : Bool := v.msb

/-- `neg(v) = (0 - v) mod 2^256` (R331). -/
def negate (v : U256) : U256 := 0 - v

/-- `mag(v)`, the unsigned magnitude (R331). -/
def mag (v : U256) : U256 := if isNeg v then negate v else v

/-- `apply(neg_flag, m)`, the sign fix-up (R331). -/
def applySign (negFlag : Bool) (m : U256) : U256 := if negFlag then negate m else m

/-- A boolean result as an operand value (R164). -/
def boolValue (b : Bool) : U256 := if b then 1 else 0

/-- The three-way unsigned comparison as the pattern of -1, 0 or +1 (R164, R167). -/
def cmpValue (x y : U256) : U256 :=
  if x.toNat < y.toNat then maxValue else if x = y then 0 else 1

end Sys2Proof.Machine
end

