-- ==== Sys2Proof/Machine/Flags.lean ====
section
/-! DEFINITION. The overflow conditions: the boolean written to OVF by the reporting forms and the fault
condition of the checked forms (10_state.md R45; 41_arithmetic.md R181, R185, R191; 45_signed.md R349). -/

namespace Sys2Proof.Machine

/-- The carry out of limb 3: x + y >= 2^256 (R181). -/
def addCarry (x y : U256) : Bool := 2 ^ 256 ≤ x.toNat + y.toNat

/-- The borrow out of limb 3: x < y (R185). -/
def subBorrow (x y : U256) : Bool := x.toNat < y.toNat

/-- The product overflows: x * y >= 2^256, a high limb is nonzero (R191). -/
def mulOverflow (x y : U256) : Bool := 2 ^ 256 ≤ x.toNat * y.toNat

/-- The result of the signed delta (R349). -/
structure Delta where
  /-- The wrapped sum. -/
  z : U256
  /-- The sum left the unsigned range. -/
  bad : Bool
  /-- The fault the checked form raises then. -/
  kind : FCause
  deriving DecidableEq, Repr

/-- `adddelta(base, delta)` (R349): base is read unsigned, delta signed. -/
def addDelta (base delta : U256) : Delta :=
  if isNeg delta then ⟨base + delta, subBorrow base (mag delta), .underflow⟩
  else ⟨base + delta, addCarry base delta, .overflow⟩

end Sys2Proof.Machine
end

