-- ==== Sys2Proof/Machine/Arithmetic.lean ====
section
/-! DEFINITION. The arithmetic unit: ADD, ADDO, SUB, SUBO, SUBU, MUL, MULO, MULW (41_arithmetic.md). `+`, `-`
and `*` on operand values are modulo 2^256. -/

namespace Sys2Proof.Machine

/-- The 512-bit product of two operands (R190). -/
def product (x y : U256) : BitVec 512 := x.setWidth 512 * y.setWidth 512

/-- `P[255:0]` (R190). -/
def productLow (x y : U256) : U256 := (product x y).extractLsb' 0 256

/-- `P[511:256]` (R190). -/
def productHigh (x y : U256) : U256 := (product x y).extractLsb' 256 256

/-- R182: checked add. -/
def execAdd (rd rs1 rs2 : Reg) (s : State) : Result :=
  let x := s.getReg rs1
  let y := s.getReg rs2
  if addCarry x y then raise .overflow s else complete 1 (s.setReg rd (x + y))

/-- R183: overflow-reporting add. -/
def execAddo (rd rs1 rs2 : Reg) (s : State) : Result :=
  let x := s.getReg rs1
  let y := s.getReg rs2
  complete 1 ((s.setReg rd (x + y)).setOvf (addCarry x y))

/-- R186: checked subtract. -/
def execSub (rd rs1 rs2 : Reg) (s : State) : Result :=
  let x := s.getReg rs1
  let y := s.getReg rs2
  if subBorrow x y then raise .underflow s else complete 1 (s.setReg rd (x - y))

/-- R187: overflow-reporting subtract. -/
def execSubo (rd rs1 rs2 : Reg) (s : State) : Result :=
  let x := s.getReg rs1
  let y := s.getReg rs2
  complete 1 ((s.setReg rd (x - y)).setOvf (subBorrow x y))

/-- R188: unsafe subtract, no failure and no flag. -/
def execSubu (rd rs1 rs2 : Reg) (s : State) : Result :=
  complete 1 (s.setReg rd (s.getReg rs1 - s.getReg rs2))

/-- R192: checked multiply. -/
def execMul (rd rs1 rs2 : Reg) (s : State) : Result :=
  let x := s.getReg rs1
  let y := s.getReg rs2
  if mulOverflow x y then raise .overflow s else complete 1 (s.setReg rd (productLow x y))

/-- R193: overflow-reporting multiply. -/
def execMulo (rd rs1 rs2 : Reg) (s : State) : Result :=
  let x := s.getReg rs1
  let y := s.getReg rs2
  complete 1 ((s.setReg rd (productLow x y)).setOvf (mulOverflow x y))

/-- R194: widening multiply, low half to rd and high half to rd2; R130: rd = rd2 is ILLEGAL_COMMAND. -/
def execMulw (rd rd2 rs1 rs2 : Reg) (s : State) : Result :=
  let x := s.getReg rs1
  let y := s.getReg rs2
  if rd = rd2 then raise .illegalCommand s
  else complete 1 ((s.setReg rd (productLow x y)).setReg rd2 (productHigh x y))

end Sys2Proof.Machine
end

