-- ==== Sys2Proof/Machine/Division.lean ====
section
/-! DEFINITION. The division engine: DIVU, REMU, DIVREMU (42_division.md). `/` and `%` on operand values are
the unsigned floor quotient and remainder. The reference datapath (R222 to R224) is in Datapath.lean. -/

namespace Sys2Proof.Machine

/-- The results of the engine (R220, R221): quotient and remainder, with quotient 0 and the remainder of
REMU_DIV0 for a zero divisor. -/
def udivrem (mode : RemuDiv0) (x y : U256) : U256 × U256 :=
  if y = 0 then
    (0, match mode with
        | .zero => 0
        | .dividend => x)
  else (x / y, x % y)

/-- R226: the quotient. -/
def execDivu (rd rs1 rs2 : Reg) (s : State) : Result :=
  complete 1 (s.setReg rd (udivrem s.cfg.remuDiv0 (s.getReg rs1) (s.getReg rs2)).1)

/-- R227: the remainder. -/
def execRemu (rd rs1 rs2 : Reg) (s : State) : Result :=
  complete 1 (s.setReg rd (udivrem s.cfg.remuDiv0 (s.getReg rs1) (s.getReg rs2)).2)

/-- R228: quotient to rd and remainder to rd2; R130: rd = rd2 is ILLEGAL_COMMAND. -/
def execDivremu (rd rd2 rs1 rs2 : Reg) (s : State) : Result :=
  let qr := udivrem s.cfg.remuDiv0 (s.getReg rs1) (s.getReg rs2)
  if rd = rd2 then raise .illegalCommand s
  else complete 1 ((s.setReg rd qr.1).setReg rd2 qr.2)

end Sys2Proof.Machine
end

