-- ==== Sys2Proof/Machine/Text.lean ====
section
/-! DEFINITION. The decimal and hex codecs on strings of bytes, first byte first (44_codec.md R280 to R301). -/

namespace Sys2Proof.Machine

/-! ## Decimal parse -/

/-- A byte is one of '0'..'9' (R280, R283). -/
def isDigit (b : Byte) : Bool := 0x30 ≤ b.toNat && b.toNat ≤ 0x39

/-- The value of a digit byte (R280). -/
def digitValue (b : Byte) : Nat := b.toNat - 0x30

/-- Strip one optional leading '+' (R281). -/
def stripPlus : List Byte → List Byte
  | [] => []
  | b :: bs => if b = 0x2B then bs else b :: bs

/-- Strip leading zero digits (R281). -/
def stripZeros : List Byte → List Byte
  | [] => []
  | b :: bs => if b = 0x30 then stripZeros bs else b :: bs

/-- Byte-wise unsigned lexicographic "greater", first byte most significant (R282). -/
def lexGreater : List Byte → List Byte → Bool
  | [], _ => false
  | _ :: _, [] => true
  | a :: as, b :: bs => if a = b then lexGreater as bs else b.toNat < a.toNat

/-- The decimal number a string of digits denotes (R284). -/
def decValue (str : List Byte) : Nat := str.foldl (fun acc b => 10 * acc + digitValue b) 0

/-- `parse_dec` (R285): the steps in their order, and the value of the last one. -/
def parseDec (str : List Byte) : Except PErr U256 :=
  if str = [] then .error .emptyString
  else if stripPlus str = [] then .error .syntaxError
  else
    let s' := stripZeros (stripPlus str)
    if s' = [] then .ok 0
    else if 78 < s'.length then .error .range
    else if s'.length = 78 && lexGreater s' maxDec then .error .range
    else if !s'.all isDigit then .error .syntaxError
    else .ok (BitVec.ofNat 256 (decValue s'))

/-! ## Decimal format -/

/-- 10^19, the divisor of the formatter (R8 `DEC_CHUNK`, R288). -/
def decChunk : U256 := 10000000000000000000

/-- The chunks of R288, least significant first. The engine's divisor is never 0 here, so REMU_DIV0 is not
reached. `fuel` bounds the loop; R288: at most 5 chunks. -/
def decChunks : (fuel : Nat) → U256 → List U256
  | 0, _ => []
  | fuel + 1, x =>
    let qr := udivrem .zero x decChunk
    qr.2 :: (if qr.1 = 0 then [] else decChunks fuel qr.1)

/-- The decimal digits of `n` put before `acc`; "0" for 0. `fuel` bounds the number of digits. -/
def decDigits : (fuel : Nat) → (n : Nat) → (acc : List Byte) → List Byte
  | 0, _, acc => acc
  | fuel + 1, n, acc =>
    let acc' := digitByte (n % 10) :: acc
    if n / 10 = 0 then acc' else decDigits fuel (n / 10) acc'

/-- `decimal(c)` of a chunk, with no leading zeros (R288); a chunk has at most 19 digits. -/
def decimal (c : U256) : List Byte := decDigits 19 c.toNat []

/-- `decimal(c)` left-padded with '0' to 19 characters (R288). -/
def decimalPadded (c : U256) : List Byte :=
  List.replicate (19 - (decimal c).length) 0x30 ++ decimal c

/-- `fmt_dec` (R288): the most significant chunk unpadded, every other one padded. -/
def fmtDec (x : U256) : List Byte :=
  match (decChunks 5 x).reverse with
  | [] => []
  | top :: rest => decimal top ++ rest.flatMap decimalPadded

/-! ## Hex parse -/

/-- `NIB[b]` of a digit; the digits of R301 are valid, so BAD does not occur. -/
def nibValue (b : Byte) : Nat := (nib b).getD 0

/-- The value of a hex digit section (R301). -/
def hexValue (d : List Byte) : Nat := d.foldl (fun acc b => 16 * acc + nibValue b) 0

/-- `parse_hex` (R300, R301): the steps in their order. -/
def parseHex (str : List Byte) : Except PErr U256 :=
  match str with
  | [] => .error .emptyString
  | [_] => .error .missingPrefix
  | c0 :: c1 :: d =>
    if c0 ≠ 0x30 ∨ (c1 ≠ 0x78 ∧ c1 ≠ 0x58) then .error .missingPrefix
    else if d = [] then .error .emptyNumber
    else if 1 < d.length ∧ d.head? = some 0x30 then .error .leadingZero
    else if 64 < d.length then .error .range
    else if !d.all (fun b => (nib b).isSome) then .error .syntaxError
    else .ok (BitVec.ofNat 256 (hexValue d))

end Sys2Proof.Machine
end

