-- ==== Sys2Proof/Machine/Codec.lean ====
section
/-! DEFINITION. The codec commands PARSED, FMTD, PARSEH and the unsigned narrowing TOU64 (44_codec.md). -/

namespace Sys2Proof.Machine

/-- The writes of a parse command (R286, R302, R397): PERR always, and U[rd] on success. -/
def State.writeParse (s : State) (rd : Reg) : Except PErr U256 → State
  | .ok v => (s.setPerr .ok).setReg rd v
  | .error e => s.setPerr e

/-- A parse command: it reads TEXT, then writes (R14). -/
def parseCommand (parse : List Byte → Except PErr U256) (rd : Reg) (s : State) : Result :=
  match s.text with
  | .error f => .fault f
  | .ok str => complete 1 (s.writeParse rd (parse str))

/-- R286: decimal parse. -/
def execParsed (rd : Reg) (s : State) : Result := parseCommand parseDec rd s

/-- R292: decimal format to TB(0).. and TLEN. -/
def execFmtd (rs1 : Reg) (s : State) : Result :=
  let out := fmtDec (s.getReg rs1)
  match s.memWrite 0 out with
  | .error f => .fault f
  | .ok s' => complete 1 (s'.setTlen (BitVec.ofNat 16 out.length))

/-- R302: hex parse. -/
def execParseh (rd : Reg) (s : State) : Result := parseCommand parseHex rd s

/-- R310: checked unsigned narrowing. -/
def execTou64 (rd rs1 : Reg) (s : State) : Result :=
  let x := s.getReg rs1
  if 2 ^ 64 ≤ x.toNat then raise .narrowRange s else complete 1 (s.setReg rd x)

end Sys2Proof.Machine
end

