-- ==== Sys2Proof/Machine/LimbArray.lean ====
section
/-! DEFINITION. The limb array: ZERO, ONE, LDU64, EQ, LT, CMP (40_limb_array.md). -/

namespace Sys2Proof.Machine

/-- R160: `U[rd] <- 0`. -/
def execZero (rd : Reg) (s : State) : Result := complete 1 (s.setReg rd 0)

/-- R161: `U[rd] <- 1`. -/
def execOne (rd : Reg) (s : State) : Result := complete 1 (s.setReg rd 1)

/-- R162, R131: the second word has arrived; `U[rd] <- zext_256(imm64)`, WAIT2 is cleared, PC advances by 2. -/
def execLdu64 (rd : Reg) (imm64 : Word) (s : State) : Result :=
  complete 2 ((s.setWait2 none).setReg rd (zextImm64 imm64))

/-- R165: 1 iff the operands are equal. -/
def execEq (rd rs1 rs2 : Reg) (s : State) : Result :=
  complete 1 (s.setReg rd (boolValue (s.getReg rs1 == s.getReg rs2)))

/-- R166: 1 iff x < y, unsigned. -/
def execLt (rd rs1 rs2 : Reg) (s : State) : Result :=
  complete 1 (s.setReg rd (boolValue (subBorrow (s.getReg rs1) (s.getReg rs2))))

/-- R167: the three-way unsigned comparison. -/
def execCmp (rd rs1 rs2 : Reg) (s : State) : Result :=
  complete 1 (s.setReg rd (cmpValue (s.getReg rs1) (s.getReg rs2)))

end Sys2Proof.Machine
end

