-- ==== Sys2Proof/Machine/Shift.lean ====
section
/-! DEFINITION. The shift unit: LSH, RSH, SRSH (43_shift.md). Amounts 256 and above saturate (R260). -/

namespace Sys2Proof.Machine

/-- R262: the bits shifted out of bit 255 are lost. -/
def shiftLeft (x : U256) (n : Nat) : U256 := if 256 ≤ n then 0 else x <<< n

/-- R263: vacated high bits are 0. -/
def shiftRight (x : U256) (n : Nat) : U256 := if 256 ≤ n then 0 else x >>> n

/-- R264: as `shiftRight` when bit 255 is 0, else vacated high bits are 1. -/
def shiftRightSigned (x : U256) (n : Nat) : U256 :=
  if isNeg x then (if 256 ≤ n then maxValue else x.sshiftRight n) else shiftRight x n

/-- R262: logical left shift. -/
def execLsh (rd rs1 : Reg) (n : BitVec 32) (s : State) : Result :=
  complete 1 (s.setReg rd (shiftLeft (s.getReg rs1) (shiftAmount n)))

/-- R263: logical right shift. -/
def execRsh (rd rs1 : Reg) (n : BitVec 32) (s : State) : Result :=
  complete 1 (s.setReg rd (shiftRight (s.getReg rs1) (shiftAmount n)))

/-- R264: arithmetic right shift. -/
def execSrsh (rd rs1 : Reg) (n : BitVec 32) (s : State) : Result :=
  complete 1 (s.setReg rd (shiftRightSigned (s.getReg rs1) (shiftAmount n)))

end Sys2Proof.Machine
end

