-- ==== Sys2Proof/Machine/Signed.lean ====
section
/-! DEFINITION. The signed extension (45_signed.md): SIGN, ABS, NEG, the three division families, ADDD, ADDDO
and TOI64. Its commands exist only when HAS_SIGNED is true (R128). -/

namespace Sys2Proof.Machine

/-- A command of the signed extension: ILLEGAL_COMMAND where the extension is absent (R128, R381). -/
def signedCommand (s : State) (r : Result) : Result :=
  if s.cfg.hasSigned then r else raise .illegalCommand s

/-- The divisor check of every signed division (R335), before its result `r`. -/
def nonzeroDivisor (y : U256) (s : State) (r : Result) : Result :=
  if y = 0 then raise .divideByZero s else r

/-- Signed division writing `f x y` to rd (R335, R340 to R347). -/
def signedDivision (f : U256 → U256 → U256) (rd rs1 rs2 : Reg) (s : State) : Result :=
  signedCommand s
    (nonzeroDivisor (s.getReg rs2) s (complete 1 (s.setReg rd (f (s.getReg rs1) (s.getReg rs2)))))

/-! ## The division cores. The divisor is not 0, so REMU_DIV0 is not reached (R335). -/

/-- `tdivrem` (R336): truncated quotient and remainder. -/
def tdivrem (x y : U256) : U256 × U256 :=
  let qr := udivrem .zero (mag x) (mag y)
  (applySign (isNeg x != isNeg y) qr.1, applySign (isNeg x) qr.2)

/-- `fquo` (R337): floored quotient. -/
def fquo (x y : U256) : U256 :=
  let qr := udivrem .zero (mag x) (mag y)
  let d := isNeg x != isNeg y
  applySign d (if d && qr.2 != 0 then qr.1 + 1 else qr.1)

/-- `edivmod` (R338): Euclidean quotient and remainder. -/
def edivmod (x y : U256) : U256 × U256 :=
  let qr := tdivrem x y
  if isNeg qr.2 then
    (if isNeg y then (qr.1 + 1, qr.2 - y) else (qr.1 - 1, qr.2 + y))
  else qr

/-- The sign as the pattern of -1, 0 or +1 (R332). -/
def signValue (x : U256) : U256 := if x = 0 then 0 else if isNeg x then maxValue else 1

/-! ## Commands -/

/-- R332. -/
def execSign (rd rs1 : Reg) (s : State) : Result :=
  signedCommand s (complete 1 (s.setReg rd (signValue (s.getReg rs1))))

/-- R333. -/
def execAbs (rd rs1 : Reg) (s : State) : Result :=
  signedCommand s (complete 1 (s.setReg rd (mag (s.getReg rs1))))

/-- R334. -/
def execNeg (rd rs1 : Reg) (s : State) : Result :=
  signedCommand s (complete 1 (s.setReg rd (negate (s.getReg rs1))))

/-- R340: truncated quotient. -/
def execSdiv (rd rs1 rs2 : Reg) (s : State) : Result :=
  signedDivision (fun x y => (tdivrem x y).1) rd rs1 rs2 s

/-- R341: truncated remainder. -/
def execSrem (rd rs1 rs2 : Reg) (s : State) : Result :=
  signedDivision (fun x y => (tdivrem x y).2) rd rs1 rs2 s

/-- R343: floored quotient. -/
def execSquo (rd rs1 rs2 : Reg) (s : State) : Result := signedDivision fquo rd rs1 rs2 s

/-- R344: the remainder paired with SQUO, which is the Euclidean one. -/
def execSmod (rd rs1 rs2 : Reg) (s : State) : Result :=
  signedDivision (fun x y => (edivmod x y).2) rd rs1 rs2 s

/-- R346: Euclidean quotient. -/
def execSdive (rd rs1 rs2 : Reg) (s : State) : Result :=
  signedDivision (fun x y => (edivmod x y).1) rd rs1 rs2 s

/-- R347: Euclidean remainder. -/
def execSmode (rd rs1 rs2 : Reg) (s : State) : Result :=
  signedDivision (fun x y => (edivmod x y).2) rd rs1 rs2 s

/-- R352: checked signed delta. -/
def execAddd (rd rs1 rs2 : Reg) (s : State) : Result :=
  let r := addDelta (s.getReg rs1) (s.getReg rs2)
  signedCommand s (if r.bad then raise r.kind s else complete 1 (s.setReg rd r.z))

/-- R353: overflow-reporting signed delta. -/
def execAdddo (rd rs1 rs2 : Reg) (s : State) : Result :=
  let r := addDelta (s.getReg rs1) (s.getReg rs2)
  signedCommand s (complete 1 ((s.setReg rd r.z).setOvf r.bad))

/-- R355: checked signed narrowing. -/
def execToi64 (rd rs1 : Reg) (s : State) : Result :=
  let x := s.getReg rs1
  signedCommand s
    (if x.toInt < -(2 ^ 63) ∨ 2 ^ 63 - 1 < x.toInt then raise .narrowRange s
     else complete 1 (s.setReg rd x))

end Sys2Proof.Machine
end

