-- ==== Sys2Proof/Machine/Dispatch.lean ====
section
/-! DEFINITION. The meaning of every command, one arm per constructor. -/

namespace Sys2Proof.Machine

/-- The effect of a command in a state whose decode checks have passed (30_encoding.md R127). -/
def exec (i : Instr) (s : State) : Host.Outcome State Fault Refusal :=
  match i with
  | .zero rd => Sys2Proof.Machine.execZero rd s
  | .one rd => Sys2Proof.Machine.execOne rd s
  | .ldu64 rd imm64 => Sys2Proof.Machine.execLdu64 rd imm64 s
  | .eq rd rs1 rs2 => Sys2Proof.Machine.execEq rd rs1 rs2 s
  | .lt rd rs1 rs2 => Sys2Proof.Machine.execLt rd rs1 rs2 s
  | .cmp rd rs1 rs2 => Sys2Proof.Machine.execCmp rd rs1 rs2 s
  | .add rd rs1 rs2 => Sys2Proof.Machine.execAdd rd rs1 rs2 s
  | .addo rd rs1 rs2 => Sys2Proof.Machine.execAddo rd rs1 rs2 s
  | .sub rd rs1 rs2 => Sys2Proof.Machine.execSub rd rs1 rs2 s
  | .subo rd rs1 rs2 => Sys2Proof.Machine.execSubo rd rs1 rs2 s
  | .subu rd rs1 rs2 => Sys2Proof.Machine.execSubu rd rs1 rs2 s
  | .mul rd rs1 rs2 => Sys2Proof.Machine.execMul rd rs1 rs2 s
  | .mulo rd rs1 rs2 => Sys2Proof.Machine.execMulo rd rs1 rs2 s
  | .mulw rd rd2 rs1 rs2 => Sys2Proof.Machine.execMulw rd rd2 rs1 rs2 s
  | .divu rd rs1 rs2 => Sys2Proof.Machine.execDivu rd rs1 rs2 s
  | .remu rd rs1 rs2 => Sys2Proof.Machine.execRemu rd rs1 rs2 s
  | .divremu rd rd2 rs1 rs2 => Sys2Proof.Machine.execDivremu rd rd2 rs1 rs2 s
  | .lsh rd rs1 n => Sys2Proof.Machine.execLsh rd rs1 n s
  | .rsh rd rs1 n => Sys2Proof.Machine.execRsh rd rs1 n s
  | .srsh rd rs1 n => Sys2Proof.Machine.execSrsh rd rs1 n s
  | .parsed rd => Sys2Proof.Machine.execParsed rd s
  | .fmtd rs1 => Sys2Proof.Machine.execFmtd rs1 s
  | .parseh rd => Sys2Proof.Machine.execParseh rd s
  | .tou64 rd rs1 => Sys2Proof.Machine.execTou64 rd rs1 s
  | .sign rd rs1 => Sys2Proof.Machine.execSign rd rs1 s
  | .abs rd rs1 => Sys2Proof.Machine.execAbs rd rs1 s
  | .neg rd rs1 => Sys2Proof.Machine.execNeg rd rs1 s
  | .sdiv rd rs1 rs2 => Sys2Proof.Machine.execSdiv rd rs1 rs2 s
  | .srem rd rs1 rs2 => Sys2Proof.Machine.execSrem rd rs1 rs2 s
  | .squo rd rs1 rs2 => Sys2Proof.Machine.execSquo rd rs1 rs2 s
  | .smod rd rs1 rs2 => Sys2Proof.Machine.execSmod rd rs1 rs2 s
  | .sdive rd rs1 rs2 => Sys2Proof.Machine.execSdive rd rs1 rs2 s
  | .smode rd rs1 rs2 => Sys2Proof.Machine.execSmode rd rs1 rs2 s
  | .addd rd rs1 rs2 => Sys2Proof.Machine.execAddd rd rs1 rs2 s
  | .adddo rd rs1 rs2 => Sys2Proof.Machine.execAdddo rd rs1 rs2 s
  | .toi64 rd rs1 => Sys2Proof.Machine.execToi64 rd rs1 s

end Sys2Proof.Machine
end

