-- ==== Sys2Proof/WellFormed.lean ====
section
/-! DEFINITION. Which terms of `Instr` are legal commands (30_encoding.md R127): a command of the signed
extension needs HAS_SIGNED, and the two destinations of format DDSS differ (R130). -/

namespace Sys2Proof

/-- The two destinations of a DDSS command are different registers (R130). -/
def Instr.distinctDests : Instr → Bool
  | .mulw rd rd2 _ _ | .divremu rd rd2 _ _ => rd != rd2
  | .zero _ | .one _ | .ldu64 _ _ | .eq _ _ _ | .lt _ _ _ | .cmp _ _ _ | .add _ _ _ | .addo _ _ _
  | .sub _ _ _ | .subo _ _ _ | .subu _ _ _ | .mul _ _ _ | .mulo _ _ _
  | .divu _ _ _ | .remu _ _ _ | .lsh _ _ _ | .rsh _ _ _ | .srsh _ _ _
  | .parsed _ | .fmtd _ | .parseh _ | .tou64 _ _
  | .sign _ _ | .abs _ _ | .neg _ _ | .sdiv _ _ _ | .srem _ _ _ | .squo _ _ _ | .smod _ _ _
  | .sdive _ _ _ | .smode _ _ _ | .addd _ _ _ | .adddo _ _ _ | .toi64 _ _ => true

/-- A legal command of a block with or without the signed extension. -/
def Instr.wellFormed (hasSigned : Bool) (i : Instr) : Bool :=
  (!i.signed || hasSigned) && i.distinctDests

end Sys2Proof
end

