-- ==== Sys2Proof/Decode.lean ====
section
/-! DEFINITION. The command encoding (30_encoding.md): the fields and formats of R121 and R122, the opcode
map of R126, the decode procedure of R127 with a name for each rejection, and the encoder. -/

namespace Sys2Proof

/-- The formats of R122. -/
inductive Format where
  | D | L | S | DS | DSS | DDSS | DSI
  deriving DecidableEq, Repr

/-- The mask of a format: its opcode bits and its must-be-zero bits (R122; for L, of word 0). -/
def Format.mask : Format → Word
  | .D => 0xFFFFFFFFFFFFF0FF
  | .L => 0xFFFFFFFFFFFFF0FF
  | .S => 0xFFFFFFFFFFFF0FFF
  | .DS => 0xFFFFFFFFFFFF00FF
  | .DSS => 0xFFFFFFFFFFF000FF
  | .DDSS => 0xFFFFFFFFFF0000FF
  | .DSI => 0x00000000FFFF00FF

/-- Bits 7:0 of a first word (R121). -/
def opField (w : Word) : Byte := w.extractLsb' 0 8

/-- Bits 11:8 of a first word (R121). -/
def rdField (w : Word) : Reg := (w.extractLsb' 8 4).toFin

/-- Bits 15:12 of a first word (R121). -/
def rs1Field (w : Word) : Reg := (w.extractLsb' 12 4).toFin

/-- Bits 19:16 of a first word (R121). -/
def rs2Field (w : Word) : Reg := (w.extractLsb' 16 4).toFin

/-- Bits 23:20 of a first word (R121). -/
def rd2Field (w : Word) : Reg := (w.extractLsb' 20 4).toFin

/-- Bits 63:32 of a first word (R121, R124). -/
def imm32Field (w : Word) : BitVec 32 := w.extractLsb' 32 32

/-- One row of the opcode map (R126). -/
structure OpRow where
  /-- The opcode. -/
  op : Byte
  /-- The format. -/
  fmt : Format
  /-- The row is marked S. -/
  signed : Bool
  /-- The command, from its first word and its second word (0 where the format has one word). -/
  build : Word → Word → Instr

/-- A row of format D. -/
def rowD (op : Byte) (c : Reg → Instr) : OpRow :=
  ⟨op, .D, false, fun w _ => c (rdField w)⟩

/-- A row of format L; `imm64` is the whole second word (R125). -/
def rowL (op : Byte) (c : Reg → Word → Instr) : OpRow :=
  ⟨op, .L, false, fun w w1 => c (rdField w) w1⟩

/-- A row of format S. -/
def rowS (op : Byte) (c : Reg → Instr) : OpRow :=
  ⟨op, .S, false, fun w _ => c (rs1Field w)⟩

/-- A row of format DS. -/
def rowDS (op : Byte) (signed : Bool) (c : Reg → Reg → Instr) : OpRow :=
  ⟨op, .DS, signed, fun w _ => c (rdField w) (rs1Field w)⟩

/-- A row of format DSS. -/
def rowDSS (op : Byte) (signed : Bool) (c : Reg → Reg → Reg → Instr) : OpRow :=
  ⟨op, .DSS, signed, fun w _ => c (rdField w) (rs1Field w) (rs2Field w)⟩

/-- A row of format DDSS. -/
def rowDDSS (op : Byte) (c : Reg → Reg → Reg → Reg → Instr) : OpRow :=
  ⟨op, .DDSS, false, fun w _ => c (rdField w) (rd2Field w) (rs1Field w) (rs2Field w)⟩

/-- A row of format DSI. -/
def rowDSI (op : Byte) (c : Reg → Reg → BitVec 32 → Instr) : OpRow :=
  ⟨op, .DSI, false, fun w _ => c (rdField w) (rs1Field w) (imm32Field w)⟩

/-- R126, the groups 0x00-0x1F: limb array and arithmetic. -/
def opcodeRowsBase : List OpRow :=
  [rowD 0x01 .zero, rowD 0x02 .one, rowL 0x03 .ldu64,
   rowDSS 0x08 false .eq, rowDSS 0x09 false .lt, rowDSS 0x0A false .cmp,
   rowDSS 0x10 false .add, rowDSS 0x11 false .addo,
   rowDSS 0x14 false .sub, rowDSS 0x15 false .subo, rowDSS 0x16 false .subu,
   rowDSS 0x18 false .mul, rowDSS 0x19 false .mulo, rowDDSS 0x1A .mulw]

/-- R126, the groups 0x20-0x3F: division, shifts and codecs. -/
def opcodeRowsUnits : List OpRow :=
  [rowDSS 0x20 false .divu, rowDSS 0x21 false .remu, rowDDSS 0x22 .divremu,
   rowDSI 0x28 .lsh, rowDSI 0x29 .rsh, rowDSI 0x2A .srsh,
   rowD 0x30 .parsed, rowS 0x31 .fmtd, rowD 0x32 .parseh, rowDS 0x33 false .tou64]

/-- R126, the group 0x40-0x5F: the signed extension. -/
def opcodeRowsSigned : List OpRow :=
  [rowDS 0x40 true .sign, rowDS 0x41 true .abs, rowDS 0x42 true .neg,
   rowDSS 0x48 true .sdiv, rowDSS 0x49 true .srem, rowDSS 0x4A true .squo, rowDSS 0x4B true .smod,
   rowDSS 0x4C true .sdive, rowDSS 0x4D true .smode,
   rowDSS 0x50 true .addd, rowDSS 0x51 true .adddo, rowDS 0x52 true .toi64]

/-- The opcode map of R126; an opcode with no row is illegal (R128). -/
def opcodeTable : List OpRow := opcodeRowsBase ++ opcodeRowsUnits ++ opcodeRowsSigned

/-- Why a sequence of words is not a command. All but the first and the last are ILLEGAL_COMMAND (R127). -/
inductive DecodeError where
  /-- There is no word. -/
  | noWord
  /-- The opcode is not in the map (R128). -/
  | unassignedOpcode (op : Byte)
  /-- The opcode belongs to the signed extension and HAS_SIGNED is false (R128). -/
  | signedAbsent (op : Byte)
  /-- A must-be-zero bit of the format is set (R129). -/
  | reservedBits (op : Byte)
  /-- A DDSS command names one register twice as destination (R130). -/
  | sameDestination (rd : Reg)
  /-- The first word of an LDU64 is legal and its second word has not arrived (R131). -/
  | secondWordMissing (rd : Reg)
  deriving DecidableEq, Repr

/-- The decode checks of R127 on a first word, in its order. -/
def decodeFirst (hasSigned : Bool) (w : Word) : Except DecodeError OpRow :=
  match opcodeTable.find? (fun r => r.op == opField w) with
  | none => .error (.unassignedOpcode (opField w))
  | some r =>
    if r.signed && !hasSigned then .error (.signedAbsent r.op)
    else if w &&& r.fmt.mask &&& ~~~(0xFF#64) ≠ 0 then .error (.reservedBits r.op)
    else if r.fmt = .DDSS ∧ rdField w = rd2Field w then .error (.sameDestination (rdField w))
    else .ok r

/-- The command at the head of a sequence of words, and the words after it (R127, R131, R132). -/
def decode (hasSigned : Bool) : List Word → Except DecodeError (Instr × List Word)
  | [] => .error .noWord
  | w :: ws =>
    match decodeFirst hasSigned w with
    | .error e => .error e
    | .ok r =>
      if r.fmt = .L then
        match ws with
        | [] => .error (.secondWordMissing (rdField w))
        | w1 :: rest => .ok (r.build w w1, rest)
      else .ok (r.build w 0, ws)

/-- A first word from its fields (R121): bits 31:24 are zero. -/
def packWord (op : Byte) (rd rs1 rs2 rd2 : Reg) (imm32 : BitVec 32) : Word :=
  imm32 ++ 0#8 ++ BitVec.ofFin (w := 4) rd2 ++ BitVec.ofFin (w := 4) rs2 ++ BitVec.ofFin (w := 4) rs1
    ++ BitVec.ofFin (w := 4) rd ++ op

/-- The words of a command (R121, R122, R126). -/
def encode : Instr → List Word
  | .zero rd => [packWord 0x01 rd 0 0 0 0]
  | .one rd => [packWord 0x02 rd 0 0 0 0]
  | .ldu64 rd imm64 => [packWord 0x03 rd 0 0 0 0, imm64]
  | .eq rd rs1 rs2 => [packWord 0x08 rd rs1 rs2 0 0]
  | .lt rd rs1 rs2 => [packWord 0x09 rd rs1 rs2 0 0]
  | .cmp rd rs1 rs2 => [packWord 0x0A rd rs1 rs2 0 0]
  | .add rd rs1 rs2 => [packWord 0x10 rd rs1 rs2 0 0]
  | .addo rd rs1 rs2 => [packWord 0x11 rd rs1 rs2 0 0]
  | .sub rd rs1 rs2 => [packWord 0x14 rd rs1 rs2 0 0]
  | .subo rd rs1 rs2 => [packWord 0x15 rd rs1 rs2 0 0]
  | .subu rd rs1 rs2 => [packWord 0x16 rd rs1 rs2 0 0]
  | .mul rd rs1 rs2 => [packWord 0x18 rd rs1 rs2 0 0]
  | .mulo rd rs1 rs2 => [packWord 0x19 rd rs1 rs2 0 0]
  | .mulw rd rd2 rs1 rs2 => [packWord 0x1A rd rs1 rs2 rd2 0]
  | .divu rd rs1 rs2 => [packWord 0x20 rd rs1 rs2 0 0]
  | .remu rd rs1 rs2 => [packWord 0x21 rd rs1 rs2 0 0]
  | .divremu rd rd2 rs1 rs2 => [packWord 0x22 rd rs1 rs2 rd2 0]
  | .lsh rd rs1 n => [packWord 0x28 rd rs1 0 0 n]
  | .rsh rd rs1 n => [packWord 0x29 rd rs1 0 0 n]
  | .srsh rd rs1 n => [packWord 0x2A rd rs1 0 0 n]
  | .parsed rd => [packWord 0x30 rd 0 0 0 0]
  | .fmtd rs1 => [packWord 0x31 0 rs1 0 0 0]
  | .parseh rd => [packWord 0x32 rd 0 0 0 0]
  | .tou64 rd rs1 => [packWord 0x33 rd rs1 0 0 0]
  | .sign rd rs1 => [packWord 0x40 rd rs1 0 0 0]
  | .abs rd rs1 => [packWord 0x41 rd rs1 0 0 0]
  | .neg rd rs1 => [packWord 0x42 rd rs1 0 0 0]
  | .sdiv rd rs1 rs2 => [packWord 0x48 rd rs1 rs2 0 0]
  | .srem rd rs1 rs2 => [packWord 0x49 rd rs1 rs2 0 0]
  | .squo rd rs1 rs2 => [packWord 0x4A rd rs1 rs2 0 0]
  | .smod rd rs1 rs2 => [packWord 0x4B rd rs1 rs2 0 0]
  | .sdive rd rs1 rs2 => [packWord 0x4C rd rs1 rs2 0 0]
  | .smode rd rs1 rs2 => [packWord 0x4D rd rs1 rs2 0 0]
  | .addd rd rs1 rs2 => [packWord 0x50 rd rs1 rs2 0 0]
  | .adddo rd rs1 rs2 => [packWord 0x51 rd rs1 rs2 0 0]
  | .toi64 rd rs1 => [packWord 0x52 rd rs1 0 0 0]

/-- The words of an instruction written as one number, numbered as spec/opcode_table.json numbers its bits:
the first word is bits 63:0, and the second word of an LDU64 is bits 127:64; bits at or above `nbits` are 0. -/
def tableWords (nbits w : Nat) : List Word :=
  let v := w % 2 ^ nbits
  let w0 := BitVec.ofNat 64 v
  if opField w0 = 0x03 then [w0, BitVec.ofNat 64 (v / 2 ^ 64)] else [w0]

/-- The instruction the decoder reads from a table word, for the default HAS_SIGNED (R8). -/
def decodeTableWord (nbits w : Nat) : Option Instr :=
  match decode Config.default.hasSigned (tableWords nbits w) with
  | .ok (i, _) => some i
  | .error _ => none

end Sys2Proof
end

