-- ==== Sys2Proof/Machine/HostPort.lean ====
section
/-! DEFINITION. The host port (20_memory.md R81 to R91): the map, what a host read returns, what a host write
does, and which accesses the model refuses. A write to CMD is left to Fetch.lean. -/

namespace Sys2Proof.Machine

/-- Where an offset of the host port leads (R81). -/
inductive PortTarget where
  /-- U[i] limb j, at 32i + 8j. -/
  | limb (i : Reg) (j : Nat)
  /-- CMD, 0x200. -/
  | cmd
  /-- STATUS, 0x208. -/
  | status
  /-- PC, 0x210. -/
  | pc
  /-- FPC, 0x218. -/
  | fpc
  /-- TLEN, 0x220. -/
  | tlen
  /-- ID, 0x228. -/
  | id
  /-- TBUF word m, at 0x400 + 8m, m < ceil(TBUF_BYTES / 8). -/
  | tbufWord (m : Nat)
  /-- A reserved offset (R83). -/
  | reserved
  deriving DecidableEq, Repr

/-- The host port map (R81), for 8-byte-aligned offsets. -/
def portTarget (c : Config) (offset : Nat) : PortTarget :=
  if offset < 0x200 then .limb (Fin.ofNat 16 (offset / 32)) (offset % 32 / 8)
  else if offset = 0x200 then .cmd
  else if offset = 0x208 then .status
  else if offset = 0x210 then .pc
  else if offset = 0x218 then .fpc
  else if offset = 0x220 then .tlen
  else if offset = 0x228 then .id
  else if 0x400 ≤ offset ∧ (offset - 0x400) / 8 < (c.tbufBytes + 7) / 8 then
    .tbufWord ((offset - 0x400) / 8)
  else .reserved

/-- A host access the block admits: 64 bits wide and 8-byte aligned (R88). -/
def admitted (offset bytes : Nat) : Bool := bytes == 8 && offset % 8 == 0

/-- Limb j of U[i] as the host reads it (R82); a limb not written since reset gives a free value (R421). -/
def State.hostLimb (s : State) (i : Reg) (j : Nat) : Word :=
  if s.limbWritten i j then limb (s.getReg i) j else Config.unwrittenLimb s.epoch i.val j

/-- TBUF byte k as the host reads it (R85): 0 at or beyond TBUF_BYTES, a free value for a byte not written
since reset (R421). -/
def State.hostByte (s : State) (k : Nat) : Byte :=
  if s.cfg.tbufBytes ≤ k then 0
  else
    match Memory.read? s.tbuf k with
    | some b => b
    | none => Config.unwrittenByte s.epoch k

/-- TBUF word m as the host reads it: byte 8m+b in bits 8b+7:8b (R85). -/
def State.hostTbufWord (s : State) (m : Nat) : Word :=
  s.hostByte (8 * m + 7) ++ s.hostByte (8 * m + 6) ++ s.hostByte (8 * m + 5) ++ s.hostByte (8 * m + 4)
    ++ s.hostByte (8 * m + 3) ++ s.hostByte (8 * m + 2) ++ s.hostByte (8 * m + 1) ++ s.hostByte (8 * m)

/-- What a host read of an aligned offset returns (R81 to R85; CMD reads as 0, R53). -/
def State.hostValue (s : State) (offset : Nat) : Word :=
  match portTarget s.cfg offset with
  | .limb i j => s.hostLimb i j
  | .cmd => 0
  | .status => s.statusWord
  | .pc => s.pc.setWidth 64
  | .fpc => s.fpc.setWidth 64
  | .tlen => s.tlen.setWidth 64
  | .id => idValue
  | .tbufWord m => s.hostTbufWord m
  | .reserved => 0

/-- A host read: its data is returned and nothing else changes (R83, log 9). -/
def hostRead (s : State) (offset bytes : Nat) : Result :=
  if admitted offset bytes then .next (s.setHostData (s.hostValue offset))
  else .refused (.hostAccessShape offset bytes)

/-- Byte lane b of a host word: bits 8b+7:8b (R85). -/
def byteLane (w : Word) (b : Nat) : Byte := w.extractLsb' (8 * b) 8

/-- The lanes `b, b+1, ..` of a host write to the TBUF word at byte `base`; lanes at or beyond TBUF_BYTES are
ignored (R85). -/
def writeLanes (tbufBytes base : Nat) (w : Word) : (lanes : List Nat) → Memory → Memory
  | [], m => m
  | b :: bs, m =>
    writeLanes tbufBytes base w bs
      (if base + b < tbufBytes then Memory.write m (base + b) (byteLane w b) else m)

/-- A host write of TBUF word m (R85). -/
def State.hostWriteTbufWord (s : State) (m : Nat) (w : Word) : State :=
  s.setTbuf (writeLanes s.cfg.tbufBytes (8 * m) w [0, 1, 2, 3, 4, 5, 6, 7] s.tbuf)

/-- A host write of TLEN: at most TBUF_BYTES and bits 63:16 zero, or the model has no move (R91). -/
def hostWriteTlen (s : State) (w : Word) : Result :=
  if w.toNat ≤ s.cfg.tbufBytes then .next (s.setTlen (w.setWidth 16))
  else .refused (.hostTlenValue w)

/-- A host write of an aligned offset other than CMD (R82, R83, R85). -/
def hostWriteTarget (s : State) (w : Word) : PortTarget → Result
  | .limb i j => .next (s.setRegLimb i j w)
  | .tlen => hostWriteTlen s w
  | .tbufWord m => .next (s.hostWriteTbufWord m w)
  | .cmd | .status | .pc | .fpc | .id | .reserved => .next s

end Sys2Proof.Machine
end

