-- ==== Sys2Proof/Machine/Fetch.lean ====
section
/-! DEFINITION. Taking the next host access (20_memory.md R86, R90) and, where it is a command word, fetching
and decoding the command (30_encoding.md R127, R131). -/

namespace Sys2Proof.Machine

/-- What the next host access leads to. -/
inductive Fetched where
  /-- The access is complete, with this outcome; no command runs. -/
  | done (r : Result)
  /-- The access completes command `i`, which runs in state `s`. -/
  | run (i : Instr) (s : State)

/-- The core accepts a first word (R86, R127). A legal first word of LDU64 only waits (R131); a legal word of
another command runs it, with BUSY at 1 (R51); an illegal word is ILLEGAL_COMMAND (R128, R129, R130). -/
def acceptFirst (w : Word) (s : State) : Fetched :=
  match decode s.cfg.hasSigned [w] with
  | .ok (i, _) => .run i s.setBusy
  | .error (.secondWordMissing rd) => .done (.next (s.setWait2 (some rd)))
  | .error _ => .done (raise .illegalCommand s)

/-- The core accepts a word pushed to CMD (R86): discarded while FAULT = 1 (R388), the second word of a
pending LDU64 while WAIT2 = 1, whatever its bits (R131), else a first word. -/
def acceptWord (w : Word) (s : State) : Fetched :=
  if s.fault then .done (.next s)
  else
    match s.wait2 with
    | some rd => .run (.ldu64 rd w) s.setBusy
    | none => acceptFirst w s

/-- A host access with the accesses after it already in `s.host`. -/
def takeAccess (a : HostAccess) (s : State) : Fetched :=
  match a with
  | .reset => .done (.next s.afterReset)
  | .read offset bytes => .done (hostRead s offset bytes)
  | .write offset bytes w =>
    if admitted offset bytes then
      match portTarget s.cfg offset with
      | .cmd => acceptWord w s
      | t => .done (hostWriteTarget s w t)
    else .done (.refused (.hostAccessShape offset bytes))

/-- The next thing the block does. With no access pending it holds its state (R404). While BUSY = 1 the port
holds every access but reset, which takes effect at once (R90, R391); BUSY is 0 between steps (log 5). -/
def fetch (s : State) : Fetched :=
  match s.host with
  | [] => .done (.next s)
  | a :: rest =>
    if s.busy ∧ a ≠ .reset then .done (.next s) else takeAccess a (s.setHost rest)

/-- A push of a command word to CMD (R86). -/
def pushWord (w : Word) : HostAccess := .write 0x200 8 w

/-- A state whose next step runs the command of the words `ws` (log 12): the core is idle and not halted, and
the word that completes the command is the next host access. The first word of a legal LDU64 has already
been accepted (WAIT2 = 1). -/
def State.placeWords (s : State) (ws : List Word) : State :=
  let idle := { s with fault := false, fcause := .none, busy := false, wait2 := none }
  match ws with
  | [] => idle
  | [w] => idle.setHost (pushWord w :: s.host)
  | w :: w1 :: _ =>
    match decodeFirst s.cfg.hasSigned w with
    | .ok r =>
      if r.fmt = .L then (idle.setWait2 (some (rdField w))).setHost (pushWord w1 :: s.host)
      else idle.setHost (pushWord w :: s.host)
    | .error _ => idle.setHost (pushWord w :: s.host)

end Sys2Proof.Machine
end

