-- ==== Sys2Proof/Machine/Step.lean ====
section
/-! DEFINITION. One step of the block: it takes one host access, and runs the command that access completes
(00_scope.md R5, 20_memory.md R90, R92). -/

namespace Sys2Proof.Machine

/-- One step. -/
def step (s : State) : Host.Outcome State Fault Refusal :=
  match fetch s with
  | .done r => r
  | .run i s' => exec i s'

/-- The state with the instruction of a table word placed where the next step takes its command (log 12). -/
def State.withFetchWord (s : State) (nbits w : Nat) : State := s.placeWords (tableWords nbits w)

end Sys2Proof.Machine
end

