-- ==== Sys2Proof/Machine/Datapath.lean ====
section
/-! DEFINITION. The reference datapaths of the units: the adder (41_arithmetic.md R181), the subtractor and
comparator (R185, 40_limb_array.md R168), the multiplier (R190), the shifter (43_shift.md R261), the divider
(42_division.md R222 to R224) and the codec windows (44_codec.md R284, R301). None is architecturally visible
and no meaning calls one; the obligations state each equal to the result the meaning uses. -/

namespace Sys2Proof.Machine

/-! ## Limb lists, limb 0 first -/

/-- The limb array of a value (R41). -/
def limbs (v : U256) : List Word := [limb v 0, limb v 1, limb v 2, limb v 3]

/-- The sum of limb[i] * 2^(64i) (R9, R41). -/
def limbsValue : List Word → Nat
  | [] => 0
  | l :: ls => l.toNat + 2 ^ 64 * limbsValue ls

/-- A number as `len` limbs. -/
def toLimbs : (len : Nat) → Nat → List Word
  | 0, _ => []
  | len + 1, v => BitVec.ofNat 64 v :: toLimbs len (v / 2 ^ 64)

/-! ## Adder and subtractor -/

/-- The carry chain (R181): the sum limbs and the carry out. -/
def addChain : List Word → List Word → (c : Nat) → List Word × Nat
  | x :: xs, y :: ys, c =>
    let t := x.toNat + y.toNat + c
    let r := addChain xs ys (t / 2 ^ 64)
    (BitVec.ofNat 64 t :: r.1, r.2)
  | [], _, c => ([], c)
  | _ :: _, [], c => ([], c)

/-- The borrow chain (R185, R168): the difference limbs and the borrow out. -/
def subChain : List Word → List Word → (b : Nat) → List Word × Nat
  | x :: xs, y :: ys, b =>
    let r := subChain xs ys (if x.toNat < y.toNat + b then 1 else 0)
    ((x - y - BitVec.ofNat 64 b) :: r.1, r.2)
  | [], _, b => ([], b)
  | _ :: _, [], b => ([], b)

/-- `lt` of the comparator: the borrow escapes limb 3 (R168). -/
def ltDatapath (x y : U256) : Bool := (subChain (limbs x) (limbs y) 0).2 == 1

/-- `eq` of the comparator: the OR of the difference limbs is 0 (R168). -/
def eqDatapath (x y : U256) : Bool := (subChain (limbs x) (limbs y) 0).1.foldl (· ||| ·) 0 == 0

/-! ## Multiplier -/

/-- The inner loop of R190 over the limbs of y: it updates `p[i..]`, and leaves the carry in `p[i+4]`. -/
def mulRow (xi : Word) : (ys ps : List Word) → (c : Nat) → List Word
  | y :: ys, p :: ps, c =>
    let t := p.toNat + xi.toNat * y.toNat + c
    BitVec.ofNat 64 t :: mulRow xi ys ps (t / 2 ^ 64)
  | [], _ :: ps, c => BitVec.ofNat 64 c :: ps
  | [], [], _ => []
  | _ :: _, [], _ => []

/-- The outer loop of R190 over the limbs of x: each limb adds its row one place higher. -/
def mulRows : (xs ys ps : List Word) → List Word
  | [], _, ps => ps
  | x :: xs, ys, ps =>
    match mulRow x ys ps 0 with
    | [] => []
    | p :: rest => p :: mulRows xs ys rest

/-- The eight product limbs (R190). -/
def mulDatapath (x y : U256) : List Word := mulRows (limbs x) (limbs y) (List.replicate 8 0)

/-! ## Shifter, for n < 256 -/

/-- The whole-limb move of a left shift (R261): `t.limb[i]`. -/
def leftMove (x : U256) (k i : Nat) : Word := if k ≤ i then limb x (i - k) else 0

/-- `z.limb[i]` of a left shift by n (R261). -/
def leftLimb (x : U256) (n i : Nat) : Word :=
  let k := n / 64
  let b := n % 64
  if b = 0 then leftMove x k i
  else (leftMove x k i <<< b) ||| (if 1 ≤ i then leftMove x k (i - 1) >>> (64 - b) else 0)

/-- A left shift by n as limbs (R261). -/
def leftDatapath (x : U256) (n : Nat) : List Word :=
  [leftLimb x n 0, leftLimb x n 1, leftLimb x n 2, leftLimb x n 3]

/-- The whole-limb move of a right shift (R261). -/
def rightMove (x : U256) (fill : Word) (k i : Nat) : Word :=
  if i + k ≤ 3 then limb x (i + k) else fill

/-- `z.limb[i]` of a right shift by n (R261). -/
def rightLimb (x : U256) (fill : Word) (n i : Nat) : Word :=
  let k := n / 64
  let b := n % 64
  if b = 0 then rightMove x fill k i
  else (rightMove x fill k i >>> b)
    ||| ((if i < 3 then rightMove x fill k (i + 1) else fill) <<< (64 - b))

/-- A right shift by n as limbs; `fill` is 0 for RSH and the sign limb for SRSH (R261). -/
def rightDatapath (x : U256) (fill : Word) (n : Nat) : List Word :=
  [rightLimb x fill n 0, rightLimb x fill n 1, rightLimb x fill n 2, rightLimb x fill n 3]

/-- The fill of SRSH (R261). -/
def signFill (x : U256) : Word := if isNeg x then BitVec.allOnes 64 else 0

/-! ## Divider -/

/-- The number of significant limbs (R223); 0 for 0. -/
def significantLimbs (v : U256) : Nat :=
  if limb v 3 ≠ 0 then 4 else if limb v 2 ≠ 0 then 3 else if limb v 1 ≠ 0 then 2
  else if limb v 0 ≠ 0 then 1 else 0

/-- The count of leading zero bits of a nonzero limb (R223). -/
def clz64 (d : Word) : Nat := 63 - Nat.log2 d.toNat

/-- The reciprocal of a normalised limb, stored minus 2^64 (R224). -/
def recip (d : Word) : Word := BitVec.ofNat 64 ((2 ^ 128 - 1) / d.toNat - 2 ^ 64)

/-- The 2-limb by 1-limb division primitive with the stored reciprocal `v` (R224): the estimate from
v * u1 + u1 * 2^64 + u0, and its two conditional corrections. -/
def div2by1 (u1 u0 d v : Word) : Word × Word :=
  let e := v.toNat * u1.toNat + u1.toNat * 2 ^ 64 + u0.toNat
  let q := BitVec.ofNat 64 (e / 2 ^ 64) + 1
  let r := u0 - q * d
  let q' := if e % 2 ^ 64 < r.toNat then q - 1 else q
  let r' := if e % 2 ^ 64 < r.toNat then r + d else r
  if d.toNat ≤ r'.toNat then (q' + 1, r' - d) else (q', r')

/-- The correction of the trial quotient, at most `fuel` times (R223, fuel 2): `y2` is yn[n-2] and `x2` is
xn[j+n-2]. -/
def correctTrial (d y2 x2 : Nat) : (fuel qhat rhat : Nat) → Nat
  | 0, qhat, _ => qhat
  | fuel + 1, qhat, rhat =>
    if rhat < 2 ^ 64 ∧ rhat * 2 ^ 64 + x2 < qhat * y2 then correctTrial d y2 x2 fuel (qhat - 1) (rhat + d)
    else qhat

/-- The trial quotient of one position (R223): `yn` is the normalised divisor of n limbs and `w` the window
xn[j .. j+n]. -/
def trialQuotient (yn w : List Word) (n : Nat) : Nat :=
  let d := yn.getD (n - 1) 0
  let u2 := w.getD n 0
  if u2 = d then 2 ^ 64 - 1
  else
    let qr := div2by1 u2 (w.getD (n - 1) 0) d (recip d)
    if 2 ≤ n then
      correctTrial d.toNat (yn.getD (n - 2) 0).toNat (w.getD (n - 2) 0).toNat 2 qr.1.toNat qr.2.toNat
    else qr.1.toNat

/-- One position of the division (R223): trial quotient, multiply-and-subtract modulo 2^(64(n+1)), and the
add-back if it borrowed; the quotient limb and the new window. -/
def knuthStep (yn w : List Word) (n : Nat) : Word × List Word :=
  let qhat := trialQuotient yn w n
  let modulus := 2 ^ (64 * (n + 1))
  let diff := (limbsValue w + modulus - qhat * limbsValue yn) % modulus
  if limbsValue w < qhat * limbsValue yn then
    (BitVec.ofNat 64 (qhat - 1), toLimbs (n + 1) ((diff + limbsValue yn) % modulus))
  else (BitVec.ofNat 64 qhat, toLimbs (n + 1) diff)

/-- The positions j-1 down to 0 (R223): the quotient limbs, limb 0 first, and the working remainder. -/
def knuthLoop (yn : List Word) (n : Nat) : (j : Nat) → (xn q : List Word) → List Word × List Word
  | 0, xn, q => (q, xn)
  | j + 1, xn, q =>
    let r := knuthStep yn ((xn.drop j).take (n + 1)) n
    knuthLoop yn n j (xn.take j ++ r.2 ++ xn.drop (j + n + 1)) (r.1 :: q)

/-- `knuthD` (R223): limb-normalised Algorithm D for 0 < y < x and x >= 2^64. -/
def knuthD (x y : U256) : U256 × U256 :=
  let n := significantLimbs y
  let m := significantLimbs x
  let sh := clz64 (limb y (n - 1))
  let yn := toLimbs n (y.toNat * 2 ^ sh)
  let xn := toLimbs (m + 1) (x.toNat * 2 ^ sh)
  let r := knuthLoop yn n (m - n + 1) xn []
  (BitVec.ofNat 256 (limbsValue r.1), BitVec.ofNat 256 (limbsValue (r.2.take n) / 2 ^ sh))

/-- The engine with the case order of R222. -/
def udivremDatapath (mode : RemuDiv0) (x y : U256) : U256 × U256 :=
  if y = 0 then
    (0, match mode with
        | .zero => 0
        | .dividend => x)
  else if x.toNat < y.toNat then (0, x)
  else if y = x then (1, 0)
  else if x.toNat < 2 ^ 64 then (BitVec.ofNat 256 (x.toNat / y.toNat), BitVec.ofNat 256 (x.toNat % y.toNat))
  else knuthD x y

/-! ## Codec windows -/

/-- The values of the windows of at most 19 digits (R284), w_0 first; the digits are given last first. -/
def decWindows : (fuel : Nat) → (reversed : List Byte) → List Nat
  | 0, _ => []
  | fuel + 1, r => if r = [] then [] else decValue (r.take 19).reverse :: decWindows fuel (r.drop 19)

/-- The accumulation of the windows from index k, window 0 times 1 and window k times POW19[k] (R284). -/
def windowSum : (k : Nat) → List Nat → Nat
  | _, [] => 0
  | k, w :: ws => w * (pow19 k).toNat + windowSum (k + 1) ws

/-- The value of a stripped digit string of at most 78 digits by windows (R284). -/
def decDatapath (str : List Byte) : Nat := windowSum 0 (decWindows 5 str.reverse)

/-- The limbs decoded right to left in windows of 16 hex digits (R301); the digits are given last first. -/
def hexWindows : (fuel : Nat) → (reversed : List Byte) → List Word
  | 0, _ => []
  | fuel + 1, r => BitVec.ofNat 64 (hexValue (r.take 16).reverse) :: hexWindows fuel (r.drop 16)

/-- The four limbs of a hex digit section of at most 64 digits (R301). -/
def hexDatapath (d : List Byte) : List Word := hexWindows 4 d.reverse

end Sys2Proof.Machine
end

