-- ==== Sys2Proof/Safety.lean ====
section
/-! DEFINITION. What counts as a safe run, in the terms the statements use: the invariant of a state between
steps, the end and the outcome of a run (70_reset_and_hazards.md R430), a run that never depends on unwritten
state (R42, R425), and the frames of a command. -/

namespace Sys2Proof.Machine

/-! ## The invariant -/

/-- The status fields agree with each other: FCAUSE is 0 iff FAULT is 0 (R44), a halted core awaits no second
word (R388) and its FPC is its PC (R384, R388), FPC is 0 before the first fault (R48, R385), and PERR is never
one of the two reserved codes (R396). -/
abbrev State.StatusInv (s : State) : Prop :=
  (s.fault = false ↔ s.fcause = .none) ∧ (s.fault = true → s.wait2 = none ∧ s.fpc = s.pc) ∧
  (s.fault = false → s.fpc = 0) ∧ s.perr ≠ .invalidBase ∧ s.perr ≠ .invalidBitsize

/-- TBUF is in canonical form, lies within TBUF_BYTES, and TLEN is a legal length (R49, R50, R91). -/
abbrev State.TextInv (s : State) : Prop :=
  s.tbuf.wf ∧ (∀ c ∈ s.tbuf, c.1 < s.cfg.tbufBytes) ∧ s.tlen.toNat ≤ s.cfg.tbufBytes

/-- What holds of the block between steps; BUSY is 0 there (log 5). -/
abbrev State.Inv (s : State) : Prop := s.busy = false ∧ s.StatusInv ∧ s.TextInv

/-! ## Runs -/

/-- The command word an access pushes, if it is a push (R86). -/
def HostAccess.commandWord? : HostAccess → Option Word
  | .write offset bytes w => if offset = 0x200 ∧ bytes = 8 then some w else none
  | .read _ _ | .reset => none

/-- The command words of the current run among pending accesses: those pushed before the next reset, which starts
a run of its own (R430, log 15). -/
def runWords (accesses : List HostAccess) : List Word :=
  (accesses.takeWhile (· != .reset)).filterMap HostAccess.commandWord?

/-- The run has ended: every command word of it has been consumed, which includes a word a halted core discards,
BUSY = 0 and WAIT2 = 0 (R430). Other accesses may still be pending. -/
abbrev State.ended (s : State) : Prop := runWords s.host = [] ∧ s.busy = false ∧ s.wait2 = none

/-- The two outcomes of a run that has ended (R430). -/
inductive RunOutcome where
  /-- STATUS.FAULT = 0 at the end. -/
  | success
  /-- STATUS.FAULT = 1 at the end, with FCAUSE and FPC. -/
  | fault (cause : FCause) (fpc : BitVec 32)
  deriving DecidableEq, Repr

/-- The outcome of the run, if it has ended (R430); a run whose last word is the first word of an LDU64 has none. -/
def State.outcome (s : State) : Option RunOutcome :=
  if s.ended then some (if s.fault then .fault s.fcause s.fpc else .success) else none

/-- The run ended with success (R430, R392). -/
abbrev State.succeeded (s : State) : Prop := s.outcome = some .success

/-- Command `i` reads only registers all of whose limbs have been written since reset (R42, R425). Where it
does not, the spec calls the read `UNINIT_READ`; the model goes on with the value of log 1. -/
abbrev readsWritten (i : Instr) (s : State) : Prop := ∀ r ∈ i.sources, s.regWritten r = true

/-- The next step runs no command that reads an unwritten register. -/
def State.safeNext (s : State) : Prop := ∀ i s', fetch s = .run i s' → readsWritten i s'

/-- Two states that differ at most in the values of limbs not written since reset. -/
def SameButUnwritten (s t : State) : Prop :=
  t = { s with regs := t.regs } ∧
  ∀ (r : Reg) (j : Nat), j < 4 → s.limbWritten r j = true → limb (s.getReg r) j = limb (t.getReg r) j

/-- The same outcome, but for the values of unwritten limbs. -/
def SameOutcome : Result → Result → Prop
  | .next s, .next t => SameButUnwritten s t
  | .fault f, .fault g => f = g
  | .refused p, .refused q => p = q
  | .next _, .fault _ | .next _, .refused _ | .fault _, .next _ | .fault _, .refused _
  | .refused _, .next _ | .refused _, .fault _ => False

/-! ## What a command writes and leaves -/

/-- The registers `ws` hold the given values, fully written, and every other register keeps its value and its
marks. -/
def WritesRegs (s t : State) (ws : List (Reg × U256)) : Prop :=
  (∀ w ∈ ws, t.getReg w.1 = w.2 ∧ t.regWritten w.1 = true) ∧
  ∀ r : Reg, r ∉ ws.map Prod.fst → t.getReg r = s.getReg r ∧ t.written[r] = s.written[r]

/-- Every byte of TBUF, and TLEN, are as before. -/
def SameText (s t : State) : Prop :=
  t.tlen = s.tlen ∧ ∀ a, t.tbuf.read? a = s.tbuf.read? a

/-- The fault registers, the parameters and the host side are as before. -/
def SameControl (s t : State) : Prop :=
  t.fault = s.fault ∧ t.fcause = s.fcause ∧ t.fpc = s.fpc ∧ t.cfg = s.cfg ∧ t.host = s.host ∧
  t.hostData = s.hostData ∧ t.epoch = s.epoch

/-- Command `i` of one word completes in `s`: it writes `ws` to registers and leaves OVF at `ovf`; PERR, the
text, the fault registers and WAIT2 are as before; PC advances by 1 (R47) and BUSY is 0 (R51). -/
def CompletesWith (i : Instr) (s : State) (ws : List (Reg × U256)) (ovf : Bool) : Prop :=
  ∃ t, exec i s = .next t ∧ WritesRegs s t ws ∧ t.ovf = ovf ∧ t.perr = s.perr ∧ SameText s t ∧
    SameControl s t ∧ t.wait2 = s.wait2 ∧ t.pc = s.pc + 1 ∧ t.busy = false

/-- Command `i` completes in `s` writing `v` to U[rd] and no flag. -/
def Completes (i : Instr) (s : State) (rd : Reg) (v : U256) : Prop := CompletesWith i s [(rd, v)] s.ovf

/-- Command `i` raises fault `c` in `s`: the writes of fault entry and nothing else (R384). -/
def FaultsWith (i : Instr) (s : State) (c : FCause) : Prop :=
  exec i s = .next { s with fault := true, fcause := c, fpc := s.pc, busy := false }

/-- The text of `s` is `str`: TLEN is its length, it lies in TBUF, and every byte of it is written (R84). -/
def HasText (s : State) (str : List Byte) : Prop :=
  s.tlen.toNat = str.length ∧ str.length ≤ s.cfg.tbufBytes ∧
  ∀ k (h : k < str.length), s.tbuf.read? k = some str[k]

/-- The first word with the fields of R121, written as a number. -/
def fieldsWord (op rd rs1 rs2 rd2 imm32 : Nat) : Word :=
  BitVec.ofNat 64
    (op + 2 ^ 8 * rd + 2 ^ 12 * rs1 + 2 ^ 16 * rs2 + 2 ^ 20 * rd2 + 2 ^ 32 * imm32)

/-- The word with these fields decodes to the one-word command `i`, in a block with the signed extension. -/
def DecodesTo (op rd rs1 rs2 rd2 imm32 : Nat) (i : Instr) : Prop :=
  decode true [fieldsWord op rd rs1 rs2 rd2 imm32] = .ok (i, [])

/-- The core is ready for a first word (R422): not busy, not halted, no second word awaited. -/
abbrev State.ready (s : State) : Prop := s.busy = false ∧ s.fault = false ∧ s.wait2 = none

/-- A parse command fails in `s` with code `c`: PERR is written, and no destination (R286, R302, R397). -/
def ParseFails (i : Instr) (s : State) (c : PErr) : Prop :=
  exec i s = .next { s with perr := c, pc := s.pc + 1, busy := false }

/-- A parse command succeeds in `s`: U[rd] holds `v`, PERR is OK, and nothing else is written but PC and BUSY
(R286, R302, R397). -/
def ParseGives (i : Instr) (s : State) (rd : Reg) (v : U256) : Prop :=
  ∃ t, exec i s = .next t ∧ WritesRegs s t [(rd, v)] ∧ t.perr = .ok ∧ t.ovf = s.ovf ∧ SameText s t ∧
    SameControl s t ∧ t.wait2 = s.wait2 ∧ t.pc = s.pc + 1 ∧ t.busy = false

/-- The canonical decimal numeral of R289: "0", or the digits with no leading zero, most significant first, as the
bytes 0x30..0x39 (R280). -/
def canonicalDecimal (n : Nat) : List Byte :=
  if n = 0 then [0x30] else (Nat.digits 10 n).reverse.map fun d => BitVec.ofNat 8 (0x30 + d)

/-- R56 in numbers: byte `b` is a hex digit of value `n`. Bytes 0x30..0x39 are 0..9, bytes 0x61..0x66 and bytes
0x41..0x46 are 10..15, and no other byte is a digit. -/
def IsNibble (b : Byte) (n : Nat) : Prop :=
  (n ≤ 9 ∧ b.toNat = 0x30 + n) ∨
  (10 ≤ n ∧ n ≤ 15 ∧ (b.toNat = 0x61 + (n - 10) ∨ b.toNat = 0x41 + (n - 10)))

/-- The opcodes R128 calls illegal. -/
def IllegalOpcode (hasSigned : Bool) (op : Nat) : Prop :=
  op = 0x00 ∨ (0x04 ≤ op ∧ op ≤ 0x07) ∨ (0x0B ≤ op ∧ op ≤ 0x0F) ∨ op = 0x12 ∨ op = 0x13 ∨ op = 0x17 ∨
  (0x1B ≤ op ∧ op ≤ 0x1F) ∨ (0x23 ≤ op ∧ op ≤ 0x27) ∨ (0x2B ≤ op ∧ op ≤ 0x2F) ∨
  (0x34 ≤ op ∧ op ≤ 0x3F) ∨ (0x43 ≤ op ∧ op ≤ 0x47) ∨ op = 0x4E ∨ op = 0x4F ∨
  (0x53 ≤ op ∧ op ≤ 0xFF) ∨
  (hasSigned = false ∧
    ((0x40 ≤ op ∧ op ≤ 0x42) ∨ (0x48 ≤ op ∧ op ≤ 0x4D) ∨ (0x50 ≤ op ∧ op ≤ 0x52)))

/-- The step halts with ILLEGAL_COMMAND on the word just accepted, `rest` being the accesses after it (R384). -/
def HaltsIllegal (s : State) (rest : List HostAccess) : Prop :=
  step s = .next { s with host := rest, fault := true, fcause := .illegalCommand, fpc := s.pc,
                          busy := false }

/-- The condition of R381 under which a legal command raises fault `c`. -/
def FaultCondition (s : State) (c : FCause) : Instr → Prop
  | .add _ rs1 rs2 => c = .overflow ∧ 2 ^ 256 ≤ (s.getReg rs1).toNat + (s.getReg rs2).toNat
  | .mul _ rs1 rs2 => c = .overflow ∧ 2 ^ 256 ≤ (s.getReg rs1).toNat * (s.getReg rs2).toNat
  | .sub _ rs1 rs2 => c = .underflow ∧ (s.getReg rs1).toNat < (s.getReg rs2).toNat
  | .addd _ rs1 rs2 =>
    (c = .overflow ∧ 0 ≤ (s.getReg rs2).toInt ∧
      2 ^ 256 ≤ ((s.getReg rs1).toNat : Int) + (s.getReg rs2).toInt) ∨
    (c = .underflow ∧ (s.getReg rs2).toInt < 0 ∧ (s.getReg rs1).toNat < (s.getReg rs2).toInt.natAbs)
  | .sdiv _ _ rs2 | .srem _ _ rs2 | .squo _ _ rs2 | .smod _ _ rs2 | .sdive _ _ rs2 | .smode _ _ rs2 =>
    c = .divideByZero ∧ (s.getReg rs2).toNat = 0
  | .tou64 _ rs1 => c = .narrowRange ∧ 2 ^ 64 ≤ (s.getReg rs1).toNat
  | .toi64 _ rs1 =>
    c = .narrowRange ∧ ((s.getReg rs1).toInt < -(2 ^ 63) ∨ 2 ^ 63 ≤ (s.getReg rs1).toInt)
  | .zero _ | .one _ | .ldu64 _ _ | .eq _ _ _ | .lt _ _ _ | .cmp _ _ _ | .addo _ _ _ | .subo _ _ _
  | .subu _ _ _ | .mulo _ _ _ | .mulw _ _ _ _ | .divu _ _ _ | .remu _ _ _ | .divremu _ _ _ _
  | .lsh _ _ _ | .rsh _ _ _ | .srsh _ _ _ | .parsed _ | .fmtd _ | .parseh _ | .sign _ _ | .abs _ _
  | .neg _ _ | .adddo _ _ _ => False

/-- The command is one of the four overflow-reporting forms (R45). -/
def reportsOvf : Instr → Bool
  | .addo _ _ _ | .subo _ _ _ | .mulo _ _ _ | .adddo _ _ _ => true
  | .zero _ | .one _ | .ldu64 _ _ | .eq _ _ _ | .lt _ _ _ | .cmp _ _ _ | .add _ _ _ | .sub _ _ _
  | .subu _ _ _ | .mul _ _ _ | .mulw _ _ _ _ | .divu _ _ _ | .remu _ _ _ | .divremu _ _ _ _
  | .lsh _ _ _ | .rsh _ _ _ | .srsh _ _ _ | .parsed _ | .fmtd _ | .parseh _ | .tou64 _ _
  | .sign _ _ | .abs _ _ | .neg _ _ | .sdiv _ _ _ | .srem _ _ _ | .squo _ _ _ | .smod _ _ _
  | .sdive _ _ _ | .smode _ _ _ | .addd _ _ _ | .toi64 _ _ => false

/-- The command is a parse command (R397). -/
def isParse : Instr → Bool
  | .parsed _ | .parseh _ => true
  | .zero _ | .one _ | .ldu64 _ _ | .eq _ _ _ | .lt _ _ _ | .cmp _ _ _ | .add _ _ _ | .addo _ _ _
  | .sub _ _ _ | .subo _ _ _ | .subu _ _ _ | .mul _ _ _ | .mulo _ _ _ | .mulw _ _ _ _ | .divu _ _ _
  | .remu _ _ _ | .divremu _ _ _ _ | .lsh _ _ _ | .rsh _ _ _ | .srsh _ _ _ | .fmtd _ | .tou64 _ _
  | .sign _ _ | .abs _ _ | .neg _ _ | .sdiv _ _ _ | .srem _ _ _ | .squo _ _ _ | .smod _ _ _
  | .sdive _ _ _ | .smode _ _ _ | .addd _ _ _ | .adddo _ _ _ | .toi64 _ _ => false

/-- The command is FMTD, the one command that writes TBUF and TLEN (R49, R50). -/
def isFormat : Instr → Bool
  | .fmtd _ => true
  | .zero _ | .one _ | .ldu64 _ _ | .eq _ _ _ | .lt _ _ _ | .cmp _ _ _ | .add _ _ _ | .addo _ _ _
  | .sub _ _ _ | .subo _ _ _ | .subu _ _ _ | .mul _ _ _ | .mulo _ _ _ | .mulw _ _ _ _ | .divu _ _ _
  | .remu _ _ _ | .divremu _ _ _ _ | .lsh _ _ _ | .rsh _ _ _ | .srsh _ _ _ | .parsed _ | .parseh _
  | .tou64 _ _ | .sign _ _ | .abs _ _ | .neg _ _ | .sdiv _ _ _ | .srem _ _ _ | .squo _ _ _
  | .smod _ _ _ | .sdive _ _ _ | .smode _ _ _ | .addd _ _ _ | .adddo _ _ _ | .toi64 _ _ => false

end Sys2Proof.Machine
end

