-- ==== Sys2Proof/Certificates/Slice0/Obligations.lean ====
section
/-! DEFINITION. The statements about the U256 CORE, from the numbered rules of spec/. Each holds for every
state and so for every parameter value of R8 (`State.cfg`, log 6). -/

open Sys2Proof Sys2Proof.Machine

/-! ## Encoding (30_encoding.md) -/

/-- R121, R122, R126: encoding a legal command and decoding its words gives it back, whatever follows. -/
def Obligations.DecodeOfEncodeIsTheCommand : Prop :=
  ∀ (hasSigned : Bool) (i : Instr) (rest : List Word), i.wellFormed hasSigned = true →
    decode hasSigned (encode i ++ rest) = .ok (i, rest)

/-- R127, R129: words that decode are exactly the encoding of the legal command they decode to, so no bit is
ignored and no command has two encodings. -/
def Obligations.EncodeOfDecodeIsTheWords : Prop :=
  ∀ (hasSigned : Bool) (ws rest : List Word) (i : Instr), decode hasSigned ws = .ok (i, rest) →
    i.wellFormed hasSigned = true ∧ ws = encode i ++ rest

/-- The "Precisely" of R127: a first word is legal iff its opcode is assigned (and, if S, HAS_SIGNED), its
masked bits are the opcode alone, and rd differs from rd2 in format DDSS. -/
def Obligations.FirstWordLegalIffMaskMatches : Prop :=
  ∀ (hasSigned : Bool) (w : Word),
    (∃ r, decodeFirst hasSigned w = .ok r) ↔
      ∃ r ∈ opcodeTable, (r.signed = true → hasSigned = true) ∧ w &&& r.fmt.mask = r.op.setWidth 64 ∧
        (r.fmt = .DDSS → rdField w ≠ rd2Field w)

/-- R136: the worked encodings. -/
def Obligations.WorkedEncodingsDecode : Prop :=
  decode true [0x0000000000021310] = .ok (.add 3 1 2, []) ∧
  decode true [0x000000ff0000452a] = .ok (.srsh 5 4 255, []) ∧
  decode true [0x000000000052241a] = .ok (.mulw 4 5 2 2, []) ∧
  decode true [0x0000000100021310] = .error (.reservedBits 0x10)

/-- R128, R129: a word with an illegal opcode, or with an assigned opcode and a set must-be-zero bit of its
format, raises ILLEGAL_COMMAND. -/
def Obligations.IllegalFirstWordHalts : Prop :=
  ∀ (s : State) (w : Word) (rest : List HostAccess), s.ready → s.host = pushWord w :: rest →
    (IllegalOpcode s.cfg.hasSigned (opField w).toNat → HaltsIllegal s rest) ∧
    ∀ r : OpRow, r ∈ opcodeTable → r.op = opField w → w &&& r.fmt.mask &&& ~~~0xFF#64 ≠ 0 →
      HaltsIllegal s rest

/-- R130: MULW and DIVREMU with rd = rd2 raise ILLEGAL_COMMAND; a destination equal to a source is legal. -/
def Obligations.SameDestinationHalts : Prop :=
  (∀ (s : State) (rd rs1 rs2 : Reg) (rest : List HostAccess) (op : Nat), s.ready →
    op = 0x1A ∨ op = 0x22 → s.host = pushWord (fieldsWord op rd rs1 rs2 rd 0) :: rest →
    HaltsIllegal s rest) ∧
  (∀ (s : State) (rd rs1 rs2 : Reg), FaultsWith (.mulw rd rd rs1 rs2) s .illegalCommand ∧
    FaultsWith (.divremu rd rd rs1 rs2) s .illegalCommand) ∧
  ∀ rd rd2 rs1 rs2 : Reg, rd ≠ rd2 →
    DecodesTo 0x1A rd rs1 rs2 rd2 0 (.mulw rd rd2 rs1 rs2) ∧
    DecodesTo 0x22 rd rs1 rs2 rd2 0 (.divremu rd rd2 rs1 rs2)

/-! ## Steps -/

/-- R86, R127, R131: a step takes the word at the head of the command stream and runs the command it decodes
to, with BUSY at 1; the first word of an LDU64 waits, and the next word completes it. The pending accesses held in
State and the size of a step are the model's choice (log 4, log 5). -/
def Obligations.StepRunsDecodedCommand : Prop :=
  ∀ (s : State) (w : Word) (rest : List HostAccess), s.ready → s.host = pushWord w :: rest →
    (∀ i ws, decode s.cfg.hasSigned [w] = .ok (i, ws) →
      step s = exec i { s with host := rest, busy := true }) ∧
    ∀ rd w1 rest', decode s.cfg.hasSigned [w, w1] = .ok (.ldu64 rd w1, []) →
      rest = pushWord w1 :: rest' →
      step s = .next { s with host := rest, wait2 := some rd } ∧
      step { s with host := rest, wait2 := some rd } =
        exec (.ldu64 rd w1) { s with host := rest', wait2 := some rd, busy := true }

/-- R125, R131, R162: after the first word the core waits and U is unchanged; the next word pushed, whatever its
bits, is the immediate; with no further access the state is held. -/
def Obligations.Ldu64TakesTheNextWord : Prop :=
  (∀ (s : State) (rd : Reg) (rest : List HostAccess), s.ready →
    s.host = pushWord (fieldsWord 0x03 rd 0 0 0 0) :: rest →
    step s = .next { s with host := rest, wait2 := some rd }) ∧
  (∀ (s : State) (rd : Reg) (w1 : Word) (rest : List HostAccess), s.busy = false → s.fault = false →
    s.wait2 = some rd → s.host = pushWord w1 :: rest →
    ∃ t v, step s = .next t ∧ v.toNat = w1.toNat ∧ WritesRegs s t [(rd, v)] ∧ t.wait2 = none ∧
      t.pc = s.pc + 2 ∧ t.host = rest ∧ t.busy = false ∧ t.fault = false ∧ t.ovf = s.ovf ∧
      t.perr = s.perr ∧ SameText s t) ∧
  (∀ (s : State) (rd : Reg) (imm64 : Word), ∃ t v, exec (.ldu64 rd imm64) s = .next t ∧
    v.toNat = imm64.toNat ∧ WritesRegs s t [(rd, v)] ∧ t.wait2 = none ∧ t.pc = s.pc + 2 ∧
    t.busy = false ∧ t.ovf = s.ovf ∧ t.perr = s.perr ∧ SameText s t ∧ SameControl s t) ∧
  (∀ (s : State) (rd : Reg), s.wait2 = some rd → s.host = [] → step s = .next s) ∧
  ∀ i : Instr, i.length = 2 ↔ ∃ rd w1, i = .ldu64 rd w1

/-- R46: FAULT, FCAUSE and FPC are sticky until reset, and a halted core executes no command. -/
def Obligations.FaultIsStickyUntilReset : Prop :=
  (∀ s t : State, s.fault = true → step s = .next t →
    (t.fault = true ∧ t.fcause = s.fcause ∧ t.fpc = s.fpc) ∨
    ∃ rest, s.host = .reset :: rest ∧ t.fault = false ∧ t.fcause = .none ∧ t.fpc = 0) ∧
  ∀ (s : State) (w : Word) (rest : List HostAccess), s.busy = false → s.fault = true →
    s.host = pushWord w :: rest → step s = .next { s with host := rest }

/-- R385: FPC changes only by fault entry, to the PC of the faulting command, or by reset. -/
def Obligations.FpcWrittenOnlyByFaultEntry : Prop :=
  ∀ s t : State, step s = .next t → t.fpc ≠ s.fpc →
    (∃ rest, s.host = .reset :: rest) ∨
    (s.fault = false ∧ t.fault = true ∧ t.fpc = s.pc ∧ t.pc = s.pc)

/-- R58, R90, R92: a step takes exactly the next host access, in order, leaves the later ones pending, and
changes no parameter; with none pending, or while BUSY = 1 and the next is no reset, it holds the state. The pending
accesses held in State and the size of a step are the model's choice (log 4, log 5). -/
def Obligations.StepTakesOneAccess : Prop :=
  (∀ (s t : State) (a : HostAccess) (rest : List HostAccess), s.busy = false → s.host = a :: rest →
    step s = .next t → t.host = rest) ∧
  (∀ s t : State, step s = .next t → t.cfg = s.cfg) ∧
  (∀ s : State, s.host = [] → step s = .next s) ∧
  ∀ (s : State) (a : HostAccess) (rest : List HostAccess), s.busy = true → s.host = a :: rest →
    a ≠ .reset → step s = .next s

/-- R430, of a run of pushes, in any order with other accesses, from a ready core: `l` are the accesses taken, `rest`
those still pending. The run has no outcome exactly while a word of it is pending or a second word is awaited. On
success the core was halted at no word, and PC has advanced by the number of words modulo 2^32. On a fault PC
stands at FPC, the words before it were taken with no fault, the next word raised it, and every later word was
discarded: the other accesses alone lead to the same state. That the accesses stand in State.host and that a
discarded word counts as consumed is the model's choice (log 4, log 15). -/
def Obligations.RunConsumesEveryWord : Prop :=
  ∀ (l rest : List HostAccess) (s t : State), s.ready → s.host = l ++ rest → .reset ∉ l →
    Sys2Proof.core.run l.length s = .next t →
    t.host = rest ∧ (t.outcome = none ↔ runWords rest ≠ [] ∨ t.wait2.isSome = true) ∧
    (t.succeeded → t.pc = s.pc + BitVec.ofNat 32 (runWords l).length ∧
      ∀ l₁ l₂, l = l₁ ++ l₂ → ∃ u : State, Sys2Proof.core.run l₁.length s = .next u ∧ u.fault = false) ∧
    ∀ c p, t.outcome = some (.fault c p) → c ≠ .none ∧ t.pc = p ∧
      ∃ l₁ w l₂, ∃ u v : State, l = l₁ ++ pushWord w :: l₂ ∧ Sys2Proof.core.run l₁.length s = .next u ∧ u.ready ∧
        u.pc = p ∧ p = s.pc + BitVec.ofNat 32 (runWords l₁).length ∧
        step u = .next v ∧ v = { u with host := l₂ ++ rest, fault := true, fcause := c, fpc := p } ∧
        Sys2Proof.core.run (l₂.filter (fun a => a.commandWord?.isNone)).length
          { v with host := l₂.filter (fun a => a.commandWord?.isNone) ++ rest } = .next t

/-! ## Rules over all commands -/

/-- R384, R15: a command that faults writes FAULT, FCAUSE, FPC and BUSY and nothing else. -/
def Obligations.FaultWritesOnlyFaultEntry : Prop :=
  ∀ (i : Instr) (s t : State), s.fault = false → exec i s = .next t → t.fault = true →
    t.fcause ≠ .none ∧ FaultsWith i s t.fcause

/-- R381: a legal command raises exactly the faults of the table, under exactly its conditions; a first word whose
opcode is not assigned (or is S without HAS_SIGNED), that has a must-be-zero bit set, or whose rd is rd2 in
format DDSS raises ILLEGAL_COMMAND. -/
def Obligations.FaultsAreThoseOfTheTable : Prop :=
  (∀ (i : Instr) (s : State) (c : FCause), s.fault = false → i.wellFormed s.cfg.hasSigned = true →
    ((∃ t, exec i s = .next t ∧ t.fault = true ∧ t.fcause = c) ↔ FaultCondition s c i)) ∧
  (∀ (i : Instr) (s : State), i.wellFormed s.cfg.hasSigned = false → FaultsWith i s .illegalCommand) ∧
  ∀ (s : State) (w : Word) (rest : List HostAccess), s.ready → s.host = pushWord w :: rest →
    (¬∃ r ∈ opcodeTable, (r.signed = true → s.cfg.hasSigned = true) ∧ r.op = opField w ∧
        w &&& r.fmt.mask &&& ~~~0xFF#64 = 0 ∧ (r.fmt = .DDSS → rdField w ≠ rd2Field w)) →
    HaltsIllegal s rest

/-- R45: OVF is written, to a value that does not depend on the old one, by ADDO, SUBO, MULO and ADDDO each time
they complete, and by no other command and no failing command; no command reads it. -/
def Obligations.OvfWrittenOnlyByReportingForms : Prop :=
  ∀ (i : Instr) (s t : State), exec i s = .next t →
    (reportsOvf i = false → t.ovf = s.ovf) ∧
    (s.fault = false → t.fault = true → t.ovf = s.ovf) ∧
    ∀ b : Bool, ∃ u, exec i { s with ovf := b } = .next u ∧ { u with ovf := t.ovf } = t ∧
      (reportsOvf i = true → s.fault = false → t.fault = false → u.ovf = t.ovf)

/-- R397: PERR is written by every parse command, to a value that does not depend on the old one, with OK on
success, and by no other command; a parse error writes no register, sets no FAULT, and PC moves on. -/
def Obligations.PerrWrittenOnlyByParse : Prop :=
  (∀ (i : Instr) (s t : State), exec i s = .next t → isParse i = false → t.perr = s.perr) ∧
  ∀ (i : Instr) (s t : State), isParse i = true → exec i s = .next t →
    (∀ e : PErr, exec i { s with perr := e } = .next t) ∧ t.fault = s.fault ∧ t.pc = s.pc + 1 ∧
    (t.perr ≠ .ok → ∀ r, t.getReg r = s.getReg r ∧ t.written[r] = s.written[r]) ∧
    (t.perr = .ok → ∀ r ∈ i.dests, t.regWritten r = true)

/-- R47: a command that completes advances PC by its length in words, and one that faults leaves PC at its
first word. -/
def Obligations.PcAdvancesByLengthOrStays : Prop :=
  ∀ (i : Instr) (s t : State), s.fault = false → exec i s = .next t →
    (t.fault = false ∧ t.pc = s.pc + BitVec.ofNat 32 i.length) ∨ (t.fault = true ∧ t.pc = s.pc)

/-- R40, R49, R50, R122: a command changes no register but the destinations of its format, no text unless it is
FMTD, and never the host side, the parameters or the count of resets. -/
def Obligations.OnlyDestinationsChange : Prop :=
  ∀ (i : Instr) (s t : State), exec i s = .next t →
    (∀ r : Reg, r ∉ i.dests → t.getReg r = s.getReg r ∧ t.written[r] = s.written[r]) ∧
    (isFormat i = false → t.tbuf = s.tbuf ∧ t.tlen = s.tlen) ∧
    t.cfg = s.cfg ∧ t.host = s.host ∧ t.hostData = s.hostData ∧ t.epoch = s.epoch ∧ t.busy = false

/-- R381, R291: no command but a parse of unreadable text stops the model; that such a parse stops is the model's
choice of treatment for R50 and R84 (log 2, log 11). -/
def Obligations.OnlyUnreadableTextStops : Prop :=
  ∀ (i : Instr) (s : State), (∃ t, exec i s = .next t) ∨
    (isParse i = true ∧ ∃ f, s.text = .error f ∧ exec i s = .fault f)

/-! ## Limb array (40_limb_array.md) -/

/-- R160, R161. -/
def Obligations.ConstantsAreWritten : Prop :=
  ∀ (s : State) (rd : Reg),
    DecodesTo 0x01 rd 0 0 0 0 (.zero rd) ∧ DecodesTo 0x02 rd 0 0 0 0 (.one rd) ∧
    (∃ v : U256, v.toNat = 0 ∧ Completes (.zero rd) s rd v) ∧
    ∃ v : U256, v.toNat = 1 ∧ Completes (.one rd) s rd v

/-- R164 to R167: the unsigned comparisons, with their results as operand values. -/
def Obligations.ComparisonsWriteTheirResult : Prop :=
  ∀ (s : State) (rd rs1 rs2 : Reg),
    DecodesTo 0x08 rd rs1 rs2 0 0 (.eq rd rs1 rs2) ∧ DecodesTo 0x09 rd rs1 rs2 0 0 (.lt rd rs1 rs2) ∧
    DecodesTo 0x0A rd rs1 rs2 0 0 (.cmp rd rs1 rs2) ∧
    (∃ v : U256, v.toNat = (if (s.getReg rs1).toNat = (s.getReg rs2).toNat then 1 else 0) ∧
      Completes (.eq rd rs1 rs2) s rd v) ∧
    (∃ v : U256, v.toNat = (if (s.getReg rs1).toNat < (s.getReg rs2).toNat then 1 else 0) ∧
      Completes (.lt rd rs1 rs2) s rd v) ∧
    ∃ v : U256, v.toNat = (if (s.getReg rs1).toNat < (s.getReg rs2).toNat then 2 ^ 256 - 1
        else if (s.getReg rs1).toNat = (s.getReg rs2).toNat then 0 else 1) ∧
      Completes (.cmp rd rs1 rs2) s rd v

/-! ## Arithmetic (41_arithmetic.md) -/

/-- R182, R183: checked and overflow-reporting add. -/
def Obligations.AddResults : Prop :=
  ∀ (s : State) (rd rs1 rs2 : Reg),
    DecodesTo 0x10 rd rs1 rs2 0 0 (.add rd rs1 rs2) ∧ DecodesTo 0x11 rd rs1 rs2 0 0 (.addo rd rs1 rs2) ∧
    ((s.getReg rs1).toNat + (s.getReg rs2).toNat < 2 ^ 256 →
      ∃ v : U256, v.toNat = (s.getReg rs1).toNat + (s.getReg rs2).toNat ∧
        Completes (.add rd rs1 rs2) s rd v) ∧
    (2 ^ 256 ≤ (s.getReg rs1).toNat + (s.getReg rs2).toNat →
      FaultsWith (.add rd rs1 rs2) s .overflow) ∧
    ∃ v : U256, v.toNat = ((s.getReg rs1).toNat + (s.getReg rs2).toNat) % 2 ^ 256 ∧
      CompletesWith (.addo rd rs1 rs2) s [(rd, v)]
        (decide (2 ^ 256 ≤ (s.getReg rs1).toNat + (s.getReg rs2).toNat))

/-- R186, R188: checked and unsafe subtract. -/
def Obligations.SubtractResults : Prop :=
  ∀ (s : State) (rd rs1 rs2 : Reg),
    DecodesTo 0x14 rd rs1 rs2 0 0 (.sub rd rs1 rs2) ∧ DecodesTo 0x16 rd rs1 rs2 0 0 (.subu rd rs1 rs2) ∧
    ((s.getReg rs2).toNat ≤ (s.getReg rs1).toNat →
      ∃ v : U256, v.toNat = (s.getReg rs1).toNat - (s.getReg rs2).toNat ∧
        Completes (.sub rd rs1 rs2) s rd v) ∧
    ((s.getReg rs1).toNat < (s.getReg rs2).toNat → FaultsWith (.sub rd rs1 rs2) s .underflow) ∧
    ∃ v : U256, (v.toNat : Int) = ((s.getReg rs1).toNat - (s.getReg rs2).toNat : Int) % 2 ^ 256 ∧
      Completes (.subu rd rs1 rs2) s rd v

/-- Overflow-reporting subtract, with OVF the borrow: R187 says that this meaning "is [derived: from rule R185 and
10_state.md rule R45]". The subtraction laws of R189, which the spec derives too: subtraction undoes addition and
addition undoes subtraction, and SUB equals SUBU where it does not fault. -/
def Obligations.SuboResultsAndSubtractionLaws : Prop :=
  ∀ (s : State) (rd rs1 rs2 : Reg),
    DecodesTo 0x15 rd rs1 rs2 0 0 (.subo rd rs1 rs2) ∧
    (∃ v : U256, (v.toNat : Int) = ((s.getReg rs1).toNat - (s.getReg rs2).toNat : Int) % 2 ^ 256 ∧
      CompletesWith (.subo rd rs1 rs2) s [(rd, v)]
        (decide ((s.getReg rs1).toNat < (s.getReg rs2).toNat))) ∧
    (rd ≠ rs2 → ∃ t u, exec (.addo rd rs1 rs2) s = .next t ∧ exec (.subu rd rd rs2) t = .next u ∧
      u.getReg rd = s.getReg rs1) ∧
    (rd ≠ rs2 → ∃ t u, exec (.subu rd rs1 rs2) s = .next t ∧ exec (.addo rd rd rs2) t = .next u ∧
      u.getReg rd = s.getReg rs1) ∧
    ((s.getReg rs2).toNat ≤ (s.getReg rs1).toNat →
      exec (.sub rd rs1 rs2) s = exec (.subu rd rs1 rs2) s)

/-- R192, R193, R194: checked, overflow-reporting and widening multiply. -/
def Obligations.MultiplyResults : Prop :=
  ∀ (s : State) (rd rs1 rs2 : Reg),
    DecodesTo 0x18 rd rs1 rs2 0 0 (.mul rd rs1 rs2) ∧ DecodesTo 0x19 rd rs1 rs2 0 0 (.mulo rd rs1 rs2) ∧
    ((s.getReg rs1).toNat * (s.getReg rs2).toNat < 2 ^ 256 →
      ∃ v : U256, v.toNat = (s.getReg rs1).toNat * (s.getReg rs2).toNat ∧
        Completes (.mul rd rs1 rs2) s rd v) ∧
    (2 ^ 256 ≤ (s.getReg rs1).toNat * (s.getReg rs2).toNat →
      FaultsWith (.mul rd rs1 rs2) s .overflow) ∧
    (∃ v : U256, v.toNat = (s.getReg rs1).toNat * (s.getReg rs2).toNat % 2 ^ 256 ∧
      CompletesWith (.mulo rd rs1 rs2) s [(rd, v)]
        (decide (2 ^ 256 ≤ (s.getReg rs1).toNat * (s.getReg rs2).toNat))) ∧
    ∀ rd2 : Reg, (rd = rd2 → FaultsWith (.mulw rd rd2 rs1 rs2) s .illegalCommand) ∧
      (rd ≠ rd2 → DecodesTo 0x1A rd rs1 rs2 rd2 0 (.mulw rd rd2 rs1 rs2) ∧
        ∃ lo hi : U256, lo.toNat + 2 ^ 256 * hi.toNat = (s.getReg rs1).toNat * (s.getReg rs2).toNat ∧
          CompletesWith (.mulw rd rd2 rs1 rs2) s [(rd, lo), (rd2, hi)] s.ovf)

/-- R184, R195: adding 0 and multiplying by 1 complete and give the operand; the reporting forms are commutative,
OVF included, and associative modulo 2^256; the pair of MULW is commutative. The checked forms are commutative
too, fault decision included. -/
def Obligations.AdditionAndMultiplicationLaws : Prop :=
  ∀ (s : State) (rd rs1 rs2 : Reg),
    ((s.getReg rs2).toNat = 0 → Completes (.add rd rs1 rs2) s rd (s.getReg rs1)) ∧
    ((s.getReg rs2).toNat = 1 → Completes (.mul rd rs1 rs2) s rd (s.getReg rs1)) ∧
    exec (.add rd rs1 rs2) s = exec (.add rd rs2 rs1) s ∧
    exec (.mul rd rs1 rs2) s = exec (.mul rd rs2 rs1) s ∧
    exec (.addo rd rs1 rs2) s = exec (.addo rd rs2 rs1) s ∧
    exec (.mulo rd rs1 rs2) s = exec (.mulo rd rs2 rs1) s ∧
    (∀ rd2, exec (.mulw rd rd2 rs1 rs2) s = exec (.mulw rd rd2 rs2 rs1) s) ∧
    ∀ rs3 : Reg, rd ≠ rs1 → rd ≠ rs3 →
      (∃ t u t' u', exec (.addo rd rs1 rs2) s = .next t ∧ exec (.addo rd rd rs3) t = .next u ∧
        exec (.addo rd rs2 rs3) s = .next t' ∧ exec (.addo rd rs1 rd) t' = .next u' ∧
        u.getReg rd = u'.getReg rd) ∧
      ∃ t u t' u', exec (.mulo rd rs1 rs2) s = .next t ∧ exec (.mulo rd rd rs3) t = .next u ∧
        exec (.mulo rd rs2 rs3) s = .next t' ∧ exec (.mulo rd rs1 rd) t' = .next u' ∧
        u.getReg rd = u'.getReg rd

/-! ## Division (42_division.md) -/

/-- R220, R221, R226 to R228: the unsigned quotient and remainder. -/
def Obligations.UnsignedDivisionResults : Prop :=
  ∀ (s : State) (rd rs1 rs2 : Reg),
    DecodesTo 0x20 rd rs1 rs2 0 0 (.divu rd rs1 rs2) ∧ DecodesTo 0x21 rd rs1 rs2 0 0 (.remu rd rs1 rs2) ∧
    ∃ q r : U256,
      ((s.getReg rs2).toNat ≠ 0 → q.toNat = (s.getReg rs1).toNat / (s.getReg rs2).toNat ∧
        r.toNat = (s.getReg rs1).toNat % (s.getReg rs2).toNat) ∧
      ((s.getReg rs2).toNat = 0 → q.toNat = 0 ∧
        r.toNat = match s.cfg.remuDiv0 with
          | .zero => 0
          | .dividend => (s.getReg rs1).toNat) ∧
      Completes (.divu rd rs1 rs2) s rd q ∧ Completes (.remu rd rs1 rs2) s rd r ∧
      ∀ rd2 : Reg, (rd = rd2 → FaultsWith (.divremu rd rd2 rs1 rs2) s .illegalCommand) ∧
        (rd ≠ rd2 → DecodesTo 0x22 rd rs1 rs2 rd2 0 (.divremu rd rd2 rs1 rs2) ∧
          CompletesWith (.divremu rd rd2 rs1 rs2) s [(rd, q), (rd2, r)] s.ovf)

/-! ## Shifts (43_shift.md) -/

/-- R262, R263, R264. -/
def Obligations.ShiftResults : Prop :=
  ∀ (s : State) (rd rs1 : Reg) (n : BitVec 32),
    DecodesTo 0x28 rd rs1 0 0 n.toNat (.lsh rd rs1 n) ∧
    DecodesTo 0x29 rd rs1 0 0 n.toNat (.rsh rd rs1 n) ∧
    DecodesTo 0x2A rd rs1 0 0 n.toNat (.srsh rd rs1 n) ∧
    (∃ v : U256, v.toNat = (if 256 ≤ n.toNat then 0 else (s.getReg rs1).toNat * 2 ^ n.toNat % 2 ^ 256) ∧
      Completes (.lsh rd rs1 n) s rd v) ∧
    (∃ v : U256, v.toNat = (if 256 ≤ n.toNat then 0 else (s.getReg rs1).toNat / 2 ^ n.toNat) ∧
      Completes (.rsh rd rs1 n) s rd v) ∧
    ∃ v : U256, v.toInt = (if 256 ≤ n.toNat then (if (s.getReg rs1).toInt < 0 then -1 else 0)
        else (s.getReg rs1).toInt / 2 ^ n.toNat) ∧
      Completes (.srsh rd rs1 n) s rd v

/-- R265: the shift laws. -/
def Obligations.ShiftLawsHold : Prop :=
  ∀ (s : State) (rd rs1 : Reg) (n : BitVec 32),
    (n.toNat ≤ 255 → (s.getReg rs1).toNat < 2 ^ (256 - n.toNat) →
      ∃ t u, exec (.lsh rd rs1 n) s = .next t ∧ exec (.rsh rd rd n) t = .next u ∧
        u.getReg rd = s.getReg rs1) ∧
    ((s.getReg rs1).toNat < 2 ^ 255 → exec (.rsh rd rs1 n) s = exec (.srsh rd rs1 n) s) ∧
    ∀ rs2 : Reg, n.toNat < 256 → (s.getReg rs2).toNat = 2 ^ n.toNat →
      ∃ t u, exec (.lsh rd rs1 n) s = .next t ∧ exec (.mulo rd rs1 rs2) s = .next u ∧
        t.getReg rd = u.getReg rd

/-! ## Codecs (44_codec.md) -/

/-- R281 to R286: the results of PARSED in the order of R285. `digits` is the text after one optional '+' and
the leading zeros. The lexicographic comparison of two 78-byte strings is that of the base-256 numbers they
are, and the value is the decimal number the digits denote. -/
def Obligations.ParsedFollowsTheOrder : Prop :=
  ∀ (s : State) (rd : Reg) (str : List Byte), HasText s str →
    let unsigned := if str.head? = some 0x2B then str.tail else str
    let digits := unsigned.dropWhile (· == 0x30)
    let tooLarge := 78 < digits.length ∨ (digits.length = 78 ∧
      Nat.ofDigits 256 ((canonicalDecimal (2 ^ 256 - 1)).reverse.map (·.toNat)) < Nat.ofDigits 256 (digits.reverse.map (·.toNat)))
    let allDigits := ∀ b ∈ digits, 0x30 ≤ b.toNat ∧ b.toNat ≤ 0x39
    let value := Nat.ofDigits 10 (digits.reverse.map (fun b => b.toNat - 0x30))
    DecodesTo 0x30 rd 0 0 0 0 (.parsed rd) ∧
    (str = [] → ParseFails (.parsed rd) s .emptyString) ∧
    (str = [0x2B] → ParseFails (.parsed rd) s .syntaxError) ∧
    (str ≠ [] → str ≠ [0x2B] → digits = [] → ParseGives (.parsed rd) s rd 0) ∧
    (tooLarge → ParseFails (.parsed rd) s .range) ∧
    (digits ≠ [] → ¬tooLarge → ¬allDigits → ParseFails (.parsed rd) s .syntaxError) ∧
    (digits ≠ [] → ¬tooLarge → allDigits → value < 2 ^ 256 ∧
      ParseGives (.parsed rd) s rd (BitVec.ofNat 256 value))

/-- R56, R300 to R302: the results of PARSEH in the order of R300, and the value of the digit section, whose digits
have the values of R56 (`IsNibble`). -/
def Obligations.ParsehFollowsTheOrder : Prop :=
  ∀ (s : State) (rd : Reg) (str : List Byte), HasText s str →
    DecodesTo 0x32 rd 0 0 0 0 (.parseh rd) ∧
    (str = [] → ParseFails (.parseh rd) s .emptyString) ∧
    (∀ b, str = [b] → ParseFails (.parseh rd) s .missingPrefix) ∧
    ∀ (c0 c1 : Byte) (d : List Byte), str = c0 :: c1 :: d →
      let hasPrefix := c0 = 0x30 ∧ (c1 = 0x78 ∨ c1 = 0x58)
      let padded := 1 < d.length ∧ d.head? = some 0x30
      (¬hasPrefix → ParseFails (.parseh rd) s .missingPrefix) ∧
      (hasPrefix → d = [] → ParseFails (.parseh rd) s .emptyNumber) ∧
      (hasPrefix → padded → ParseFails (.parseh rd) s .leadingZero) ∧
      (hasPrefix → ¬padded → 64 < d.length → ParseFails (.parseh rd) s .range) ∧
      (hasPrefix → ¬padded → d.length ≤ 64 → (∃ b ∈ d, ∀ n, ¬IsNibble b n) →
        ParseFails (.parseh rd) s .syntaxError) ∧
      ∀ ns : List Nat, hasPrefix → d ≠ [] → ¬padded → d.length ≤ 64 → List.Forall₂ IsNibble d ns →
        Nat.ofDigits 16 ns.reverse < 2 ^ 256 ∧
        ParseGives (.parseh rd) s rd (BitVec.ofNat 256 (Nat.ofDigits 16 ns.reverse))

/-- R50, R421: a parse that reaches a byte not written since reset stops the model with UNINIT_READ (log 2). -/
def Obligations.ParseOfUnwrittenByteStops : Prop :=
  ∀ (s : State) (rd : Reg) (k : Nat), k < s.tlen.toNat → s.tlen.toNat ≤ s.cfg.tbufBytes →
    (∀ j, j < k → s.tbuf.read? j ≠ none) → s.tbuf.read? k = none →
    exec (.parsed rd) s = .fault (.uninitRead k) ∧ exec (.parseh rd) s = .fault (.uninitRead k)

/-- R288, R289, R292: FMTD writes the canonical decimal numeral to TB(0).. and its length, 1 to 78, to TLEN;
the bytes after it, the registers and the flags are unchanged. -/
def Obligations.FmtdWritesCanonicalDecimal : Prop :=
  ∀ (s : State) (rs1 : Reg),
    let out := canonicalDecimal (s.getReg rs1).toNat
    DecodesTo 0x31 0 rs1 0 0 0 (.fmtd rs1) ∧ 1 ≤ out.length ∧ out.length ≤ 78 ∧
    ∃ t, exec (.fmtd rs1) s = .next t ∧ t.tlen.toNat = out.length ∧
      (∀ k (h : k < out.length), t.tbuf.read? k = some out[k]) ∧
      (∀ k, out.length ≤ k → t.tbuf.read? k = s.tbuf.read? k) ∧
      WritesRegs s t [] ∧ t.ovf = s.ovf ∧ t.perr = s.perr ∧ SameControl s t ∧ t.wait2 = s.wait2 ∧
      t.pc = s.pc + 1 ∧ t.busy = false

/-- R290: PARSED of the text FMTD produced from x gives x with PERR = OK. -/
def Obligations.ParseOfFormatIsTheValue : Prop :=
  ∀ (s : State) (rs1 rd : Reg), ∃ t u, exec (.fmtd rs1) s = .next t ∧ exec (.parsed rd) t = .next u ∧
    u.getReg rd = s.getReg rs1 ∧ u.perr = .ok

/-- R303: two hex texts that PARSEH accepts, each with either prefix, give one value iff their digits are the same up
to letter case: digit for digit they have the same value by R56. -/
def Obligations.HexParseIsInjective : Prop :=
  ∀ (s t u v : State) (rd : Reg) (x y : Byte) (d e : List Byte),
    (x = 0x78 ∨ x = 0x58) → (y = 0x78 ∨ y = 0x58) →
    HasText s (0x30 :: x :: d) → HasText t (0x30 :: y :: e) →
    exec (.parseh rd) s = .next u → exec (.parseh rd) t = .next v → u.perr = .ok → v.perr = .ok →
    (u.getReg rd = v.getReg rd ↔ ∃ ns, List.Forall₂ IsNibble d ns ∧ List.Forall₂ IsNibble e ns)

/-- R310, R355: the checked narrowings. -/
def Obligations.NarrowingResults : Prop :=
  ∀ (s : State) (rd rs1 : Reg),
    DecodesTo 0x33 rd rs1 0 0 0 (.tou64 rd rs1) ∧ DecodesTo 0x52 rd rs1 0 0 0 (.toi64 rd rs1) ∧
    ((s.getReg rs1).toNat < 2 ^ 64 → Completes (.tou64 rd rs1) s rd (s.getReg rs1)) ∧
    (2 ^ 64 ≤ (s.getReg rs1).toNat → FaultsWith (.tou64 rd rs1) s .narrowRange) ∧
    (s.cfg.hasSigned = true →
      (-(2 ^ 63) ≤ (s.getReg rs1).toInt → (s.getReg rs1).toInt ≤ 2 ^ 63 - 1 →
        Completes (.toi64 rd rs1) s rd (s.getReg rs1)) ∧
      ((s.getReg rs1).toInt < -(2 ^ 63) ∨ 2 ^ 63 - 1 < (s.getReg rs1).toInt →
        FaultsWith (.toi64 rd rs1) s .narrowRange))

/-! ## Signed extension (45_signed.md) -/

/-- R332, R333, R334, read over the integers. -/
def Obligations.SignAbsNegResults : Prop :=
  ∀ (s : State) (rd rs1 : Reg), s.cfg.hasSigned = true →
    DecodesTo 0x40 rd rs1 0 0 0 (.sign rd rs1) ∧ DecodesTo 0x41 rd rs1 0 0 0 (.abs rd rs1) ∧
    DecodesTo 0x42 rd rs1 0 0 0 (.neg rd rs1) ∧
    (∃ v : U256, v.toInt = (s.getReg rs1).toInt.sign ∧ Completes (.sign rd rs1) s rd v) ∧
    (∃ v : U256, v.toNat = (s.getReg rs1).toInt.natAbs ∧ Completes (.abs rd rs1) s rd v) ∧
    ∃ v : U256, v.toNat = (2 ^ 256 - (s.getReg rs1).toNat) % 2 ^ 256 ∧ Completes (.neg rd rs1) s rd v

/-- R335: every signed division with a zero divisor raises DIVIDE_BY_ZERO and writes nothing else. -/
def Obligations.SignedDivisionByZeroFaults : Prop :=
  ∀ (s : State) (rd rs1 rs2 : Reg), s.cfg.hasSigned = true → (s.getReg rs2).toNat = 0 →
    FaultsWith (.sdiv rd rs1 rs2) s .divideByZero ∧ FaultsWith (.srem rd rs1 rs2) s .divideByZero ∧
    FaultsWith (.squo rd rs1 rs2) s .divideByZero ∧ FaultsWith (.smod rd rs1 rs2) s .divideByZero ∧
    FaultsWith (.sdive rd rs1 rs2) s .divideByZero ∧ FaultsWith (.smode rd rs1 rs2) s .divideByZero

/-- R336, R340, R341: truncated division over the integers, with the one quotient that is not representable. -/
def Obligations.TruncatedDivisionResults : Prop :=
  ∀ (s : State) (rd rs1 rs2 : Reg), s.cfg.hasSigned = true →
    DecodesTo 0x48 rd rs1 rs2 0 0 (.sdiv rd rs1 rs2) ∧ DecodesTo 0x49 rd rs1 rs2 0 0 (.srem rd rs1 rs2) ∧
    ((s.getReg rs2).toInt = 0 → FaultsWith (.sdiv rd rs1 rs2) s .divideByZero ∧
      FaultsWith (.srem rd rs1 rs2) s .divideByZero) ∧
    ((s.getReg rs2).toInt ≠ 0 → ∃ q r : U256,
      Completes (.sdiv rd rs1 rs2) s rd q ∧ Completes (.srem rd rs1 rs2) s rd r ∧
      r.toInt = (s.getReg rs1).toInt.tmod (s.getReg rs2).toInt ∧
      (¬((s.getReg rs1).toInt = -(2 ^ 255) ∧ (s.getReg rs2).toInt = -1) →
        q.toInt = (s.getReg rs1).toInt.tdiv (s.getReg rs2).toInt) ∧
      ((s.getReg rs1).toInt = -(2 ^ 255) ∧ (s.getReg rs2).toInt = -1 → q.toInt = -(2 ^ 255)))

/-- R338, R344, R346, R347: Euclidean division over the integers (`/` and `%` on Int); the remainder is read
unsigned and is less than the magnitude of the divisor; SMOD equals SMODE. -/
def Obligations.EuclideanDivisionResults : Prop :=
  ∀ (s : State) (rd rs1 rs2 : Reg), s.cfg.hasSigned = true →
    DecodesTo 0x4B rd rs1 rs2 0 0 (.smod rd rs1 rs2) ∧ DecodesTo 0x4C rd rs1 rs2 0 0 (.sdive rd rs1 rs2) ∧
    DecodesTo 0x4D rd rs1 rs2 0 0 (.smode rd rs1 rs2) ∧
    ((s.getReg rs2).toInt = 0 → FaultsWith (.smod rd rs1 rs2) s .divideByZero ∧
      FaultsWith (.sdive rd rs1 rs2) s .divideByZero ∧ FaultsWith (.smode rd rs1 rs2) s .divideByZero) ∧
    ((s.getReg rs2).toInt ≠ 0 → ∃ q r : U256,
      Completes (.sdive rd rs1 rs2) s rd q ∧ Completes (.smode rd rs1 rs2) s rd r ∧
      Completes (.smod rd rs1 rs2) s rd r ∧
      (r.toNat : Int) = (s.getReg rs1).toInt % (s.getReg rs2).toInt ∧
      r.toNat < (s.getReg rs2).toInt.natAbs ∧
      (¬((s.getReg rs1).toInt = -(2 ^ 255) ∧ (s.getReg rs2).toInt = -1) →
        q.toInt = (s.getReg rs1).toInt / (s.getReg rs2).toInt) ∧
      ((s.getReg rs1).toInt = -(2 ^ 255) ∧ (s.getReg rs2).toInt = -1 → q.toInt = -(2 ^ 255)))

/-- R342, R348: the truncated and the Euclidean identity modulo 2^256, and exactly over the integers whenever the
quotient is representable, that is, but for MIN by -1. -/
def Obligations.SignedDivisionIdentities : Prop :=
  ∀ (s : State) (rd rs1 rs2 : Reg), s.cfg.hasSigned = true → (s.getReg rs2).toNat ≠ 0 →
    ∃ q r qe re : U256, Completes (.sdiv rd rs1 rs2) s rd q ∧ Completes (.srem rd rs1 rs2) s rd r ∧
      Completes (.sdive rd rs1 rs2) s rd qe ∧ Completes (.smode rd rs1 rs2) s rd re ∧
      (q.toNat * (s.getReg rs2).toNat + r.toNat) % 2 ^ 256 = (s.getReg rs1).toNat ∧
      (qe.toNat * (s.getReg rs2).toNat + re.toNat) % 2 ^ 256 = (s.getReg rs1).toNat ∧
      re.toNat < (s.getReg rs2).toInt.natAbs ∧
      (¬((s.getReg rs1).toInt = -(2 ^ 255) ∧ (s.getReg rs2).toInt = -1) →
        q.toInt * (s.getReg rs2).toInt + r.toInt = (s.getReg rs1).toInt ∧
        qe.toInt * (s.getReg rs2).toInt + re.toNat = (s.getReg rs1).toInt)

/-- R343: the floored quotient over the integers, and MIN for MIN by -1, a corner case of the rule. -/
def Obligations.FlooredQuotientResults : Prop :=
  ∀ (s : State) (rd rs1 rs2 : Reg), s.cfg.hasSigned = true →
    DecodesTo 0x4A rd rs1 rs2 0 0 (.squo rd rs1 rs2) ∧
    ((s.getReg rs2).toInt = 0 → FaultsWith (.squo rd rs1 rs2) s .divideByZero) ∧
    ((s.getReg rs2).toInt ≠ 0 → ∃ q : U256, Completes (.squo rd rs1 rs2) s rd q ∧
      (¬((s.getReg rs1).toInt = -(2 ^ 255) ∧ (s.getReg rs2).toInt = -1) →
        q.toInt = (s.getReg rs1).toInt.fdiv (s.getReg rs2).toInt) ∧
      ((s.getReg rs1).toInt = -(2 ^ 255) ∧ (s.getReg rs2).toInt = -1 → q.toInt = -(2 ^ 255)))

/-- Two rules that the spec derives from others. R345 ("[derived: from rule R337 and rule R338]"): the floored
identity with SMOD as remainder holds for a positive divisor, and fails for 7 and -3. R339 ("[derived: from rule
R336 and rule R331]"): MIN by -1 is MIN with remainder 0 in every family, with no fault and no flag. -/
def Obligations.FlooredCaveatAndMinByMinusOne : Prop :=
  (∀ (s : State) (rd rs1 rs2 : Reg), s.cfg.hasSigned = true → 0 < (s.getReg rs2).toInt →
    ∃ q r : U256, Completes (.squo rd rs1 rs2) s rd q ∧ Completes (.smod rd rs1 rs2) s rd r ∧
      q.toInt * (s.getReg rs2).toInt + r.toInt = (s.getReg rs1).toInt) ∧
  (∀ (s : State) (rd rs1 rs2 : Reg), s.cfg.hasSigned = true → (s.getReg rs1).toInt = 7 →
    (s.getReg rs2).toInt = -3 →
    ∃ q r : U256, q.toInt = -3 ∧ r.toInt = 1 ∧ Completes (.squo rd rs1 rs2) s rd q ∧
      Completes (.smod rd rs1 rs2) s rd r) ∧
  ∀ (s : State) (rd rs1 rs2 : Reg), s.cfg.hasSigned = true → (s.getReg rs1).toInt = -(2 ^ 255) →
    (s.getReg rs2).toInt = -1 →
    Completes (.sdiv rd rs1 rs2) s rd (s.getReg rs1) ∧ Completes (.squo rd rs1 rs2) s rd (s.getReg rs1) ∧
    Completes (.sdive rd rs1 rs2) s rd (s.getReg rs1) ∧ Completes (.srem rd rs1 rs2) s rd 0 ∧
    Completes (.smod rd rs1 rs2) s rd 0 ∧ Completes (.smode rd rs1 rs2) s rd 0

/-- R349, R352, R353: the signed delta in both forms, over the integers. -/
def Obligations.SignedDeltaResults : Prop :=
  ∀ (s : State) (rd rs1 rs2 : Reg), s.cfg.hasSigned = true →
    let sum : Int := (s.getReg rs1).toNat + (s.getReg rs2).toInt
    DecodesTo 0x50 rd rs1 rs2 0 0 (.addd rd rs1 rs2) ∧ DecodesTo 0x51 rd rs1 rs2 0 0 (.adddo rd rs1 rs2) ∧
    (0 ≤ sum → sum < 2 ^ 256 →
      ∃ v : U256, (v.toNat : Int) = sum ∧ Completes (.addd rd rs1 rs2) s rd v) ∧
    (2 ^ 256 ≤ sum → FaultsWith (.addd rd rs1 rs2) s .overflow) ∧
    (sum < 0 → FaultsWith (.addd rd rs1 rs2) s .underflow) ∧
    ∃ v : U256, (v.toNat : Int) = sum % 2 ^ 256 ∧
      CompletesWith (.adddo rd rs1 rs2) s [(rd, v)] (decide (sum < 0 ∨ 2 ^ 256 ≤ sum))

/-! ## Reference datapaths -/

/-- R181: the carry chain gives the wrapped sum and the carry out. -/
def Obligations.AdderChainAdds : Prop :=
  ∀ x y : U256, addChain (limbs x) (limbs y) 0 = (limbs (x + y), if 2 ^ 256 ≤ x.toNat + y.toNat then 1 else 0)

/-- R168, R185: the borrow chain gives the wrapped difference and the borrow out, and the comparator built on
it gives `<` and `=`. -/
def Obligations.SubtractorChainSubtracts : Prop :=
  ∀ x y : U256, subChain (limbs x) (limbs y) 0 = (limbs (x - y), if x.toNat < y.toNat then 1 else 0) ∧
    (ltDatapath x y = true ↔ x.toNat < y.toNat) ∧ (eqDatapath x y = true ↔ x = y)

/-- R190: the schoolbook multiplier's eight limbs are the exact 512-bit product. -/
def Obligations.SchoolbookProductIsExact : Prop :=
  ∀ x y : U256, (mulDatapath x y).length = 8 ∧ limbsValue (mulDatapath x y) = x.toNat * y.toNat ∧
    ∀ j, j < 4 → (mulDatapath x y)[j]? = some (limb (productLow x y) j) ∧
      (mulDatapath x y)[j + 4]? = some (limb (productHigh x y) j)

/-- R261: whole-limb moves and one residual shift give the results of R262, R263 and R264. -/
def Obligations.ShifterDatapathShifts : Prop :=
  ∀ (x : U256) (n : Nat), n < 256 →
    leftDatapath x n = limbs (shiftLeft x n) ∧ rightDatapath x 0 n = limbs (shiftRight x n) ∧
    rightDatapath x (signFill x) n = limbs (shiftRightSigned x n)

/-- R224: the reciprocal primitive is exact for a normalised divisor limb. -/
def Obligations.ReciprocalDivisionIsExact : Prop :=
  ∀ u1 u0 d : Word, 2 ^ 63 ≤ d.toNat → u1.toNat < d.toNat →
    (div2by1 u1 u0 d (recip d)).1.toNat = (u1.toNat * 2 ^ 64 + u0.toNat) / d.toNat ∧
    (div2by1 u1 u0 d (recip d)).2.toNat = (u1.toNat * 2 ^ 64 + u0.toNat) % d.toNat

/-- R222, R223, R225: the engine with its shortcuts and limb-normalised Algorithm D gives the quotient and
remainder of R220 and R221 for all operands. -/
def Obligations.AlgorithmDDivides : Prop :=
  ∀ (mode : RemuDiv0) (x y : U256), udivremDatapath mode x y = udivrem mode x y

/-- R55, R284, R301: the sum of the 19-digit windows times the powers of 10^19 is the decimal number of the
digits, and the limbs decoded in windows of 16 hex digits are the limbs of the hex value, the digits having the
values of R280 and R56. -/
def Obligations.CodecWindowsDenoteTheNumber : Prop :=
  (∀ k, 1 ≤ k → k ≤ 4 → (pow19 k).toNat = 10 ^ (19 * k)) ∧
  (∀ d : List Byte, d.length ≤ 78 → (∀ b ∈ d, 0x30 ≤ b.toNat ∧ b.toNat ≤ 0x39) →
    decDatapath d = Nat.ofDigits 10 (d.reverse.map (fun b => b.toNat - 0x30))) ∧
  ∀ (d : List Byte) (ns : List Nat), d.length ≤ 64 → List.Forall₂ IsNibble d ns →
    hexDatapath d = limbs (BitVec.ofNat 256 (Nat.ofDigits 16 ns.reverse))

/-! ## Host port and reset -/

/-- R82: a host write of a limb writes that limb and its mark and nothing else, and a host read of a written
limb returns it. That a later command may read a register with an unwritten limb is the model's choice (log 1). -/
def Obligations.HostLimbAccess : Prop :=
  ∀ (s : State) (i : Reg) (j : Nat) (rest : List HostAccess), s.busy = false → j < 4 →
    (∀ w : Word, s.host = .write (32 * i + 8 * j) 8 w :: rest →
      ∃ t, step s = .next t ∧ limb (t.getReg i) j = w ∧ t.limbWritten i j = true ∧
        (∀ k, k < 4 → k ≠ j → limb (t.getReg i) k = limb (s.getReg i) k ∧
          t.limbWritten i k = s.limbWritten i k) ∧
        (∀ r : Reg, r ≠ i → t.getReg r = s.getReg r ∧ t.written[r] = s.written[r]) ∧
        t = { s with host := rest, regs := t.regs, written := t.written }) ∧
    (s.host = .read (32 * i + 8 * j) 8 :: rest → s.limbWritten i j = true →
      step s = .next { s with host := rest, hostData := limb (s.getReg i) j })

/-- R85: a host write of TBUF word m writes its eight bytes, lowest index in the lowest lane, lanes beyond
TBUF_BYTES ignored; a host read returns the written bytes so, and 0 beyond TBUF_BYTES. -/
def Obligations.HostTextAccess : Prop :=
  ∀ (s : State) (m : Nat) (rest : List HostAccess), s.busy = false → 8 * m < s.cfg.tbufBytes →
    (∀ w : Word, s.host = .write (0x400 + 8 * m) 8 w :: rest →
      ∃ t, step s = .next t ∧
        (∀ b, b < 8 → 8 * m + b < s.cfg.tbufBytes → t.tbuf.read? (8 * m + b) = some (byteLane w b)) ∧
        (∀ k, k < 8 * m ∨ 8 * m + 8 ≤ k ∨ s.cfg.tbufBytes ≤ k → t.tbuf.read? k = s.tbuf.read? k) ∧
        t = { s with host := rest, tbuf := t.tbuf }) ∧
    (s.host = .read (0x400 + 8 * m) 8 :: rest →
      ∃ v : Word, step s = .next { s with host := rest, hostData := v } ∧
        ∀ b, b < 8 →
          (s.cfg.tbufBytes ≤ 8 * m + b → byteLane v b = 0) ∧
          ∀ c : Byte, 8 * m + b < s.cfg.tbufBytes → s.tbuf.read? (8 * m + b) = some c →
            byteLane v b = c)

/-- R44, R81, R386, R396: what a host read of CMD, STATUS, PC, FPC, TLEN and ID returns, and the fields of
STATUS, FCAUSE and PERR with the numbers of their codes. The data of a read stands in State.hostData, the model's choice (log 9). -/
def Obligations.HostRegisterReads : Prop :=
  (∀ s : State, s.statusWord.getLsbD 0 = s.ovf ∧ s.statusWord.getLsbD 1 = s.fault ∧
    s.statusWord.getLsbD 2 = s.busy ∧ s.statusWord.getLsbD 3 = s.wait2.isSome ∧
    (s.statusWord.extractLsb' 4 4).toNat = (match s.fcause with
      | .none => 0
      | .overflow => 1
      | .underflow => 2
      | .divideByZero => 3
      | .narrowRange => 4
      | .illegalCommand => 5) ∧
    (s.statusWord.extractLsb' 8 4).toNat = (match s.perr with
      | .ok => 0
      | .emptyString => 1
      | .syntaxError => 2
      | .missingPrefix => 3
      | .emptyNumber => 4
      | .leadingZero => 5
      | .range => 6
      | .invalidBase => 7
      | .invalidBitsize => 8) ∧
    s.statusWord.getLsbD 12 = s.cfg.hasSigned ∧ s.statusWord.extractLsb' 13 51 = 0) ∧
  ∀ (s : State) (rest : List HostAccess) (offset : Nat) (v : Word), s.busy = false →
    (offset = 0x200 ∧ v = 0) ∨ (offset = 0x208 ∧ v = s.statusWord) ∨ (offset = 0x210 ∧ v.toNat = s.pc.toNat) ∨
      (offset = 0x218 ∧ v.toNat = s.fpc.toNat) ∨ (offset = 0x220 ∧ v.toNat = s.tlen.toNat) ∨
      (offset = 0x228 ∧ v = 0x5532353600000007) →
    s.host = .read offset 8 :: rest → step s = .next { s with host := rest, hostData := v }

/-- R83: reserved offsets read as 0 and ignore writes, writes to read-only registers are ignored, and no host
read has a side effect. -/
def Obligations.ReservedOffsetsDoNothing : Prop :=
  ∀ (s t : State) (offset : Nat) (rest : List HostAccess), s.busy = false → offset % 8 = 0 →
    ((0x230 ≤ offset ∧ offset ≤ 0x3F8) ∨ 0x400 + 8 * ((s.cfg.tbufBytes + 7) / 8) ≤ offset →
      (s.host = .read offset 8 :: rest → step s = .next { s with host := rest, hostData := 0 }) ∧
      ∀ w, s.host = .write offset 8 w :: rest → step s = .next { s with host := rest }) ∧
    (offset = 0x208 ∨ offset = 0x210 ∨ offset = 0x218 ∨ offset = 0x228 →
      ∀ w, s.host = .write offset 8 w :: rest → step s = .next { s with host := rest }) ∧
    (s.host = .read offset 8 :: rest → step s = .next t →
      t = { s with host := rest, hostData := t.hostData })

/-- R88, R91: a narrow, wide or misaligned access and an illegal TLEN value have no move; a legal TLEN value is
written. -/
def Obligations.HostDutiesAreRefused : Prop :=
  ∀ (s : State) (offset bytes : Nat) (w : Word) (rest : List HostAccess), s.busy = false →
    (bytes ≠ 8 ∨ offset % 8 ≠ 0 →
      (s.host = .read offset bytes :: rest → step s = .refused (.hostAccessShape offset bytes)) ∧
      (s.host = .write offset bytes w :: rest → step s = .refused (.hostAccessShape offset bytes))) ∧
    (s.host = .write 0x220 8 w :: rest →
      (s.cfg.tbufBytes < w.toNat → step s = .refused (.hostTlenValue w)) ∧
      (w.toNat ≤ s.cfg.tbufBytes → step s = .next { s with host := rest, tlen := w.setWidth 16 }))

/-- R420, R59: what reset leaves, from any state; registers and text are marked unwritten, and later accesses
stay pending. No value is claimed for a register. -/
def Obligations.ResetSetsTheControlState : Prop :=
  (∀ (s : State) (rest : List HostAccess), s.host = .reset :: rest → ∃ t, step s = .next t ∧
    t.ovf = false ∧ t.fault = false ∧ t.busy = false ∧ t.wait2 = none ∧ t.fcause = .none ∧ t.perr = .ok ∧
    t.pc = 0 ∧ t.fpc = 0 ∧ t.tlen = 0 ∧ t.cfg = s.cfg ∧ t.host = rest ∧
    (∀ r j, t.limbWritten r j = false) ∧ ∀ k, t.tbuf.read? k = none) ∧
  State.reset.statusWord = 0x1000 ∧ State.reset.pc = 0 ∧ State.reset.fpc = 0 ∧ State.reset.tlen = 0

/-! ## Invariants and independence -/

/-- `State.Inv` holds at reset, for every parameter value. -/
def Obligations.ResetMeetsTheInvariant : Prop := ∀ c : Config, (State.resetOf c).Inv

/-- Every step keeps `State.Inv`: BUSY is 0 between steps, FAULT, FCAUSE, FPC, PC and WAIT2 agree, the
reserved parse codes do not occur, TBUF stays canonical and within TBUF_BYTES, TLEN stays legal. -/
def Obligations.StepKeepsTheInvariant : Prop :=
  ∀ s t : State, s.Inv → step s = .next t → t.Inv

/-- R42, R421: what unwritten limbs hold never matters. Two states that differ only there have the same next
outcome up to unwritten limbs, where the next command reads only written registers. So the register value
after reset that log 1 chooses is not observable by a program that keeps the duty of R425. -/
def Obligations.UnwrittenLimbsNeverMatter : Prop :=
  ∀ s t : State, SameButUnwritten s t → s.safeNext → SameOutcome (step s) (step t)
end

