-- ==== Sys2Proof/Laws/Decode.lean ====
section
/-! SUPPORT. The fields of a packed word read back, a packed word as a number, the opcode map has one row an
opcode, and the fetch of a pushed word. -/

namespace Sys2Proof

/-! ## Packed words -/

/-- The value of a concatenation. -/
theorem toNat_append_eq {a b : Nat} (x : BitVec a) (y : BitVec b) :
    (x ++ y).toNat = x.toNat * 2 ^ b + y.toNat := by
  rw [BitVec.toNat_append, Nat.shiftLeft_eq, Nat.mul_comm, ← Nat.two_pow_add_eq_or_of_lt y.isLt]

/-- R121: the word as the sum of its fields at their places. -/
theorem packWord_toNat (op : Byte) (rd rs1 rs2 rd2 : Reg) (imm32 : BitVec 32) :
    (packWord op rd rs1 rs2 rd2 imm32).toNat =
      op.toNat + 2 ^ 8 * rd + 2 ^ 12 * rs1 + 2 ^ 16 * rs2 + 2 ^ 20 * rd2 + 2 ^ 32 * imm32.toNat := by
  simp only [packWord, toNat_append_eq, BitVec.toNat_ofFin, BitVec.toNat_ofNat]
  omega

theorem opField_toNat (w : Word) : (opField w).toNat = w.toNat % 2 ^ 8 := by
  simp [opField]

theorem rdField_val (w : Word) : (rdField w).val = w.toNat / 2 ^ 8 % 2 ^ 4 := by
  simp [rdField, Nat.shiftRight_eq_div_pow]

theorem rs1Field_val (w : Word) : (rs1Field w).val = w.toNat / 2 ^ 12 % 2 ^ 4 := by
  simp [rs1Field, Nat.shiftRight_eq_div_pow]

theorem rs2Field_val (w : Word) : (rs2Field w).val = w.toNat / 2 ^ 16 % 2 ^ 4 := by
  simp [rs2Field, Nat.shiftRight_eq_div_pow]

theorem rd2Field_val (w : Word) : (rd2Field w).val = w.toNat / 2 ^ 20 % 2 ^ 4 := by
  simp [rd2Field, Nat.shiftRight_eq_div_pow]

theorem imm32Field_toNat (w : Word) : (imm32Field w).toNat = w.toNat / 2 ^ 32 % 2 ^ 32 := by
  simp [imm32Field, Nat.shiftRight_eq_div_pow]

section Fields

variable (op : Byte) (rd rs1 rs2 rd2 : Reg) (imm32 : BitVec 32)

@[simp] theorem opField_packWord : opField (packWord op rd rs1 rs2 rd2 imm32) = op := by
  have := op.isLt
  apply BitVec.eq_of_toNat_eq
  rw [opField_toNat, packWord_toNat]
  omega

@[simp] theorem rdField_packWord : rdField (packWord op rd rs1 rs2 rd2 imm32) = rd := by
  have := op.isLt
  have := rd.isLt
  apply Fin.ext
  rw [rdField_val, packWord_toNat]
  omega

@[simp] theorem rs1Field_packWord : rs1Field (packWord op rd rs1 rs2 rd2 imm32) = rs1 := by
  have := op.isLt
  have := rd.isLt
  have := rs1.isLt
  apply Fin.ext
  rw [rs1Field_val, packWord_toNat]
  omega

@[simp] theorem rs2Field_packWord : rs2Field (packWord op rd rs1 rs2 rd2 imm32) = rs2 := by
  have := op.isLt
  have := rd.isLt
  have := rs1.isLt
  have := rs2.isLt
  apply Fin.ext
  rw [rs2Field_val, packWord_toNat]
  omega

@[simp] theorem rd2Field_packWord : rd2Field (packWord op rd rs1 rs2 rd2 imm32) = rd2 := by
  have := op.isLt
  have := rd.isLt
  have := rs1.isLt
  have := rs2.isLt
  have := rd2.isLt
  apply Fin.ext
  rw [rd2Field_val, packWord_toNat]
  omega

@[simp] theorem imm32Field_packWord : imm32Field (packWord op rd rs1 rs2 rd2 imm32) = imm32 := by
  have := op.isLt
  have := rd.isLt
  have := rs1.isLt
  have := rs2.isLt
  have := rd2.isLt
  have := imm32.isLt
  apply BitVec.eq_of_toNat_eq
  rw [imm32Field_toNat, packWord_toNat]
  omega

/-- The word of the statements is the word of the encoder. -/
theorem fieldsWord_eq_packWord :
    Machine.fieldsWord op.toNat rd rs1 rs2 rd2 imm32.toNat = packWord op rd rs1 rs2 rd2 imm32 := by
  have h := (packWord op rd rs1 rs2 rd2 imm32).isLt
  apply BitVec.eq_of_toNat_eq
  rw [Machine.fieldsWord, BitVec.toNat_ofNat, ← packWord_toNat, Nat.mod_eq_of_lt h]

end Fields

/-! ## The opcode map -/

/-- No two rows of the map share an opcode (R126). -/
theorem opcodeTable_pairwise : opcodeTable.Pairwise (fun r r' => r.op ≠ r'.op) := by decide

/-- A row of the map is the row its opcode selects. -/
theorem opcodeTable_find_of_mem {r : OpRow} (h : r ∈ opcodeTable) :
    opcodeTable.find? (fun r' => r'.op == r.op) = some r := by
  obtain ⟨l₁, l₂, hl⟩ := List.append_of_mem h
  have hp := opcodeTable_pairwise
  rw [hl, List.pairwise_append] at hp
  rw [hl, List.find?_append, List.find?_eq_none.2, Option.none_or, List.find?_cons_of_pos (by simp)]
  intro r' hr'
  simpa using hp.2.2 r' hr' r (by simp)

/-- The row found for a word is in the map and has the word's opcode. -/
theorem mem_of_opcodeTable_find {w : Word} {r : OpRow}
    (h : opcodeTable.find? (fun r' => r'.op == opField w) = some r) : r ∈ opcodeTable ∧ r.op = opField w :=
  ⟨List.mem_of_find?_eq_some h, by simpa using List.find?_some h⟩

namespace Machine

/-! ## Fetch -/

/-- A pushed word reaches a core that is not busy. -/
theorem fetch_of_pushWord {s : State} {w : Word} {rest : List HostAccess} (hb : s.busy = false)
    (h : s.host = pushWord w :: rest) : fetch s = acceptWord w (s.setHost rest) := by
  simp [fetch, h, hb, takeAccess, pushWord, admitted, portTarget]

/-- With nothing pending the state is held (R404). -/
theorem fetch_of_nil {s : State} (h : s.host = []) : fetch s = .done (.next s) := by
  simp [fetch, h]

/-- A word reaches the decoder only when the core is ready for a first word. -/
theorem acceptWord_of_ready {s : State} {w : Word} (hf : s.fault = false) (hw : s.wait2 = none) :
    acceptWord w s = acceptFirst w s := by
  simp [acceptWord, hf, hw]

end Machine

end Sys2Proof
end

