-- ==== Sys2Proof/Laws/State.lean ====
section
/-! SUPPORT. What each update of `State` does to each field: one lemma a field, true by definition, so that no
proof unfolds an update. -/

namespace Sys2Proof.Machine

variable (s : State)

/-! ## setReg -/

@[simp] theorem State.setReg_cfg (r : Reg) (v : U256) : (s.setReg r v).cfg = s.cfg := rfl
@[simp] theorem State.setReg_regs (r : Reg) (v : U256) : (s.setReg r v).regs = s.regs.set r v := rfl
@[simp] theorem State.setReg_written (r : Reg) (v : U256) : (s.setReg r v).written = s.written.set r 0xF := rfl
@[simp] theorem State.setReg_ovf (r : Reg) (v : U256) : (s.setReg r v).ovf = s.ovf := rfl
@[simp] theorem State.setReg_fault (r : Reg) (v : U256) : (s.setReg r v).fault = s.fault := rfl
@[simp] theorem State.setReg_busy (r : Reg) (v : U256) : (s.setReg r v).busy = s.busy := rfl
@[simp] theorem State.setReg_wait2 (r : Reg) (v : U256) : (s.setReg r v).wait2 = s.wait2 := rfl
@[simp] theorem State.setReg_fcause (r : Reg) (v : U256) : (s.setReg r v).fcause = s.fcause := rfl
@[simp] theorem State.setReg_perr (r : Reg) (v : U256) : (s.setReg r v).perr = s.perr := rfl
@[simp] theorem State.setReg_pc (r : Reg) (v : U256) : (s.setReg r v).pc = s.pc := rfl
@[simp] theorem State.setReg_fpc (r : Reg) (v : U256) : (s.setReg r v).fpc = s.fpc := rfl
@[simp] theorem State.setReg_tlen (r : Reg) (v : U256) : (s.setReg r v).tlen = s.tlen := rfl
@[simp] theorem State.setReg_tbuf (r : Reg) (v : U256) : (s.setReg r v).tbuf = s.tbuf := rfl
@[simp] theorem State.setReg_host (r : Reg) (v : U256) : (s.setReg r v).host = s.host := rfl
@[simp] theorem State.setReg_hostData (r : Reg) (v : U256) : (s.setReg r v).hostData = s.hostData := rfl
@[simp] theorem State.setReg_epoch (r : Reg) (v : U256) : (s.setReg r v).epoch = s.epoch := rfl

/-! ## setRegLimb -/

@[simp] theorem State.setRegLimb_cfg (r : Reg) (j : Nat) (w : Word) : (s.setRegLimb r j w).cfg = s.cfg := rfl
@[simp] theorem State.setRegLimb_regs (r : Reg) (j : Nat) (w : Word) : (s.setRegLimb r j w).regs = s.regs.set r (setLimb s.regs[r] j w) := rfl
@[simp] theorem State.setRegLimb_written (r : Reg) (j : Nat) (w : Word) : (s.setRegLimb r j w).written = s.written.set r (s.written[r] ||| (1#4 <<< j)) := rfl
@[simp] theorem State.setRegLimb_ovf (r : Reg) (j : Nat) (w : Word) : (s.setRegLimb r j w).ovf = s.ovf := rfl
@[simp] theorem State.setRegLimb_fault (r : Reg) (j : Nat) (w : Word) : (s.setRegLimb r j w).fault = s.fault := rfl
@[simp] theorem State.setRegLimb_busy (r : Reg) (j : Nat) (w : Word) : (s.setRegLimb r j w).busy = s.busy := rfl
@[simp] theorem State.setRegLimb_wait2 (r : Reg) (j : Nat) (w : Word) : (s.setRegLimb r j w).wait2 = s.wait2 := rfl
@[simp] theorem State.setRegLimb_fcause (r : Reg) (j : Nat) (w : Word) : (s.setRegLimb r j w).fcause = s.fcause := rfl
@[simp] theorem State.setRegLimb_perr (r : Reg) (j : Nat) (w : Word) : (s.setRegLimb r j w).perr = s.perr := rfl
@[simp] theorem State.setRegLimb_pc (r : Reg) (j : Nat) (w : Word) : (s.setRegLimb r j w).pc = s.pc := rfl
@[simp] theorem State.setRegLimb_fpc (r : Reg) (j : Nat) (w : Word) : (s.setRegLimb r j w).fpc = s.fpc := rfl
@[simp] theorem State.setRegLimb_tlen (r : Reg) (j : Nat) (w : Word) : (s.setRegLimb r j w).tlen = s.tlen := rfl
@[simp] theorem State.setRegLimb_tbuf (r : Reg) (j : Nat) (w : Word) : (s.setRegLimb r j w).tbuf = s.tbuf := rfl
@[simp] theorem State.setRegLimb_host (r : Reg) (j : Nat) (w : Word) : (s.setRegLimb r j w).host = s.host := rfl
@[simp] theorem State.setRegLimb_hostData (r : Reg) (j : Nat) (w : Word) : (s.setRegLimb r j w).hostData = s.hostData := rfl
@[simp] theorem State.setRegLimb_epoch (r : Reg) (j : Nat) (w : Word) : (s.setRegLimb r j w).epoch = s.epoch := rfl

/-! ## setOvf -/

@[simp] theorem State.setOvf_cfg (b : Bool) : (s.setOvf b).cfg = s.cfg := rfl
@[simp] theorem State.setOvf_regs (b : Bool) : (s.setOvf b).regs = s.regs := rfl
@[simp] theorem State.setOvf_written (b : Bool) : (s.setOvf b).written = s.written := rfl
@[simp] theorem State.setOvf_ovf (b : Bool) : (s.setOvf b).ovf = b := rfl
@[simp] theorem State.setOvf_fault (b : Bool) : (s.setOvf b).fault = s.fault := rfl
@[simp] theorem State.setOvf_busy (b : Bool) : (s.setOvf b).busy = s.busy := rfl
@[simp] theorem State.setOvf_wait2 (b : Bool) : (s.setOvf b).wait2 = s.wait2 := rfl
@[simp] theorem State.setOvf_fcause (b : Bool) : (s.setOvf b).fcause = s.fcause := rfl
@[simp] theorem State.setOvf_perr (b : Bool) : (s.setOvf b).perr = s.perr := rfl
@[simp] theorem State.setOvf_pc (b : Bool) : (s.setOvf b).pc = s.pc := rfl
@[simp] theorem State.setOvf_fpc (b : Bool) : (s.setOvf b).fpc = s.fpc := rfl
@[simp] theorem State.setOvf_tlen (b : Bool) : (s.setOvf b).tlen = s.tlen := rfl
@[simp] theorem State.setOvf_tbuf (b : Bool) : (s.setOvf b).tbuf = s.tbuf := rfl
@[simp] theorem State.setOvf_host (b : Bool) : (s.setOvf b).host = s.host := rfl
@[simp] theorem State.setOvf_hostData (b : Bool) : (s.setOvf b).hostData = s.hostData := rfl
@[simp] theorem State.setOvf_epoch (b : Bool) : (s.setOvf b).epoch = s.epoch := rfl

/-! ## setPerr -/

@[simp] theorem State.setPerr_cfg (c : PErr) : (s.setPerr c).cfg = s.cfg := rfl
@[simp] theorem State.setPerr_regs (c : PErr) : (s.setPerr c).regs = s.regs := rfl
@[simp] theorem State.setPerr_written (c : PErr) : (s.setPerr c).written = s.written := rfl
@[simp] theorem State.setPerr_ovf (c : PErr) : (s.setPerr c).ovf = s.ovf := rfl
@[simp] theorem State.setPerr_fault (c : PErr) : (s.setPerr c).fault = s.fault := rfl
@[simp] theorem State.setPerr_busy (c : PErr) : (s.setPerr c).busy = s.busy := rfl
@[simp] theorem State.setPerr_wait2 (c : PErr) : (s.setPerr c).wait2 = s.wait2 := rfl
@[simp] theorem State.setPerr_fcause (c : PErr) : (s.setPerr c).fcause = s.fcause := rfl
@[simp] theorem State.setPerr_perr (c : PErr) : (s.setPerr c).perr = c := rfl
@[simp] theorem State.setPerr_pc (c : PErr) : (s.setPerr c).pc = s.pc := rfl
@[simp] theorem State.setPerr_fpc (c : PErr) : (s.setPerr c).fpc = s.fpc := rfl
@[simp] theorem State.setPerr_tlen (c : PErr) : (s.setPerr c).tlen = s.tlen := rfl
@[simp] theorem State.setPerr_tbuf (c : PErr) : (s.setPerr c).tbuf = s.tbuf := rfl
@[simp] theorem State.setPerr_host (c : PErr) : (s.setPerr c).host = s.host := rfl
@[simp] theorem State.setPerr_hostData (c : PErr) : (s.setPerr c).hostData = s.hostData := rfl
@[simp] theorem State.setPerr_epoch (c : PErr) : (s.setPerr c).epoch = s.epoch := rfl

/-! ## setTlen -/

@[simp] theorem State.setTlen_cfg (n : BitVec 16) : (s.setTlen n).cfg = s.cfg := rfl
@[simp] theorem State.setTlen_regs (n : BitVec 16) : (s.setTlen n).regs = s.regs := rfl
@[simp] theorem State.setTlen_written (n : BitVec 16) : (s.setTlen n).written = s.written := rfl
@[simp] theorem State.setTlen_ovf (n : BitVec 16) : (s.setTlen n).ovf = s.ovf := rfl
@[simp] theorem State.setTlen_fault (n : BitVec 16) : (s.setTlen n).fault = s.fault := rfl
@[simp] theorem State.setTlen_busy (n : BitVec 16) : (s.setTlen n).busy = s.busy := rfl
@[simp] theorem State.setTlen_wait2 (n : BitVec 16) : (s.setTlen n).wait2 = s.wait2 := rfl
@[simp] theorem State.setTlen_fcause (n : BitVec 16) : (s.setTlen n).fcause = s.fcause := rfl
@[simp] theorem State.setTlen_perr (n : BitVec 16) : (s.setTlen n).perr = s.perr := rfl
@[simp] theorem State.setTlen_pc (n : BitVec 16) : (s.setTlen n).pc = s.pc := rfl
@[simp] theorem State.setTlen_fpc (n : BitVec 16) : (s.setTlen n).fpc = s.fpc := rfl
@[simp] theorem State.setTlen_tlen (n : BitVec 16) : (s.setTlen n).tlen = n := rfl
@[simp] theorem State.setTlen_tbuf (n : BitVec 16) : (s.setTlen n).tbuf = s.tbuf := rfl
@[simp] theorem State.setTlen_host (n : BitVec 16) : (s.setTlen n).host = s.host := rfl
@[simp] theorem State.setTlen_hostData (n : BitVec 16) : (s.setTlen n).hostData = s.hostData := rfl
@[simp] theorem State.setTlen_epoch (n : BitVec 16) : (s.setTlen n).epoch = s.epoch := rfl

/-! ## setTbuf -/

@[simp] theorem State.setTbuf_cfg (m : Memory) : (s.setTbuf m).cfg = s.cfg := rfl
@[simp] theorem State.setTbuf_regs (m : Memory) : (s.setTbuf m).regs = s.regs := rfl
@[simp] theorem State.setTbuf_written (m : Memory) : (s.setTbuf m).written = s.written := rfl
@[simp] theorem State.setTbuf_ovf (m : Memory) : (s.setTbuf m).ovf = s.ovf := rfl
@[simp] theorem State.setTbuf_fault (m : Memory) : (s.setTbuf m).fault = s.fault := rfl
@[simp] theorem State.setTbuf_busy (m : Memory) : (s.setTbuf m).busy = s.busy := rfl
@[simp] theorem State.setTbuf_wait2 (m : Memory) : (s.setTbuf m).wait2 = s.wait2 := rfl
@[simp] theorem State.setTbuf_fcause (m : Memory) : (s.setTbuf m).fcause = s.fcause := rfl
@[simp] theorem State.setTbuf_perr (m : Memory) : (s.setTbuf m).perr = s.perr := rfl
@[simp] theorem State.setTbuf_pc (m : Memory) : (s.setTbuf m).pc = s.pc := rfl
@[simp] theorem State.setTbuf_fpc (m : Memory) : (s.setTbuf m).fpc = s.fpc := rfl
@[simp] theorem State.setTbuf_tlen (m : Memory) : (s.setTbuf m).tlen = s.tlen := rfl
@[simp] theorem State.setTbuf_tbuf (m : Memory) : (s.setTbuf m).tbuf = m := rfl
@[simp] theorem State.setTbuf_host (m : Memory) : (s.setTbuf m).host = s.host := rfl
@[simp] theorem State.setTbuf_hostData (m : Memory) : (s.setTbuf m).hostData = s.hostData := rfl
@[simp] theorem State.setTbuf_epoch (m : Memory) : (s.setTbuf m).epoch = s.epoch := rfl

/-! ## setWait2 -/

@[simp] theorem State.setWait2_cfg (o : Option Reg) : (s.setWait2 o).cfg = s.cfg := rfl
@[simp] theorem State.setWait2_regs (o : Option Reg) : (s.setWait2 o).regs = s.regs := rfl
@[simp] theorem State.setWait2_written (o : Option Reg) : (s.setWait2 o).written = s.written := rfl
@[simp] theorem State.setWait2_ovf (o : Option Reg) : (s.setWait2 o).ovf = s.ovf := rfl
@[simp] theorem State.setWait2_fault (o : Option Reg) : (s.setWait2 o).fault = s.fault := rfl
@[simp] theorem State.setWait2_busy (o : Option Reg) : (s.setWait2 o).busy = s.busy := rfl
@[simp] theorem State.setWait2_wait2 (o : Option Reg) : (s.setWait2 o).wait2 = o := rfl
@[simp] theorem State.setWait2_fcause (o : Option Reg) : (s.setWait2 o).fcause = s.fcause := rfl
@[simp] theorem State.setWait2_perr (o : Option Reg) : (s.setWait2 o).perr = s.perr := rfl
@[simp] theorem State.setWait2_pc (o : Option Reg) : (s.setWait2 o).pc = s.pc := rfl
@[simp] theorem State.setWait2_fpc (o : Option Reg) : (s.setWait2 o).fpc = s.fpc := rfl
@[simp] theorem State.setWait2_tlen (o : Option Reg) : (s.setWait2 o).tlen = s.tlen := rfl
@[simp] theorem State.setWait2_tbuf (o : Option Reg) : (s.setWait2 o).tbuf = s.tbuf := rfl
@[simp] theorem State.setWait2_host (o : Option Reg) : (s.setWait2 o).host = s.host := rfl
@[simp] theorem State.setWait2_hostData (o : Option Reg) : (s.setWait2 o).hostData = s.hostData := rfl
@[simp] theorem State.setWait2_epoch (o : Option Reg) : (s.setWait2 o).epoch = s.epoch := rfl

/-! ## setHostData -/

@[simp] theorem State.setHostData_cfg (w : Word) : (s.setHostData w).cfg = s.cfg := rfl
@[simp] theorem State.setHostData_regs (w : Word) : (s.setHostData w).regs = s.regs := rfl
@[simp] theorem State.setHostData_written (w : Word) : (s.setHostData w).written = s.written := rfl
@[simp] theorem State.setHostData_ovf (w : Word) : (s.setHostData w).ovf = s.ovf := rfl
@[simp] theorem State.setHostData_fault (w : Word) : (s.setHostData w).fault = s.fault := rfl
@[simp] theorem State.setHostData_busy (w : Word) : (s.setHostData w).busy = s.busy := rfl
@[simp] theorem State.setHostData_wait2 (w : Word) : (s.setHostData w).wait2 = s.wait2 := rfl
@[simp] theorem State.setHostData_fcause (w : Word) : (s.setHostData w).fcause = s.fcause := rfl
@[simp] theorem State.setHostData_perr (w : Word) : (s.setHostData w).perr = s.perr := rfl
@[simp] theorem State.setHostData_pc (w : Word) : (s.setHostData w).pc = s.pc := rfl
@[simp] theorem State.setHostData_fpc (w : Word) : (s.setHostData w).fpc = s.fpc := rfl
@[simp] theorem State.setHostData_tlen (w : Word) : (s.setHostData w).tlen = s.tlen := rfl
@[simp] theorem State.setHostData_tbuf (w : Word) : (s.setHostData w).tbuf = s.tbuf := rfl
@[simp] theorem State.setHostData_host (w : Word) : (s.setHostData w).host = s.host := rfl
@[simp] theorem State.setHostData_hostData (w : Word) : (s.setHostData w).hostData = w := rfl
@[simp] theorem State.setHostData_epoch (w : Word) : (s.setHostData w).epoch = s.epoch := rfl

/-! ## setHost -/

@[simp] theorem State.setHost_cfg (h : List HostAccess) : (s.setHost h).cfg = s.cfg := rfl
@[simp] theorem State.setHost_regs (h : List HostAccess) : (s.setHost h).regs = s.regs := rfl
@[simp] theorem State.setHost_written (h : List HostAccess) : (s.setHost h).written = s.written := rfl
@[simp] theorem State.setHost_ovf (h : List HostAccess) : (s.setHost h).ovf = s.ovf := rfl
@[simp] theorem State.setHost_fault (h : List HostAccess) : (s.setHost h).fault = s.fault := rfl
@[simp] theorem State.setHost_busy (h : List HostAccess) : (s.setHost h).busy = s.busy := rfl
@[simp] theorem State.setHost_wait2 (h : List HostAccess) : (s.setHost h).wait2 = s.wait2 := rfl
@[simp] theorem State.setHost_fcause (h : List HostAccess) : (s.setHost h).fcause = s.fcause := rfl
@[simp] theorem State.setHost_perr (h : List HostAccess) : (s.setHost h).perr = s.perr := rfl
@[simp] theorem State.setHost_pc (h : List HostAccess) : (s.setHost h).pc = s.pc := rfl
@[simp] theorem State.setHost_fpc (h : List HostAccess) : (s.setHost h).fpc = s.fpc := rfl
@[simp] theorem State.setHost_tlen (h : List HostAccess) : (s.setHost h).tlen = s.tlen := rfl
@[simp] theorem State.setHost_tbuf (h : List HostAccess) : (s.setHost h).tbuf = s.tbuf := rfl
@[simp] theorem State.setHost_host (h : List HostAccess) : (s.setHost h).host = h := rfl
@[simp] theorem State.setHost_hostData (h : List HostAccess) : (s.setHost h).hostData = s.hostData := rfl
@[simp] theorem State.setHost_epoch (h : List HostAccess) : (s.setHost h).epoch = s.epoch := rfl

/-! ## setBusy -/

@[simp] theorem State.setBusy_cfg : (s.setBusy).cfg = s.cfg := rfl
@[simp] theorem State.setBusy_regs : (s.setBusy).regs = s.regs := rfl
@[simp] theorem State.setBusy_written : (s.setBusy).written = s.written := rfl
@[simp] theorem State.setBusy_ovf : (s.setBusy).ovf = s.ovf := rfl
@[simp] theorem State.setBusy_fault : (s.setBusy).fault = s.fault := rfl
@[simp] theorem State.setBusy_busy : (s.setBusy).busy = true := rfl
@[simp] theorem State.setBusy_wait2 : (s.setBusy).wait2 = s.wait2 := rfl
@[simp] theorem State.setBusy_fcause : (s.setBusy).fcause = s.fcause := rfl
@[simp] theorem State.setBusy_perr : (s.setBusy).perr = s.perr := rfl
@[simp] theorem State.setBusy_pc : (s.setBusy).pc = s.pc := rfl
@[simp] theorem State.setBusy_fpc : (s.setBusy).fpc = s.fpc := rfl
@[simp] theorem State.setBusy_tlen : (s.setBusy).tlen = s.tlen := rfl
@[simp] theorem State.setBusy_tbuf : (s.setBusy).tbuf = s.tbuf := rfl
@[simp] theorem State.setBusy_host : (s.setBusy).host = s.host := rfl
@[simp] theorem State.setBusy_hostData : (s.setBusy).hostData = s.hostData := rfl
@[simp] theorem State.setBusy_epoch : (s.setBusy).epoch = s.epoch := rfl

/-! ## advance -/

@[simp] theorem State.advance_cfg (len : Nat) : (s.advance len).cfg = s.cfg := rfl
@[simp] theorem State.advance_regs (len : Nat) : (s.advance len).regs = s.regs := rfl
@[simp] theorem State.advance_written (len : Nat) : (s.advance len).written = s.written := rfl
@[simp] theorem State.advance_ovf (len : Nat) : (s.advance len).ovf = s.ovf := rfl
@[simp] theorem State.advance_fault (len : Nat) : (s.advance len).fault = s.fault := rfl
@[simp] theorem State.advance_busy (len : Nat) : (s.advance len).busy = false := rfl
@[simp] theorem State.advance_wait2 (len : Nat) : (s.advance len).wait2 = s.wait2 := rfl
@[simp] theorem State.advance_fcause (len : Nat) : (s.advance len).fcause = s.fcause := rfl
@[simp] theorem State.advance_perr (len : Nat) : (s.advance len).perr = s.perr := rfl
@[simp] theorem State.advance_pc (len : Nat) : (s.advance len).pc = s.pc + BitVec.ofNat 32 len := rfl
@[simp] theorem State.advance_fpc (len : Nat) : (s.advance len).fpc = s.fpc := rfl
@[simp] theorem State.advance_tlen (len : Nat) : (s.advance len).tlen = s.tlen := rfl
@[simp] theorem State.advance_tbuf (len : Nat) : (s.advance len).tbuf = s.tbuf := rfl
@[simp] theorem State.advance_host (len : Nat) : (s.advance len).host = s.host := rfl
@[simp] theorem State.advance_hostData (len : Nat) : (s.advance len).hostData = s.hostData := rfl
@[simp] theorem State.advance_epoch (len : Nat) : (s.advance len).epoch = s.epoch := rfl

/-! ## enterFault -/

@[simp] theorem State.enterFault_cfg (c : FCause) : (s.enterFault c).cfg = s.cfg := rfl
@[simp] theorem State.enterFault_regs (c : FCause) : (s.enterFault c).regs = s.regs := rfl
@[simp] theorem State.enterFault_written (c : FCause) : (s.enterFault c).written = s.written := rfl
@[simp] theorem State.enterFault_ovf (c : FCause) : (s.enterFault c).ovf = s.ovf := rfl
@[simp] theorem State.enterFault_fault (c : FCause) : (s.enterFault c).fault = true := rfl
@[simp] theorem State.enterFault_busy (c : FCause) : (s.enterFault c).busy = false := rfl
@[simp] theorem State.enterFault_wait2 (c : FCause) : (s.enterFault c).wait2 = s.wait2 := rfl
@[simp] theorem State.enterFault_fcause (c : FCause) : (s.enterFault c).fcause = c := rfl
@[simp] theorem State.enterFault_perr (c : FCause) : (s.enterFault c).perr = s.perr := rfl
@[simp] theorem State.enterFault_pc (c : FCause) : (s.enterFault c).pc = s.pc := rfl
@[simp] theorem State.enterFault_fpc (c : FCause) : (s.enterFault c).fpc = s.pc := rfl
@[simp] theorem State.enterFault_tlen (c : FCause) : (s.enterFault c).tlen = s.tlen := rfl
@[simp] theorem State.enterFault_tbuf (c : FCause) : (s.enterFault c).tbuf = s.tbuf := rfl
@[simp] theorem State.enterFault_host (c : FCause) : (s.enterFault c).host = s.host := rfl
@[simp] theorem State.enterFault_hostData (c : FCause) : (s.enterFault c).hostData = s.hostData := rfl
@[simp] theorem State.enterFault_epoch (c : FCause) : (s.enterFault c).epoch = s.epoch := rfl

/-! ## afterReset -/

@[simp] theorem State.afterReset_cfg : (s.afterReset).cfg = s.cfg := rfl
@[simp] theorem State.afterReset_regs : (s.afterReset).regs = Vector.replicate 16 0 := rfl
@[simp] theorem State.afterReset_written : (s.afterReset).written = Vector.replicate 16 0 := rfl
@[simp] theorem State.afterReset_ovf : (s.afterReset).ovf = false := rfl
@[simp] theorem State.afterReset_fault : (s.afterReset).fault = false := rfl
@[simp] theorem State.afterReset_busy : (s.afterReset).busy = false := rfl
@[simp] theorem State.afterReset_wait2 : (s.afterReset).wait2 = none := rfl
@[simp] theorem State.afterReset_fcause : (s.afterReset).fcause = .none := rfl
@[simp] theorem State.afterReset_perr : (s.afterReset).perr = .ok := rfl
@[simp] theorem State.afterReset_pc : (s.afterReset).pc = 0 := rfl
@[simp] theorem State.afterReset_fpc : (s.afterReset).fpc = 0 := rfl
@[simp] theorem State.afterReset_tlen : (s.afterReset).tlen = 0 := rfl
@[simp] theorem State.afterReset_tbuf : (s.afterReset).tbuf = [] := rfl
@[simp] theorem State.afterReset_host : (s.afterReset).host = s.host := rfl
@[simp] theorem State.afterReset_hostData : (s.afterReset).hostData = s.hostData := rfl
@[simp] theorem State.afterReset_epoch : (s.afterReset).epoch = s.epoch + 1 := rfl

/-! ## Registers and marks -/

theorem regEntry_set {α : Type} (v : Vector α 16) (r r' : Reg) (x : α) :
    (v.set r x)[r'] = if r' = r then x else v[r'] := by
  by_cases h : r' = r
  · subst h; simp
  · have h' : r.val ≠ r'.val := fun e => h (Fin.ext e.symm)
    simp [h, Vector.getElem_set_ne, h']

theorem State.getReg_setReg (r r' : Reg) (v : U256) :
    (s.setReg r v).getReg r' = if r' = r then v else s.getReg r' := by
  simp only [State.getReg, State.setReg_regs, regEntry_set]

@[simp] theorem State.getReg_setReg_self (r : Reg) (v : U256) : (s.setReg r v).getReg r = v := by
  simp [State.getReg_setReg]

theorem State.getReg_setReg_ne (r r' : Reg) (v : U256) (h : r' ≠ r) :
    (s.setReg r v).getReg r' = s.getReg r' := by
  simp [State.getReg_setReg, h]

theorem State.written_setReg (r r' : Reg) (v : U256) :
    (s.setReg r v).written[r'] = if r' = r then 0xF else s.written[r'] := by
  simp only [State.setReg_written, regEntry_set]

@[simp] theorem State.regWritten_setReg_self (r : Reg) (v : U256) :
    (s.setReg r v).regWritten r = true := by
  simp [State.regWritten]

theorem State.getReg_setRegLimb (r r' : Reg) (j : Nat) (w : Word) :
    (s.setRegLimb r j w).getReg r' = if r' = r then setLimb (s.getReg r) j w else s.getReg r' := by
  simp only [State.getReg, State.setRegLimb_regs, regEntry_set]

theorem State.written_setRegLimb (r r' : Reg) (j : Nat) (w : Word) :
    (s.setRegLimb r j w).written[r'] =
      if r' = r then s.written[r] ||| (1#4 <<< j) else s.written[r'] := by
  simp only [State.setRegLimb_written, regEntry_set]

@[simp] theorem State.getReg_setOvf (b : Bool) (r : Reg) : (s.setOvf b).getReg r = s.getReg r := rfl
@[simp] theorem State.getReg_setPerr (c : PErr) (r : Reg) : (s.setPerr c).getReg r = s.getReg r := rfl
@[simp] theorem State.getReg_setTlen (n : BitVec 16) (r : Reg) : (s.setTlen n).getReg r = s.getReg r := rfl
@[simp] theorem State.getReg_setTbuf (m : Memory) (r : Reg) : (s.setTbuf m).getReg r = s.getReg r := rfl
@[simp] theorem State.getReg_setWait2 (o : Option Reg) (r : Reg) : (s.setWait2 o).getReg r = s.getReg r := rfl
@[simp] theorem State.getReg_setHostData (w : Word) (r : Reg) : (s.setHostData w).getReg r = s.getReg r := rfl
@[simp] theorem State.getReg_setHost (h : List HostAccess) (r : Reg) : (s.setHost h).getReg r = s.getReg r := rfl
@[simp] theorem State.getReg_setBusy (r : Reg) : (s.setBusy).getReg r = s.getReg r := rfl
@[simp] theorem State.getReg_advance (len : Nat) (r : Reg) : (s.advance len).getReg r = s.getReg r := rfl
@[simp] theorem State.getReg_enterFault (c : FCause) (r : Reg) : (s.enterFault c).getReg r = s.getReg r := rfl

theorem State.regWritten_iff (r : Reg) :
    s.regWritten r = true ↔ ∀ j, j < 4 → s.limbWritten r j = true := by
  simp only [State.regWritten, State.limbWritten, beq_iff_eq]
  constructor
  · intro h j hj
    rw [h]
    interval_cases j <;> rfl
  · intro h
    apply BitVec.eq_of_getLsbD_eq
    intro j hj
    rw [h j hj]
    interval_cases j <;> rfl

end Sys2Proof.Machine
end

