-- ==== Sys2Proof/Laws/Limb.lean ====
section
/-! SUPPORT. Limbs (00_scope.md R9, 10_state.md R41): a value is its four limbs, and replacing one limb leaves
the others. -/

namespace Sys2Proof.Machine

/-! ## Reading -/

theorem getLsbD_limb (v : U256) (j i : Nat) :
    (limb v j).getLsbD i = (decide (i < 64) && v.getLsbD (64 * j + i)) := by
  simp [limb]

theorem limb_toNat (v : U256) (j : Nat) : (limb v j).toNat = v.toNat / 2 ^ (64 * j) % 2 ^ 64 := by
  simp [limb, Nat.shiftRight_eq_div_pow]

/-- Two values with the same limbs are equal. -/
theorem eq_of_limbs {v w : U256} (h : ∀ j, j < 4 → limb v j = limb w j) : v = w := by
  apply BitVec.eq_of_getLsbD_eq
  intro i hi
  have hj := congrArg (fun x => BitVec.getLsbD x (i % 64)) (h (i / 64) (by omega))
  simp only [getLsbD_limb, Nat.div_add_mod] at hj
  simpa only [Nat.mod_lt i (show 64 > 0 by decide), decide_true, Bool.true_and] using hj

/-- R41: the value is the sum of its limbs times the powers of 2^64. -/
theorem limbsValue_limbs (v : U256) : limbsValue (limbs v) = v.toNat := by
  have h := v.isLt
  simp only [limbs, limbsValue, limb_toNat]
  omega

/-! ## Writing -/

theorem getLsbD_setLimb (v : U256) (j i : Nat) (w : Word) (hi : i < 256) :
    (setLimb v j w).getLsbD i = if i / 64 = j then w.getLsbD (i % 64) else v.getLsbD i := by
  simp only [setLimb, BitVec.getLsbD_or, BitVec.getLsbD_and, BitVec.getLsbD_not, BitVec.getLsbD_shiftLeft,
    BitVec.getLsbD_setWidth]
  by_cases h : i / 64 = j
  · have h1 : i - 64 * j = i % 64 := by omega
    have h2 : ¬i < 64 * j := by omega
    have h3 : i % 64 < 64 := Nat.mod_lt _ (by omega)
    have h5 : BitVec.getLsbD 0xFFFFFFFFFFFFFFFF#64 (i % 64) = true := by
      rw [show (0xFFFFFFFFFFFFFFFF#64) = BitVec.allOnes 64 from by decide, BitVec.getLsbD_allOnes]
      exact decide_eq_true h3
    simp [h, h1, h2, hi, h5, show i % 64 < 256 by omega]
  · by_cases h2 : i < 64 * j
    · simp [h, h2, hi]
    · have h3 : 64 ≤ i - 64 * j := by omega
      have h4 : w.getLsbD (i - 64 * j) = false := BitVec.getLsbD_of_ge _ _ h3
      have h5 : BitVec.getLsbD 0xFFFFFFFFFFFFFFFF#64 (i - 64 * j) = false := BitVec.getLsbD_of_ge _ _ h3
      simp [h, h2, hi, h4, h5]

theorem limb_setLimb (v : U256) (j k : Nat) (w : Word) (hk : k < 4) :
    limb (setLimb v j w) k = if k = j then w else limb v k := by
  apply BitVec.eq_of_getLsbD_eq
  intro i hi
  rw [getLsbD_limb, getLsbD_setLimb v j _ w (by omega)]
  have h1 : (64 * k + i) / 64 = k := by omega
  have h2 : (64 * k + i) % 64 = i := by omega
  rw [h1, h2]
  split
  · simp [hi]
  · rw [getLsbD_limb]

theorem State.limbWritten_setRegLimb (s : State) (r r' : Reg) (j k : Nat) (w : Word) (hk : k < 4) :
    (s.setRegLimb r j w).limbWritten r' k = (s.limbWritten r' k || (r' == r && k == j)) := by
  simp only [State.limbWritten, State.written_setRegLimb]
  by_cases h : r' = r
  · subst h
    simp only [if_true, BitVec.getLsbD_or, BitVec.getLsbD_shiftLeft, BitVec.getLsbD_one, beq_self_eq_true,
      Bool.true_and]
    congr 1
    rw [Bool.eq_iff_iff]
    simp
    omega
  · simp [h]

/-- A write of a whole register marks all its limbs. -/
theorem State.limbWritten_setReg (s : State) (r r' : Reg) (v : U256) (k : Nat) (hk : k < 4) :
    (s.setReg r v).limbWritten r' k = (r' == r || s.limbWritten r' k) := by
  by_cases h : r' = r
  · subst h
    have := (State.regWritten_iff (s.setReg r' v) r').1 (State.regWritten_setReg_self s r' v) k hk
    simp [this]
  · rw [State.limbWritten, State.written_setReg, if_neg h, beq_eq_false_iff_ne.2 h, Bool.false_or]
    rfl

end Sys2Proof.Machine
end

