-- ==== Sys2Proof/Laws/Memory.lean ====
section
/-! SUPPORT. The text buffer: a read after a write, the canonical form is kept, strings read back. -/

namespace Sys2Proof.Machine

/-! ## One byte -/

theorem Memory.read?_write (m : Memory) (a k : Nat) (b : Byte) :
    (m.write a b).read? k = if k = a then some b else m.read? k := by
  induction m with
  | nil => simp [Memory.write, Memory.read?, eq_comm]
  | cons c m ih =>
    obtain ⟨i, v⟩ := c
    by_cases h1 : a < i
    · simp only [Memory.write, h1, if_true, Memory.read?]
      split <;> simp_all [eq_comm]
    · by_cases h2 : a = i
      · subst h2
        simp only [Memory.write, lt_irrefl, if_false, if_true, Memory.read?]
        by_cases hk : a = k <;> simp [hk, eq_comm]
      · simp only [Memory.write, h1, h2, if_false, Memory.read?, ih]
        by_cases hk : i = k
        · subst hk; simp [Ne.symm h2]
        · simp [hk]

@[simp] theorem Memory.read?_write_self (m : Memory) (a : Nat) (b : Byte) :
    (m.write a b).read? a = some b := by simp [Memory.read?_write]

theorem Memory.read?_write_ne (m : Memory) (a k : Nat) (b : Byte) (h : k ≠ a) :
    (m.write a b).read? k = m.read? k := by simp [Memory.read?_write, h]

theorem Memory.mem_write {m : Memory} {a : Nat} {b : Byte} {c : Host.Cell} (h : c ∈ m.write a b) :
    c = (a, b) ∨ c ∈ m := by
  induction m with
  | nil => simpa [Memory.write] using h
  | cons d m ih =>
    obtain ⟨i, v⟩ := d
    simp only [Memory.write] at h
    split at h
    · simpa using h
    · split at h
      · rcases List.mem_cons.1 h with h | h
        · exact .inl h
        · exact .inr (List.mem_cons_of_mem _ h)
      · rcases List.mem_cons.1 h with h | h
        · exact .inr (by simp [h])
        · rcases ih h with h | h
          · exact .inl h
          · exact .inr (List.mem_cons_of_mem _ h)

/-- Writing a byte keeps the canonical form. -/
theorem Memory.wf_write {m : Memory} (h : m.wf) (a : Nat) (b : Byte) : (m.write a b).wf := by
  induction m with
  | nil => simp [Memory.write, Memory.wf]
  | cons d m ih =>
    obtain ⟨i, v⟩ := d
    obtain ⟨hd, hm⟩ := List.pairwise_cons.1 h
    simp only [Memory.write]
    split
    · rename_i hlt
      refine List.pairwise_cons.2 ⟨?_, h⟩
      intro c hc
      rcases List.mem_cons.1 hc with rfl | hc
      · exact hlt
      · exact lt_trans hlt (hd c hc)
    · split
      · rename_i heq
        subst heq
        exact List.pairwise_cons.2 ⟨hd, hm⟩
      · refine List.pairwise_cons.2 ⟨?_, ih hm⟩
        intro c hc
        rcases Memory.mem_write hc with rfl | hc
        · simp only; omega
        · exact hd c hc

/-- The text buffer after reset is in canonical form, for every parameter value. -/
theorem Memory.wf_reset (c : Config) : (State.resetOf c).tbuf.wf := List.Pairwise.nil

/-! ## Strings -/

theorem Memory.read?_writeBytes (m : Memory) (a k : Nat) (str : List Byte) :
    (m.writeBytes a str).read? k =
      if a ≤ k then (match str[k - a]? with
        | some b => some b
        | none => m.read? k)
      else m.read? k := by
  induction str generalizing m a with
  | nil => simp [Memory.writeBytes]
  | cons b bs ih =>
    simp only [Memory.writeBytes, ih, Memory.read?_write]
    rcases Nat.lt_trichotomy k a with h | h | h
    · simp [show ¬a ≤ k by omega, show ¬a + 1 ≤ k by omega, show k ≠ a by omega]
    · subst h; simp
    · obtain ⟨d, rfl⟩ : ∃ d, k = a + 1 + d := ⟨k - (a + 1), by omega⟩
      simp [show a + 1 + d - a = d + 1 by omega, show a ≤ a + 1 + d by omega,
        show a + 1 + d ≠ a by omega]

theorem Memory.read?_writeBytes_in (m : Memory) (a k : Nat) (str : List Byte) (h : k < str.length) :
    (m.writeBytes a str).read? (a + k) = some str[k] := by
  simp [Memory.read?_writeBytes, List.getElem?_eq_getElem h]

theorem Memory.read?_writeBytes_out (m : Memory) (a k : Nat) (str : List Byte)
    (h : k < a ∨ a + str.length ≤ k) : (m.writeBytes a str).read? k = m.read? k := by
  rw [Memory.read?_writeBytes]
  split
  · rw [List.getElem?_eq_none (by omega)]
  · rfl

/-- Writing a string keeps the canonical form. -/
theorem Memory.wf_writeBytes {m : Memory} (h : m.wf) (a : Nat) (str : List Byte) :
    (m.writeBytes a str).wf := by
  induction str generalizing m a with
  | nil => exact h
  | cons b bs ih => exact ih (Memory.wf_write h a b) (a + 1)

theorem Memory.mem_writeBytes {m : Memory} {a : Nat} {str : List Byte} {c : Host.Cell}
    (h : c ∈ m.writeBytes a str) : (a ≤ c.1 ∧ c.1 < a + str.length) ∨ c ∈ m := by
  induction str generalizing m a with
  | nil => exact .inr h
  | cons b bs ih =>
    simp only [Memory.writeBytes] at h
    rcases ih h with ⟨h1, h2⟩ | h
    · exact .inl ⟨by omega, by simp only [List.length_cons]; omega⟩
    · rcases Memory.mem_write h with rfl | h
      · exact .inl ⟨le_refl _, by simp⟩
      · exact .inr h

theorem Memory.readBytes_eq_ok {m : Memory} {a n : Nat} {str : List Byte} :
    m.readBytes a n = .ok str ↔ str.length = n ∧ ∀ k (h : k < str.length), m.read? (a + k) = some str[k] := by
  induction n generalizing a str with
  | zero =>
    cases str <;> simp [Memory.readBytes]
  | succ n ih =>
    simp only [Memory.readBytes]
    cases hb : m.read? a with
    | none =>
      simp only [reduceCtorEq, false_iff]
      rintro ⟨hl, hk⟩
      have := hk 0 (by omega)
      simp [hb] at this
    | some b =>
      cases hr : m.readBytes (a + 1) n with
      | error f =>
        simp only [reduceCtorEq, false_iff]
        rintro ⟨hl, hk⟩
        cases str with
        | nil => simp at hl
        | cons c cs =>
          have : m.readBytes (a + 1) n = .ok cs := ih.2 ⟨by simpa using hl, fun k h => by
            have := hk (k + 1) (by simpa using h)
            simpa [Nat.add_assoc, Nat.add_comm 1 k] using this⟩
          simp [hr] at this
      | ok bs =>
        have hbs := ih.1 hr
        simp only [Except.ok.injEq]
        constructor
        · rintro rfl
          refine ⟨by simp [hbs.1], ?_⟩
          intro k h
          cases k with
          | zero => simpa using hb
          | succ k =>
            have := hbs.2 k (by simpa using h)
            simpa [Nat.add_assoc, Nat.add_comm 1 k] using this
        · rintro ⟨hl, hk⟩
          cases str with
          | nil => simp at hl
          | cons c cs =>
            have h0 := hk 0 (by simp)
            have : m.readBytes (a + 1) n = .ok cs := ih.2 ⟨by simpa using hl, fun k h => by
              have := hk (k + 1) (by simpa using h)
              simpa [Nat.add_assoc, Nat.add_comm 1 k] using this⟩
            simp_all

/-- A string written is the string read. -/
theorem Memory.readBytes_writeBytes (m : Memory) (a : Nat) (str : List Byte) :
    (m.writeBytes a str).readBytes a str.length = .ok str :=
  Memory.readBytes_eq_ok.2 ⟨rfl, fun k h => Memory.read?_writeBytes_in m a k str h⟩

/-- Reading stops at the first byte that nothing has written. -/
theorem Memory.readBytes_unwritten {m : Memory} {a n k : Nat} (hk : k < n)
    (hb : ∀ j, j < k → m.read? (a + j) ≠ none) (hu : m.read? (a + k) = none) :
    m.readBytes a n = .error (.uninitRead (a + k)) := by
  induction n generalizing a k with
  | zero => omega
  | succ n ih =>
    simp only [Memory.readBytes]
    cases k with
    | zero => simp only [Nat.add_zero] at hu; simp [hu]
    | succ k =>
      have h0 := hb 0 (by omega)
      simp only [Nat.add_zero] at h0
      cases hr : m.read? a with
      | none => exact absurd hr h0
      | some b =>
        have := ih (a := a + 1) (k := k) (by omega)
          (fun j hj => by
            have := hb (j + 1) (by omega)
            simpa [Nat.add_assoc, Nat.add_comm 1 j] using this)
          (by simpa [Nat.add_assoc, Nat.add_comm 1 k] using hu)
        simp [this, Nat.add_assoc, Nat.add_comm 1 k]

/-! ## Host lanes -/

theorem wf_writeLanes {tb base : Nat} {w : Word} {lanes : List Nat} {m : Memory} (h : m.wf) :
    (writeLanes tb base w lanes m).wf := by
  induction lanes generalizing m with
  | nil => exact h
  | cons b bs ih =>
    simp only [writeLanes]
    apply ih
    split
    · exact Memory.wf_write h _ _
    · exact h

theorem mem_writeLanes {tb base : Nat} {w : Word} {lanes : List Nat} {m : Memory} {c : Host.Cell}
    (h : c ∈ writeLanes tb base w lanes m) : c.1 < tb ∨ c ∈ m := by
  induction lanes generalizing m with
  | nil => exact .inr h
  | cons b bs ih =>
    simp only [writeLanes] at h
    rcases ih h with h | h
    · exact .inl h
    · split at h
      · rename_i hlt
        rcases Memory.mem_write h with rfl | h
        · exact .inl hlt
        · exact .inr h
      · exact .inr h

theorem read?_writeLanes (tb base : Nat) (w : Word) (lanes : List Nat) (m : Memory) (k : Nat)
    (hn : lanes.Nodup) :
    (writeLanes tb base w lanes m).read? k =
      if base ≤ k ∧ k < tb ∧ k - base ∈ lanes then some (byteLane w (k - base)) else m.read? k := by
  induction lanes generalizing m with
  | nil => simp [writeLanes]
  | cons b bs ih =>
    obtain ⟨hb, hn⟩ := List.nodup_cons.1 hn
    simp only [writeLanes, ih _ hn]
    by_cases h : base ≤ k ∧ k < tb ∧ k - base ∈ bs
    · simp [h]
    · rw [if_neg h]
      by_cases hk : base + b = k
      · subst hk
        by_cases ht : base + b < tb
        · simp [ht]
        · simp [ht]
      · have h2 : ¬(base ≤ k ∧ k < tb ∧ k - base ∈ b :: bs) := by
          rintro ⟨h1, h3, h4⟩
          rcases List.mem_cons.1 h4 with h4 | h4
          · omega
          · exact h ⟨h1, h3, h4⟩
        rw [if_neg h2]
        split
        · exact Memory.read?_write_ne _ _ _ _ (Ne.symm hk)
        · rfl

end Sys2Proof.Machine
end

