-- ==== Sys2Proof/Laws/Ops.lean ====
section
/-! SUPPORT. What each shared operation does, said once: completing, raising, reading the text, writing it, the
checks of the signed extension, and the frames of a command that writes registers. -/

namespace Sys2Proof.Machine

variable {s t : State} {i : Instr}

/-! ## Completing and raising -/

@[simp] theorem complete_eq_next {len : Nat} : complete len s = .next t ↔ s.advance len = t := by
  simp [complete]

@[simp] theorem raise_eq_next {c : FCause} : raise c s = .next t ↔ s.enterFault c = t := by
  simp [raise]

theorem faultsWith_iff {c : FCause} : FaultsWith i s c ↔ exec i s = raise c s := Iff.rfl

/-! ## Frames -/

theorem writesRegs_setReg (rd : Reg) (v : U256) : WritesRegs s (s.setReg rd v) [(rd, v)] := by
  refine ⟨?_, ?_⟩
  · intro w hw
    rw [List.mem_singleton.1 hw]
    simp
  · intro r hr
    have hne : r ≠ rd := by simpa using hr
    exact ⟨State.getReg_setReg_ne s rd r v hne, by rw [State.written_setReg, if_neg hne]⟩

theorem writesRegs_setReg₂ {rd rd2 : Reg} (h : rd ≠ rd2) (v w : U256) :
    WritesRegs s ((s.setReg rd v).setReg rd2 w) [(rd, v), (rd2, w)] := by
  refine ⟨?_, ?_⟩
  · intro x hx
    rcases List.mem_cons.1 hx with rfl | hx
    · refine ⟨?_, ?_⟩
      · rw [State.getReg_setReg_ne _ _ _ _ h, State.getReg_setReg_self]
      · rw [State.regWritten, State.written_setReg, if_neg h]
        exact State.regWritten_setReg_self s rd v
    · rw [List.mem_singleton.1 hx]
      simp
  · intro r hr
    have hr' : r ≠ rd ∧ r ≠ rd2 := by simpa using hr
    exact ⟨by rw [State.getReg_setReg_ne _ _ _ _ hr'.2, State.getReg_setReg_ne _ _ _ _ hr'.1],
      by rw [State.written_setReg, if_neg hr'.2, State.written_setReg, if_neg hr'.1]⟩

theorem sameText_refl : SameText s s := ⟨rfl, fun _ => rfl⟩

theorem sameControl_refl : SameControl s s := ⟨rfl, rfl, rfl, rfl, rfl, rfl, rfl⟩

/-- A one-word command that completes after writing one register. -/
theorem completes_of_setReg {rd : Reg} {v : U256} (h : exec i s = complete 1 (s.setReg rd v)) :
    Completes i s rd v :=
  ⟨(s.setReg rd v).advance 1, h, writesRegs_setReg rd v, rfl, rfl, sameText_refl, sameControl_refl, rfl, rfl, rfl⟩

/-- A one-word reporting form, which writes one register and OVF. -/
theorem completesWith_of_setReg_setOvf {rd : Reg} {v : U256} {b : Bool}
    (h : exec i s = complete 1 ((s.setReg rd v).setOvf b)) : CompletesWith i s [(rd, v)] b :=
  ⟨((s.setReg rd v).setOvf b).advance 1, h, writesRegs_setReg rd v, rfl, rfl, sameText_refl, sameControl_refl, rfl,
    rfl, rfl⟩

/-- A one-word command that writes two registers. -/
theorem completesWith_of_setReg₂ {rd rd2 : Reg} {v w : U256} (hne : rd ≠ rd2)
    (h : exec i s = complete 1 ((s.setReg rd v).setReg rd2 w)) :
    CompletesWith i s [(rd, v), (rd2, w)] s.ovf :=
  ⟨((s.setReg rd v).setReg rd2 w).advance 1, h, writesRegs_setReg₂ hne v w, rfl, rfl, sameText_refl,
    sameControl_refl, rfl, rfl, rfl⟩

/-! ## The text -/

/-- Reading the text gives exactly the string TBUF holds. -/
theorem State.text_eq_ok {str : List Byte} : s.text = .ok str ↔ HasText s str := by
  simp only [State.text, State.memRead, HasText, Nat.zero_add]
  split
  · rename_i h
    simp only [reduceCtorEq, false_iff]
    rintro ⟨h1, h2, -⟩
    omega
  · rename_i h
    rw [Memory.readBytes_eq_ok]
    simp only [Nat.zero_add]
    constructor
    · rintro ⟨h1, h2⟩
      exact ⟨h1.symm, by omega, h2⟩
    · rintro ⟨h1, -, h3⟩
      exact ⟨h1.symm, h3⟩

/-- Reading the text stops at its first unwritten byte. -/
theorem State.text_of_unwritten {k : Nat} (hk : k < s.tlen.toNat) (hl : s.tlen.toNat ≤ s.cfg.tbufBytes)
    (hb : ∀ j, j < k → s.tbuf.read? j ≠ none) (hu : s.tbuf.read? k = none) :
    s.text = .error (.uninitRead k) := by
  have h := Memory.readBytes_unwritten (m := s.tbuf) (a := 0) hk (by simpa using hb) (by simpa using hu)
  rw [Nat.zero_add] at h
  rw [State.text, State.memRead, if_neg (by omega), h]

/-- A string that fits is written, its first byte at `a`. -/
theorem State.memWrite_of_fits {a : Nat} {str : List Byte} (h : a + str.length ≤ s.cfg.tbufBytes) :
    s.memWrite a str = .ok (s.setTbuf (s.tbuf.writeBytes a str)) := by
  rw [State.memWrite, if_neg (by omega)]

/-- A parse command of a readable text. -/
theorem parseCommand_of_hasText {parse : List Byte → Except PErr U256} {rd : Reg} {str : List Byte}
    (h : HasText s str) : parseCommand parse rd s = complete 1 (s.writeParse rd (parse str)) := by
  rw [parseCommand, State.text_eq_ok.2 h]

/-! ## Checks of the signed extension -/

theorem signedCommand_of_present {r : Result} (h : s.cfg.hasSigned = true) : signedCommand s r = r := by
  rw [signedCommand, if_pos h]

theorem signedCommand_of_absent {r : Result} (h : s.cfg.hasSigned = false) :
    signedCommand s r = raise .illegalCommand s := by
  rw [signedCommand, if_neg (by simp [h])]

theorem nonzeroDivisor_of_zero {r : Result} : nonzeroDivisor 0 s r = raise .divideByZero s := by
  rw [nonzeroDivisor, if_pos rfl]

theorem nonzeroDivisor_of_ne {y : U256} {r : Result} (h : y ≠ 0) : nonzeroDivisor y s r = r := by
  rw [nonzeroDivisor, if_neg h]

/-- A signed division with a nonzero divisor writes its result. -/
theorem signedDivision_of_ne {f : U256 → U256 → U256} {rd rs1 rs2 : Reg} (hs : s.cfg.hasSigned = true)
    (h : s.getReg rs2 ≠ 0) :
    signedDivision f rd rs1 rs2 s = complete 1 (s.setReg rd (f (s.getReg rs1) (s.getReg rs2))) := by
  rw [signedDivision, signedCommand_of_present hs, nonzeroDivisor_of_ne h]

/-! ## The unsigned engine -/

theorem udivrem_of_ne {mode : RemuDiv0} {x y : U256} (h : y ≠ 0) : udivrem mode x y = (x / y, x % y) := by
  simp only [udivrem, if_neg h]

theorem udivrem_of_zero {mode : RemuDiv0} {x : U256} : (udivrem mode x 0).1 = 0 := by
  simp [udivrem]

/-! ## The outcome of a command -/

theorem addDelta_kind (base delta : U256) : (addDelta base delta).kind ≠ .none := by
  rw [addDelta]
  split <;> simp

/-- What a parse writes is a register, PERR or both. -/
theorem State.writeParse_control (rd : Reg) (r : Except PErr U256) :
    SameControl s (s.writeParse rd r) ∧ (s.writeParse rd r).pc = s.pc := by
  cases r <;> exact ⟨sameControl_refl, rfl⟩

theorem State.memWrite_control {a : Nat} {str : List Byte} (h : s.memWrite a str = .ok t) :
    SameControl s t ∧ t.pc = s.pc := by
  rw [State.memWrite] at h
  split at h
  · cases h
  · cases h
    exact ⟨sameControl_refl, rfl⟩

/-- A command raises a fault, or completes and leaves the control state alone, or stops on its text. -/
theorem exec_shape (i : Instr) (s : State) :
    (∃ c, c ≠ .none ∧ exec i s = raise c s) ∨
    (∃ u, exec i s = complete i.length u ∧ SameControl s u ∧ u.pc = s.pc) ∨
    ∃ f, exec i s = .fault f := by
  cases i
  all_goals
    simp only [exec, execZero, execOne, execLdu64, execEq, execLt, execCmp, execAdd, execAddo, execSub, execSubo,
      execSubu, execMul, execMulo, execMulw, execDivu, execRemu, execDivremu, execLsh, execRsh, execSrsh,
      execParsed, execFmtd, execParseh, execTou64, execSign, execAbs, execNeg, execSdiv, execSrem, execSquo,
      execSmod, execSdive, execSmode, execAddd, execAdddo, execToi64, parseCommand, signedDivision,
      signedCommand, nonzeroDivisor, Instr.length]
    repeat' split
    all_goals first
      | exact .inl ⟨_, addDelta_kind _ _, rfl⟩
      | exact .inl ⟨_, by simp, rfl⟩
      | exact .inr (.inl ⟨_, rfl, State.writeParse_control _ _⟩)
      | (rename_i s' h
         have hc := State.memWrite_control h
         exact .inr (.inl ⟨_, rfl, hc.1, hc.2⟩))
      | exact .inr (.inl ⟨_, rfl, sameControl_refl, rfl⟩)
      | exact .inr (.inr ⟨_, rfl⟩)

end Sys2Proof.Machine
end

