-- ==== Sys2Proof/Laws/PerInstr.lean ====
section
/-! SUPPORT. A statement for every command, one lemma a constructor: its encoding has the length of R132 and the
opcode, the format and the S mark of one row of the map (30_encoding.md R126). -/

namespace Sys2Proof.Laws.Encodes

/-- The words of `i` are as many as its length, and the first has the opcode of a row of the map whose S mark is
that of `i` and whose format is L iff `i` has two words. -/
def Statement (i : Instr) : Prop :=
  (encode i).length = i.length ∧
    ∃ r ∈ opcodeTable, (encode i).head?.map opField = some r.op ∧ r.signed = i.signed ∧
      (r.fmt = .L ↔ i.length = 2)

/-- The opcode of a packed word. -/
theorem opField_packed (op : Byte) (rd rs1 rs2 rd2 : Reg) (imm32 : BitVec 32) :
    opField (packWord op rd rs1 rs2 rd2 imm32) = op := by
  simp only [opField, packWord]
  exact BitVec.extractLsb'_append_eq_right

theorem zero (rd : Reg) : Statement (.zero rd) :=
  ⟨rfl, rowD 0x01 .zero, List.mem_of_getElem? (i := 0) rfl, congrArg some (opField_packed _ _ _ _ _ _), rfl,
    by simp [rowD, Instr.length]⟩

theorem one (rd : Reg) : Statement (.one rd) :=
  ⟨rfl, rowD 0x02 .one, List.mem_of_getElem? (i := 1) rfl, congrArg some (opField_packed _ _ _ _ _ _), rfl,
    by simp [rowD, Instr.length]⟩

theorem ldu64 (rd : Reg) (imm64 : Word) : Statement (.ldu64 rd imm64) :=
  ⟨rfl, rowL 0x03 .ldu64, List.mem_of_getElem? (i := 2) rfl, congrArg some (opField_packed _ _ _ _ _ _), rfl,
    by simp [rowL, Instr.length]⟩

theorem eq (rd rs1 rs2 : Reg) : Statement (.eq rd rs1 rs2) :=
  ⟨rfl, rowDSS 0x08 false .eq, List.mem_of_getElem? (i := 3) rfl, congrArg some (opField_packed _ _ _ _ _ _), rfl,
    by simp [rowDSS, Instr.length]⟩

theorem lt (rd rs1 rs2 : Reg) : Statement (.lt rd rs1 rs2) :=
  ⟨rfl, rowDSS 0x09 false .lt, List.mem_of_getElem? (i := 4) rfl, congrArg some (opField_packed _ _ _ _ _ _), rfl,
    by simp [rowDSS, Instr.length]⟩

theorem cmp (rd rs1 rs2 : Reg) : Statement (.cmp rd rs1 rs2) :=
  ⟨rfl, rowDSS 0x0A false .cmp, List.mem_of_getElem? (i := 5) rfl, congrArg some (opField_packed _ _ _ _ _ _), rfl,
    by simp [rowDSS, Instr.length]⟩

theorem add (rd rs1 rs2 : Reg) : Statement (.add rd rs1 rs2) :=
  ⟨rfl, rowDSS 0x10 false .add, List.mem_of_getElem? (i := 6) rfl, congrArg some (opField_packed _ _ _ _ _ _), rfl,
    by simp [rowDSS, Instr.length]⟩

theorem addo (rd rs1 rs2 : Reg) : Statement (.addo rd rs1 rs2) :=
  ⟨rfl, rowDSS 0x11 false .addo, List.mem_of_getElem? (i := 7) rfl, congrArg some (opField_packed _ _ _ _ _ _), rfl,
    by simp [rowDSS, Instr.length]⟩

theorem sub (rd rs1 rs2 : Reg) : Statement (.sub rd rs1 rs2) :=
  ⟨rfl, rowDSS 0x14 false .sub, List.mem_of_getElem? (i := 8) rfl, congrArg some (opField_packed _ _ _ _ _ _), rfl,
    by simp [rowDSS, Instr.length]⟩

theorem subo (rd rs1 rs2 : Reg) : Statement (.subo rd rs1 rs2) :=
  ⟨rfl, rowDSS 0x15 false .subo, List.mem_of_getElem? (i := 9) rfl, congrArg some (opField_packed _ _ _ _ _ _), rfl,
    by simp [rowDSS, Instr.length]⟩

theorem subu (rd rs1 rs2 : Reg) : Statement (.subu rd rs1 rs2) :=
  ⟨rfl, rowDSS 0x16 false .subu, List.mem_of_getElem? (i := 10) rfl, congrArg some (opField_packed _ _ _ _ _ _), rfl,
    by simp [rowDSS, Instr.length]⟩

theorem mul (rd rs1 rs2 : Reg) : Statement (.mul rd rs1 rs2) :=
  ⟨rfl, rowDSS 0x18 false .mul, List.mem_of_getElem? (i := 11) rfl, congrArg some (opField_packed _ _ _ _ _ _), rfl,
    by simp [rowDSS, Instr.length]⟩

theorem mulo (rd rs1 rs2 : Reg) : Statement (.mulo rd rs1 rs2) :=
  ⟨rfl, rowDSS 0x19 false .mulo, List.mem_of_getElem? (i := 12) rfl, congrArg some (opField_packed _ _ _ _ _ _), rfl,
    by simp [rowDSS, Instr.length]⟩

theorem mulw (rd rd2 rs1 rs2 : Reg) : Statement (.mulw rd rd2 rs1 rs2) :=
  ⟨rfl, rowDDSS 0x1A .mulw, List.mem_of_getElem? (i := 13) rfl, congrArg some (opField_packed _ _ _ _ _ _), rfl,
    by simp [rowDDSS, Instr.length]⟩

theorem divu (rd rs1 rs2 : Reg) : Statement (.divu rd rs1 rs2) :=
  ⟨rfl, rowDSS 0x20 false .divu, List.mem_of_getElem? (i := 14) rfl, congrArg some (opField_packed _ _ _ _ _ _), rfl,
    by simp [rowDSS, Instr.length]⟩

theorem remu (rd rs1 rs2 : Reg) : Statement (.remu rd rs1 rs2) :=
  ⟨rfl, rowDSS 0x21 false .remu, List.mem_of_getElem? (i := 15) rfl, congrArg some (opField_packed _ _ _ _ _ _), rfl,
    by simp [rowDSS, Instr.length]⟩

theorem divremu (rd rd2 rs1 rs2 : Reg) : Statement (.divremu rd rd2 rs1 rs2) :=
  ⟨rfl, rowDDSS 0x22 .divremu, List.mem_of_getElem? (i := 16) rfl, congrArg some (opField_packed _ _ _ _ _ _), rfl,
    by simp [rowDDSS, Instr.length]⟩

theorem lsh (rd rs1 : Reg) (n : BitVec 32) : Statement (.lsh rd rs1 n) :=
  ⟨rfl, rowDSI 0x28 .lsh, List.mem_of_getElem? (i := 17) rfl, congrArg some (opField_packed _ _ _ _ _ _), rfl,
    by simp [rowDSI, Instr.length]⟩

theorem rsh (rd rs1 : Reg) (n : BitVec 32) : Statement (.rsh rd rs1 n) :=
  ⟨rfl, rowDSI 0x29 .rsh, List.mem_of_getElem? (i := 18) rfl, congrArg some (opField_packed _ _ _ _ _ _), rfl,
    by simp [rowDSI, Instr.length]⟩

theorem srsh (rd rs1 : Reg) (n : BitVec 32) : Statement (.srsh rd rs1 n) :=
  ⟨rfl, rowDSI 0x2A .srsh, List.mem_of_getElem? (i := 19) rfl, congrArg some (opField_packed _ _ _ _ _ _), rfl,
    by simp [rowDSI, Instr.length]⟩

theorem parsed (rd : Reg) : Statement (.parsed rd) :=
  ⟨rfl, rowD 0x30 .parsed, List.mem_of_getElem? (i := 20) rfl, congrArg some (opField_packed _ _ _ _ _ _), rfl,
    by simp [rowD, Instr.length]⟩

theorem fmtd (rs1 : Reg) : Statement (.fmtd rs1) :=
  ⟨rfl, rowS 0x31 .fmtd, List.mem_of_getElem? (i := 21) rfl, congrArg some (opField_packed _ _ _ _ _ _), rfl,
    by simp [rowS, Instr.length]⟩

theorem parseh (rd : Reg) : Statement (.parseh rd) :=
  ⟨rfl, rowD 0x32 .parseh, List.mem_of_getElem? (i := 22) rfl, congrArg some (opField_packed _ _ _ _ _ _), rfl,
    by simp [rowD, Instr.length]⟩

theorem tou64 (rd rs1 : Reg) : Statement (.tou64 rd rs1) :=
  ⟨rfl, rowDS 0x33 false .tou64, List.mem_of_getElem? (i := 23) rfl, congrArg some (opField_packed _ _ _ _ _ _), rfl,
    by simp [rowDS, Instr.length]⟩

theorem sign (rd rs1 : Reg) : Statement (.sign rd rs1) :=
  ⟨rfl, rowDS 0x40 true .sign, List.mem_of_getElem? (i := 24) rfl, congrArg some (opField_packed _ _ _ _ _ _), rfl,
    by simp [rowDS, Instr.length]⟩

theorem abs (rd rs1 : Reg) : Statement (.abs rd rs1) :=
  ⟨rfl, rowDS 0x41 true .abs, List.mem_of_getElem? (i := 25) rfl, congrArg some (opField_packed _ _ _ _ _ _), rfl,
    by simp [rowDS, Instr.length]⟩

theorem neg (rd rs1 : Reg) : Statement (.neg rd rs1) :=
  ⟨rfl, rowDS 0x42 true .neg, List.mem_of_getElem? (i := 26) rfl, congrArg some (opField_packed _ _ _ _ _ _), rfl,
    by simp [rowDS, Instr.length]⟩

theorem sdiv (rd rs1 rs2 : Reg) : Statement (.sdiv rd rs1 rs2) :=
  ⟨rfl, rowDSS 0x48 true .sdiv, List.mem_of_getElem? (i := 27) rfl, congrArg some (opField_packed _ _ _ _ _ _), rfl,
    by simp [rowDSS, Instr.length]⟩

theorem srem (rd rs1 rs2 : Reg) : Statement (.srem rd rs1 rs2) :=
  ⟨rfl, rowDSS 0x49 true .srem, List.mem_of_getElem? (i := 28) rfl, congrArg some (opField_packed _ _ _ _ _ _), rfl,
    by simp [rowDSS, Instr.length]⟩

theorem squo (rd rs1 rs2 : Reg) : Statement (.squo rd rs1 rs2) :=
  ⟨rfl, rowDSS 0x4A true .squo, List.mem_of_getElem? (i := 29) rfl, congrArg some (opField_packed _ _ _ _ _ _), rfl,
    by simp [rowDSS, Instr.length]⟩

theorem smod (rd rs1 rs2 : Reg) : Statement (.smod rd rs1 rs2) :=
  ⟨rfl, rowDSS 0x4B true .smod, List.mem_of_getElem? (i := 30) rfl, congrArg some (opField_packed _ _ _ _ _ _), rfl,
    by simp [rowDSS, Instr.length]⟩

theorem sdive (rd rs1 rs2 : Reg) : Statement (.sdive rd rs1 rs2) :=
  ⟨rfl, rowDSS 0x4C true .sdive, List.mem_of_getElem? (i := 31) rfl, congrArg some (opField_packed _ _ _ _ _ _), rfl,
    by simp [rowDSS, Instr.length]⟩

theorem smode (rd rs1 rs2 : Reg) : Statement (.smode rd rs1 rs2) :=
  ⟨rfl, rowDSS 0x4D true .smode, List.mem_of_getElem? (i := 32) rfl, congrArg some (opField_packed _ _ _ _ _ _), rfl,
    by simp [rowDSS, Instr.length]⟩

theorem addd (rd rs1 rs2 : Reg) : Statement (.addd rd rs1 rs2) :=
  ⟨rfl, rowDSS 0x50 true .addd, List.mem_of_getElem? (i := 33) rfl, congrArg some (opField_packed _ _ _ _ _ _), rfl,
    by simp [rowDSS, Instr.length]⟩

theorem adddo (rd rs1 rs2 : Reg) : Statement (.adddo rd rs1 rs2) :=
  ⟨rfl, rowDSS 0x51 true .adddo, List.mem_of_getElem? (i := 34) rfl, congrArg some (opField_packed _ _ _ _ _ _), rfl,
    by simp [rowDSS, Instr.length]⟩

theorem toi64 (rd rs1 : Reg) : Statement (.toi64 rd rs1) :=
  ⟨rfl, rowDS 0x52 true .toi64, List.mem_of_getElem? (i := 35) rfl, congrArg some (opField_packed _ _ _ _ _ _), rfl,
    by simp [rowDS, Instr.length]⟩

end Sys2Proof.Laws.Encodes
end

