-- ==== Sys2Proof/Laws/Run.lean ====
section
/-! SUPPORT. The command words of a run among the pending accesses, and its outcome (70_reset_and_hazards.md
R430). -/

namespace Sys2Proof.Machine

/-! ## Command words -/

@[simp] theorem commandWord?_pushWord (w : Word) : (pushWord w).commandWord? = some w := rfl

/-- An access with a command word is the push of that word. -/
theorem eq_pushWord_of_commandWord? {a : HostAccess} {w : Word} (h : a.commandWord? = some w) :
    a = pushWord w := by
  cases a with
  | write offset bytes v =>
    simp only [HostAccess.commandWord?] at h
    split at h
    · rename_i hc
      cases h
      rw [hc.1, hc.2, pushWord]
    · cases h
  | read offset bytes => cases h
  | reset => cases h

@[simp] theorem runWords_nil : runWords [] = [] := rfl

@[simp] theorem runWords_pushWord_cons (w : Word) (l : List HostAccess) :
    runWords (pushWord w :: l) = w :: runWords l := rfl

/-- A reset ends the run. -/
@[simp] theorem runWords_reset_cons (l : List HostAccess) : runWords (.reset :: l) = [] := rfl

/-- An access that is no push and no reset adds no word. -/
theorem runWords_cons_of_none {a : HostAccess} {l : List HostAccess} (hr : a ≠ .reset)
    (h : a.commandWord? = none) : runWords (a :: l) = runWords l := by
  simp [runWords, hr, h]

/-- Accesses without a reset belong to the run of what follows them. -/
theorem runWords_append {l l' : List HostAccess} (h : .reset ∉ l) :
    runWords (l ++ l') = runWords l ++ runWords l' := by
  induction l with
  | nil => rfl
  | cons a l ih =>
    obtain ⟨ha, hl⟩ := not_or.1 (mt List.mem_cons.2 h)
    have ih := ih hl
    cases hw : a.commandWord? with
    | none => simpa [runWords_cons_of_none (Ne.symm ha) hw] using ih
    | some w => simpa [eq_pushWord_of_commandWord? hw] using ih

/-! ## Outcome -/

theorem State.outcome_eq_none {s : State} : s.outcome = none ↔ ¬s.ended := by
  unfold State.outcome
  by_cases h : s.ended
  · rw [if_pos h]
    exact ⟨nofun, fun hn => absurd h hn⟩
  · rw [if_neg h]
    exact ⟨fun _ => h, fun _ => rfl⟩

theorem State.outcome_of_ended {s : State} (h : s.ended) :
    s.outcome = some (if s.fault then .fault s.fcause s.fpc else .success) := if_pos h

/-- Success is an ended run with FAULT = 0. -/
theorem State.succeeded_iff {s : State} : s.succeeded ↔ s.ended ∧ s.fault = false := by
  by_cases h : s.ended
  · rw [and_iff_right h, State.succeeded, State.outcome_of_ended h]
    cases s.fault <;> simp
  · rw [State.succeeded, State.outcome_eq_none.2 h]
    exact ⟨nofun, fun he => absurd he.1 h⟩

/-- A fault outcome is an ended run with FAULT = 1, and reports FCAUSE and FPC. -/
theorem State.outcome_eq_fault {s : State} {c : FCause} {p : BitVec 32} :
    s.outcome = some (.fault c p) ↔ s.ended ∧ s.fault = true ∧ s.fcause = c ∧ s.fpc = p := by
  by_cases h : s.ended
  · rw [and_iff_right h, State.outcome_of_ended h]
    cases s.fault <;> simp
  · rw [State.outcome_eq_none.2 h]
    exact ⟨nofun, fun he => absurd he.1 h⟩

end Sys2Proof.Machine
end

