-- ==== Sys2Proof/Laws/Text.lean ====
section
/-! SUPPORT. The strings of the codecs: the loops of Machine/Text.lean in closed form, the constant of the range
check, and the codes a parse can give. -/

namespace Sys2Proof.Machine

/-! ## Stripping (R281) -/

theorem stripPlus_eq (str : List Byte) :
    stripPlus str = if str.head? = some 0x2B then str.tail else str := by
  cases str <;> simp [stripPlus]

theorem stripZeros_eq (str : List Byte) : stripZeros str = str.dropWhile (· == 0x30) := by
  induction str with
  | nil => rfl
  | cons b bs ih =>
    by_cases h : b = 0x30
    · simp [stripZeros, h, ih]
    · rw [stripZeros, if_neg h, List.dropWhile_cons_of_neg]
      simpa using h

/-! ## Characters (R280, R56) -/

theorem isDigit_digitByte {d : Nat} (h : d < 10) : isDigit (digitByte d) = true := by
  interval_cases d <;> rfl

theorem digitValue_digitByte {d : Nat} (h : d < 10) : digitValue (digitByte d) = d := by
  interval_cases d <;> rfl

/-- R56: NIB gives exactly the values in numbers; every other byte is BAD. -/
theorem nib_eq_some_iff {b : Byte} {n : Nat} : nib b = some n ↔ IsNibble b n := by
  unfold nib IsNibble
  repeat' split
  all_goals
    simp only [Option.some.injEq, reduceCtorEq, false_iff]
    omega

theorem nib_lt {b : Byte} {n : Nat} (h : nib b = some n) : n < 16 := by
  rcases nib_eq_some_iff.1 h with h | h <;> omega

/-! ## Values (R284, R301) -/

/-- A positional fold is `Nat.ofDigits` of the reversed digits. -/
theorem foldl_digits (base : Nat) (f : Byte → Nat) (str : List Byte) (acc : Nat) :
    str.foldl (fun a b => base * a + f b) acc =
      Nat.ofDigits base (str.reverse.map f) + base ^ str.length * acc := by
  induction str generalizing acc with
  | nil => simp
  | cons b bs ih =>
    simp only [List.foldl_cons, ih, List.reverse_cons, List.map_append, List.map_cons, List.map_nil,
      Nat.ofDigits_append, Nat.ofDigits_singleton, List.length_map, List.length_reverse, List.length_cons]
    ring

theorem decValue_eq (str : List Byte) : decValue str = Nat.ofDigits 10 (str.reverse.map digitValue) := by
  simp [decValue, foldl_digits]

theorem hexValue_eq (str : List Byte) : hexValue str = Nat.ofDigits 16 (str.reverse.map nibValue) := by
  simp [hexValue, foldl_digits]

/-- A digit section of R56 has the hex value of its digit values. -/
theorem hexValue_of_forall₂ {d : List Byte} {ns : List Nat} (h : List.Forall₂ IsNibble d ns) :
    hexValue d = Nat.ofDigits 16 ns.reverse := by
  have hm : d.map nibValue = ns := by
    induction h with
    | nil => rfl
    | cons hb _ ih => rw [List.map_cons, ih, nibValue, nib_eq_some_iff.2 hb, Option.getD_some]
  rw [hexValue_eq, List.map_reverse, hm]

/-! ## The range constant (R57) -/

theorem maxDec_length : maxDec.length = 78 := by decide

theorem maxDec_isDigit : maxDec.all isDigit = true := by decide

/-- R57: the digits of MAXDEC denote 2^256 - 1. -/
theorem decValue_maxDec : decValue maxDec = 2 ^ 256 - 1 := by decide +kernel

/-! ## Codes of a parse (R396, R398) -/

/-- PARSED reports EMPTY_STRING, SYNTAX or RANGE, or succeeds. -/
theorem parseDec_error {str : List Byte} {e : PErr} (h : parseDec str = .error e) :
    e = .emptyString ∨ e = .syntaxError ∨ e = .range := by
  unfold parseDec at h
  simp only at h
  repeat' split at h
  all_goals first
    | (cases h; simp)
    | cases h

/-- PARSEH reports one of its six codes, or succeeds. -/
theorem parseHex_error {str : List Byte} {e : PErr} (h : parseHex str = .error e) :
    e = .emptyString ∨ e = .missingPrefix ∨ e = .emptyNumber ∨ e = .leadingZero ∨ e = .range ∨
      e = .syntaxError := by
  unfold parseHex at h
  repeat' split at h
  all_goals first
    | (cases h; simp)
    | cases h

end Sys2Proof.Machine
end

