-- ==== Sys2Proof/Tests/Slice0.lean ====
section
/-! SUPPORT. Tests and witnesses. Expected values are those of spec/95_test_vectors.md (the vector is named in the
comment) or of the worked examples of the command's own rule. The witnesses show that the hypotheses of each
statement of Obligations.lean can be met, at the boundary values of its clauses. -/

namespace Sys2Proof.Tests

open Sys2Proof.Machine

-- One theorem at a time: each check by the kernel would otherwise hold a thread of its own.
set_option Elab.async false

/-! ## Building states and reading outcomes -/

/-- The state after reset with some registers written. -/
def withRegs (l : List (Reg × U256)) : State := l.foldl (fun s p => s.setReg p.1 p.2) State.reset

/-- The state with a text in TBUF. -/
def withText (str : List Byte) (s : State) : State :=
  { s with tbuf := Memory.writeBytes [] 0 str, tlen := BitVec.ofNat 16 str.length }

/-- The state with these host accesses pending. -/
def withHost (l : List HostAccess) (s : State) : State := s.setHost l

/-- One step on a pushed word. -/
def stepWord (w : Word) (s : State) : Result := step (withHost [pushWord w] s)

/-- The next state has a property. -/
def after (r : Result) (p : State → Bool) : Bool :=
  match r with
  | .next t => p t
  | .fault _ => false
  | .refused _ => false

/-- The step of a word of format DSS: U2 from U0 = x and U1 = y. -/
def run2 (op : Word) (x y : U256) : Result := stepWord (0x10200 + op) (withRegs [(0, x), (1, y)])

/-- The step of a word of format DS: U1 from U0 = x. -/
def run1 (op : Word) (x : U256) : Result := stepWord (0x100 + op) (withRegs [(0, x)])

/-- The step of a word of format DSI: U1 from U0 = x by n. -/
def runShift (op : Word) (x : U256) (n : Word) : Result := stepWord (n <<< 32 + 0x100 + op) (withRegs [(0, x)])

/-- The command completed: `rd` holds `v`, PC is 1, and OVF and FAULT are 0. -/
def gives (r : Result) (rd : Reg) (v : U256) : Bool :=
  after r fun t => t.getReg rd == v && t.pc == 1 && !t.fault && !t.ovf && !t.busy

/-- A reporting form completed with OVF. -/
def givesOvf (r : Result) (rd : Reg) (v : U256) (ovf : Bool) : Bool :=
  after r fun t => t.getReg rd == v && t.ovf == ovf && !t.fault

/-- The command faulted: the destination U2 is not written, and FPC and PC are 0. -/
def faults (r : Result) (c : FCause) : Bool :=
  after r fun t => t.fault && t.fcause == c && t.fpc == 0 && t.pc == 0 && !t.regWritten 2 && !t.ovf

/-- The pattern of a negative number. -/
def neg (k : Nat) : U256 := BitVec.ofNat 256 (2 ^ 256 - k)

/-- The value 2^k. -/
def pow2 (k : Nat) : U256 := BitVec.ofNat 256 (2 ^ k)

/-- The value X of section 2.3. -/
def valX : U256 := 0x1234567890abcdef1234567890abcdef1234567890abcdef1234567890abcdef

/-- The value Y of section 2.3. -/
def valY : U256 := 0xfedcba0987654321fedcba0987654321fedcba0987654321fedcba0987654321

/-- The value S of section 2.5. -/
def valS : U256 := 0x8000000000000001000000000000000200000000000000030000000000000004

/-! ## WellFormed refuses the ill-formed terms -/

theorem test_wellFormed_refuses_signed_without_extension : (Instr.sdiv 3 1 2).wellFormed false = false := by decide
theorem test_wellFormed_refuses_mulw_same_destination : (Instr.mulw 3 3 1 2).wellFormed true = false := by decide
theorem test_wellFormed_refuses_divremu_same_destination :
    (Instr.divremu 3 3 1 2).wellFormed true = false := by decide
theorem test_wellFormed_accepts :
    (Instr.mulw 3 4 1 2).wellFormed false = true ∧ (Instr.sdiv 3 1 2).wellFormed true = true := by decide

/-! ## Decoding: a word of every command, written out from R121, R122, R126 -/

/-- The one-word commands of the base set but the shifts. -/
theorem test_decode_base :
    decode true [0x0000000000000301] = .ok (.zero 3, []) ∧ decode true [0x0000000000000002] = .ok (.one 0, []) ∧
    decode true [0x0000000000021308] = .ok (.eq 3 1 2, []) ∧ decode true [0x0000000000021309] = .ok (.lt 3 1 2, []) ∧
    decode true [0x000000000002130a] = .ok (.cmp 3 1 2, []) ∧
    decode true [0x0000000000021310] = .ok (.add 3 1 2, []) ∧
    decode true [0x0000000000012311] = .ok (.addo 3 2 1, []) ∧
    decode true [0x0000000000021314] = .ok (.sub 3 1 2, []) ∧
    decode true [0x0000000000021315] = .ok (.subo 3 1 2, []) ∧
    decode true [0x0000000000010216] = .ok (.subu 2 0 1, []) := by decide +kernel

theorem test_decode_multiply_divide :
    decode true [0x0000000000010218] = .ok (.mul 2 0 1, []) ∧
    decode true [0x0000000000010219] = .ok (.mulo 2 0 1, []) ∧
    decode true [0x000000000052241a] = .ok (.mulw 4 5 2 2, []) ∧
    decode true [0x000000000042131a] = .ok (.mulw 3 4 1 2, []) ∧
    decode true [0x0000000000010220] = .ok (.divu 2 0 1, []) ∧
    decode true [0x0000000000010221] = .ok (.remu 2 0 1, []) ∧
    decode true [0x0000000000612522] = .ok (.divremu 5 6 2 1, []) := by decide +kernel

theorem test_decode_shift_codec :
    decode true [0x000000fa00000228] = .ok (.lsh 2 0 250, []) ∧
    decode true [0x000000ff00002429] = .ok (.rsh 4 2 255, []) ∧
    decode true [0x000000ff0000452a] = .ok (.srsh 5 4 255, []) ∧
    decode true [0xffffffff00000128] = .ok (.lsh 1 0 0xffffffff, []) ∧
    decode true [0x0000000000000730] = .ok (.parsed 7, []) ∧ decode true [0x0000000000002031] = .ok (.fmtd 2, []) ∧
    decode true [0x0000000000000032] = .ok (.parseh 0, []) ∧
    decode true [0x0000000000000133] = .ok (.tou64 1 0, []) := by decide +kernel

theorem test_decode_signed :
    decode true [0x0000000000001140] = .ok (.sign 1 1, []) ∧ decode true [0x0000000000001141] = .ok (.abs 1 1, []) ∧
    decode true [0x0000000000001142] = .ok (.neg 1 1, []) ∧ decode true [0x0000000000000152] = .ok (.toi64 1 0, []) ∧
    decode true [0x0000000000010250] = .ok (.addd 2 0 1, []) ∧
    decode true [0x0000000000010251] = .ok (.adddo 2 0 1, []) := by decide +kernel

theorem test_decode_signed_division :
    decode true [0x0000000000021348] = .ok (.sdiv 3 1 2, []) ∧
    decode true [0x0000000000021449] = .ok (.srem 4 1 2, []) ∧
    decode true [0x000000000002154a] = .ok (.squo 5 1 2, []) ∧
    decode true [0x000000000002164b] = .ok (.smod 6 1 2, []) ∧
    decode true [0x000000000002174c] = .ok (.sdive 7 1 2, []) ∧
    decode true [0x000000000002184d] = .ok (.smode 8 1 2, []) := by decide +kernel

/-- ENC-4, ENC-5: two words, the second never decoded; with word 0 alone a word is missing. -/
theorem test_decode_ldu64 :
    decode true [0x0000000000000103, 0x00000000000003e8] = .ok (.ldu64 1 1000, []) ∧
    decode true [0x0000000000000103, 0xffffffffffffffff, 7] = .ok (.ldu64 1 0xffffffffffffffff, [7]) ∧
    decode true [0x0000000000000103] = .error (.secondWordMissing 1) := by decide +kernel

/-- ENC-9 to ENC-16. -/
theorem test_decode_rejects_reserved_bits :
    decode true [0x0000000100021310] = .error (.reservedBits 0x10) ∧
    decode true [0x0000000000000000] = .error (.unassignedOpcode 0x00) ∧
    decode true [0xffffffffffffffff] = .error (.unassignedOpcode 0xff) ∧
    decode true [0x0000000000000004] = .error (.unassignedOpcode 0x04) ∧
    decode true [0x0000000000001001] = .error (.reservedBits 0x01) ∧
    decode true [0x0000000000000131] = .error (.reservedBits 0x31) ∧
    decode true [0x0000000000010133] = .error (.reservedBits 0x33) ∧
    decode true [0x0000000001021310] = .error (.reservedBits 0x10) := by decide +kernel

/-- ENC-17, ENC-19 to ENC-23. -/
theorem test_decode_rejects_others :
    decode true [0x000000000032131a] = .error (.sameDestination 3) ∧
    decode true [0x0000000000321322] = .error (.sameDestination 3) ∧
    decode true [0x0000000000010228] = .error (.reservedBits 0x28) ∧
    decode true [0x0000000100000103] = .error (.reservedBits 0x03) ∧
    decode false [0x0000000000001140] = .error (.signedAbsent 0x40) ∧
    decode true [0x0000000000000017] = .error (.unassignedOpcode 0x17) := by decide +kernel

/-- R128: the opcodes with no row are the listed ones, with and without the signed extension. -/
theorem test_illegal_opcodes_are_those_without_a_row :
    opcodeTable.map (fun r => r.op.toNat) =
      (List.range 256).filter (fun op => !decide (op = 0x00 ∨ (0x04 ≤ op ∧ op ≤ 0x07) ∨ (0x0B ≤ op ∧ op ≤ 0x0F) ∨ op = 0x12 ∨ op = 0x13 ∨ op = 0x17 ∨
        (0x1B ≤ op ∧ op ≤ 0x1F) ∨ (0x23 ≤ op ∧ op ≤ 0x27) ∨ (0x2B ≤ op ∧ op ≤ 0x2F) ∨ (0x34 ≤ op ∧ op ≤ 0x3F) ∨
        (0x43 ≤ op ∧ op ≤ 0x47) ∨ op = 0x4E ∨ op = 0x4F ∨ 0x53 ≤ op)) := by decide +kernel

/-- The host's two entry points: LDU64 laid out as bits 127:0, and one step runs it from reset. -/
theorem test_table_word_of_ldu64 :
    decodeTableWord 128 0x00000000000003e80000000000000103 = some (.ldu64 1 1000) ∧
    after (step (State.reset.withFetchWord 128 0x00000000000003e80000000000000103))
      (fun t => t.getReg 1 == 1000 && t.pc == 2 && t.wait2 == none) = true := by decide +kernel

theorem test_table_word_of_add :
    decodeTableWord 64 0x0000000000021310 = some (.add 3 1 2) ∧
    gives (step ((withRegs [(1, 2), (2, 3)]).withFetchWord 64 0x0000000000021310)) 3 5 = true := by decide +kernel

/-! ## One step of each command -/

/-- LA-1. -/
theorem test_zero : gives (stepWord 0x0000000000000301 (withRegs [(3, 9)])) 3 0 = true := by decide +kernel

/-- LA-2. -/
theorem test_one : gives (stepWord 0x0000000000000002 State.reset) 0 1 = true := by decide +kernel

/-- LA-3, R435: word 0 only waits, and the next word is the immediate. -/
theorem test_ldu64 :
    after (stepWord 0x0000000000000103 State.reset)
      (fun t => t.wait2 == some 1 && t.pc == 0 && !t.regWritten 1 && t.statusWord == 0x1008) = true ∧
    after (stepWord 0xffffffffffffffff ((withRegs []).setWait2 (some 1)))
      (fun t => t.getReg 1 == 0xffffffffffffffff && t.pc == 2 && t.wait2 == none) = true := by decide +kernel

/-- LA-4, LA-5. -/
theorem test_eq : gives (run2 0x08 maxValue maxValue) 2 1 = true ∧
    gives (run2 0x08 maxValue (maxValue - pow2 192)) 2 0 = true := by decide +kernel

/-- LA-7, LA-8, LA-9. -/
theorem test_lt : gives (run2 0x09 0 maxValue) 2 1 = true ∧ gives (run2 0x09 minValue 1) 2 0 = true ∧
    gives (run2 0x09 (pow2 64) (pow2 64 - 1)) 2 0 = true := by decide +kernel

/-- LA-11, LA-12, LA-13. -/
theorem test_cmp : gives (run2 0x0a 5 7) 2 maxValue = true ∧ gives (run2 0x0a 7 7) 2 0 = true ∧
    gives (run2 0x0a minValue 1) 2 1 = true := by decide +kernel

/-- LA-14: a destination equal to a source. -/
theorem test_cmp_destination_is_source :
    gives (stepWord 0x000000000001000a (withRegs [(0, 1), (1, 2)])) 0 maxValue = true := by decide +kernel

/-- ADD-1, ADD-2, ADD-3. -/
theorem test_add : gives (run2 0x10 2 3) 2 5 = true ∧ gives (run2 0x10 valX 0) 2 valX = true ∧
    faults (run2 0x10 maxValue 1) .overflow = true := by decide +kernel

/-- ADD-4, ADD-5, ADD-7. -/
theorem test_addo : givesOvf (run2 0x11 maxValue 1) 2 0 true = true ∧
    givesOvf (run2 0x11 valX valY) 2 0x1111108218111111111110821811111111111082181111111111108218111110 true = true ∧
    givesOvf (run2 0x11 (pow2 64 - 1) 1) 2 (pow2 64) false = true := by decide +kernel

/-- SUB-1, SUB-2, SUB-6. -/
theorem test_sub : gives (run2 0x14 5 3) 2 2 = true ∧ faults (run2 0x14 3 5) .underflow = true ∧
    gives (run2 0x14 valY valX) 2 0xeca86390f6b97532eca86390f6b97532eca86390f6b97532eca86390f6b97532 = true := by
  decide +kernel

/-- SUB-3, SUB-5, SUB-8. -/
theorem test_subo : givesOvf (run2 0x15 3 5) 2 (maxValue - 1) true = true ∧
    givesOvf (run2 0x15 valX valY) 2 0x13579c6f09468acd13579c6f09468acd13579c6f09468acd13579c6f09468ace true = true ∧
    givesOvf (run2 0x15 (pow2 64) 1) 2 (pow2 64 - 1) false = true := by decide +kernel

/-- SUB-4; no flag is written. -/
theorem test_subu : gives (run2 0x16 0 1) 2 maxValue = true ∧ gives (run2 0x16 0 minValue) 2 minValue = true := by
  decide +kernel

/-- MUL-1, MUL-3, MUL-4. -/
theorem test_mul : gives (run2 0x18 6 7) 2 42 = true ∧
    gives (run2 0x18 (pow2 128 + 1) (pow2 128 - 1)) 2 maxValue = true ∧
    faults (run2 0x18 (pow2 128) (pow2 128)) .overflow = true := by decide +kernel

/-- MUL-5, MUL-6, MUL-10. -/
theorem test_mulo : givesOvf (run2 0x19 (pow2 128) (pow2 128)) 2 0 true = true ∧
    givesOvf (run2 0x19 (pow2 64 - 1) (pow2 64 - 1)) 2 0xfffffffffffffffe0000000000000001 false = true ∧
    givesOvf (run2 0x19 valX valY) 2 0x3f87f0c17faf12436b1e0c90f6e6bf1c96b428606e1e6bf5c24a442fe55618cf true = true := by
  decide +kernel

/-- MUL-9: the low half to rd = U2 and the high half to rd2 = U3. -/
theorem test_mulw :
    after (stepWord 0x000000000031021a (withRegs [(0, valX), (1, valY)]))
      (fun t => t.getReg 2 == 0x3f87f0c17faf12436b1e0c90f6e6bf1c96b428606e1e6bf5c24a442fe55618cf &&
        t.getReg 3 == 0x121fa000a3723a57e68984312c3a8d7ebaf36861b502e0a58f5d4c923dcb33cc && t.pc == 1) = true := by
  decide +kernel

/-- MUL-7, R14: both destinations are the sources. -/
theorem test_mulw_destinations_are_sources :
    after (stepWord 0x000000000010101a (withRegs [(0, maxValue), (1, maxValue)]))
      (fun t => t.getReg 0 == 1 && t.getReg 1 == maxValue - 1) = true := by decide +kernel

/-- DIV-1, DIV-5, DIV-10. -/
theorem test_divu : gives (run2 0x20 100 7) 2 14 = true ∧ gives (run2 0x20 5 0) 2 0 = true ∧
    gives (run2 0x20 maxValue decChunk) 2 0x1d83c94fb6d2ac34a5663d3c7a0d865ca3c4ca40e0ea7cfe9 = true := by
  decide +kernel

/-- DIV-2, DIV-10, and DIV-5 under both readings of R221. -/
theorem test_remu : gives (run2 0x21 7 100) 2 7 = true ∧ gives (run2 0x21 maxValue decChunk) 2 0x693fcf03e3d7ffff = true ∧
    gives (run2 0x21 5 0) 2 0 = true ∧ (udivrem .dividend 5 0).2 = 5 := by decide +kernel

/-- DIV-1 as in section 2.4: `DIVREMU U5, U6, U2, U1`. -/
theorem test_divremu :
    after (stepWord 0x0000000000612522 (withRegs [(2, 100), (1, 7)]))
      (fun t => t.getReg 5 == 14 && t.getReg 6 == 2 && t.pc == 1) = true := by decide +kernel

/-- SH-5, SH-8, SH-11. -/
theorem test_lsh :
    gives (runShift 0x28 valS 64) 1 0x0000000000000002000000000000000300000000000000040000000000000000 = true ∧
    gives (runShift 0x28 valS 191) 1 0x8000000000000002000000000000000000000000000000000000000000000000 = true ∧
    gives (runShift 0x28 valS 256) 1 0 = true := by decide +kernel

/-- SH-2, SH-6, SH-12. -/
theorem test_rsh :
    gives (runShift 0x29 valS 1) 1 0x4000000000000000800000000000000100000000000000018000000000000002 = true ∧
    gives (runShift 0x29 valS 65) 1 0x0000000000000000400000000000000080000000000000010000000000000001 = true ∧
    gives (runShift 0x29 valS 0xffffffff) 1 0 = true := by decide +kernel

/-- SH-6, SH-11, SH-14. -/
theorem test_srsh :
    gives (runShift 0x2a valS 65) 1 0xffffffffffffffffc00000000000000080000000000000010000000000000001 = true ∧
    gives (runShift 0x2a valS 256) 1 maxValue = true ∧
    gives (runShift 0x2a 0x0000000000000001000000000000000200000000000000030000000000000004 64) 1
      0x0000000000000000000000000000000100000000000000020000000000000003 = true := by decide +kernel

/-- The outcome of a parse: PERR and U0, which held 9. -/
def parses (w : Word) (str : List Byte) (e : PErr) (v : U256) : Bool :=
  after (stepWord w (withText str (withRegs [(0, 9)])))
    fun t => t.perr == e && t.getReg 0 == v && t.pc == 1 && !t.fault && t.tlen.toNat == str.length

/-- DEC-P-1, DEC-P-3, DEC-P-5, DEC-P-7, DEC-P-12. -/
theorem test_parsed_prefixes :
    parses 0x30 [] .emptyString 9 = true ∧ parses 0x30 [0x2b] .syntaxError 9 = true ∧
    parses 0x30 [0x30, 0x30, 0x30] .ok 0 = true ∧ parses 0x30 [0x2b, 0x2b, 0x31] .syntaxError 9 = true ∧
    parses 0x30 [0x2b, 0x31, 0x32, 0x33, 0x34, 0x35] .ok 12345 = true := by decide +kernel

/-- DEC-P-15, DEC-P-16, DEC-P-17, DEC-P-19, DEC-P-23. -/
theorem test_parsed_range :
    parseDec (List.replicate 78 0x20) = .error .syntaxError ∧ parseDec (List.replicate 78 0x61) = .error .range ∧
    parseDec (List.replicate 79 0x61) = .error .range ∧ parseDec (0x2b :: maxDec) = .ok maxValue ∧
    parseDec (maxDec.take 77 ++ [0x36]) = .error .range := by decide +kernel

/-- The outcome of FMTD U0 with a text before it: the text after it. -/
def formats (x : U256) (out : List Byte) : Bool :=
  after (stepWord 0x31 (withText (List.replicate 22 0x7a) (withRegs [(0, x)])))
    fun t => t.tlen.toNat == out.length && t.text == .ok out && t.tbuf.read? out.length == some 0x7a && t.pc == 1

/-- DEC-F-1, DEC-F-4, DEC-F-8. -/
theorem test_fmtd :
    formats 0 [0x30] = true ∧ formats decChunk (0x31 :: List.replicate 19 0x30) = true ∧
    fmtDec maxValue = maxDec := by decide +kernel

/-- HEX-1, HEX-2, HEX-7, HEX-9, HEX-12, HEX-13. -/
theorem test_parseh :
    parses 0x32 [] .emptyString 9 = true ∧ parses 0x32 [0x30] .missingPrefix 9 = true ∧
    parses 0x32 [0x30, 0x78] .emptyNumber 9 = true ∧ parses 0x32 [0x30, 0x78, 0x30] .ok 0 = true ∧
    parses 0x32 [0x30, 0x78, 0x30, 0x67] .leadingZero 9 = true ∧
    parses 0x32 [0x30, 0x58, 0x66, 0x46] .ok 255 = true := by decide +kernel

/-- HEX-16, HEX-20, HEX-23, HEX-24. -/
theorem test_parseh_order :
    parses 0x32 [0x30, 0x78, 0x67] .syntaxError 9 = true ∧
    parseHex (0x30 :: 0x78 :: 0x38 :: List.replicate 63 0x30) = .ok minValue ∧
    parseHex (0x30 :: 0x78 :: List.replicate 65 0x67) = .error .range ∧
    parseHex (0x30 :: 0x78 :: 0x30 :: List.replicate 64 0x31) = .error .leadingZero := by decide +kernel

/-- NAR-2, NAR-3. -/
theorem test_tou64 : gives (run1 0x33 (pow2 64 - 1)) 1 (pow2 64 - 1) = true ∧
    faults (run1 0x33 (pow2 64)) .narrowRange = true := by decide +kernel

/-- NAR-5 to NAR-9. -/
theorem test_toi64 : gives (run1 0x52 (pow2 63 - 1)) 1 (pow2 63 - 1) = true ∧
    faults (run1 0x52 (pow2 63)) .narrowRange = true ∧ gives (run1 0x52 (neg (2 ^ 63))) 1 (neg (2 ^ 63)) = true ∧
    faults (run1 0x52 (neg (2 ^ 63 + 1))) .narrowRange = true ∧ gives (run1 0x52 (neg 5)) 1 (neg 5) = true := by
  decide +kernel

/-- SGN-18. -/
theorem test_sign : gives (run1 0x40 0) 1 0 = true ∧ gives (run1 0x40 5) 1 1 = true ∧
    gives (run1 0x40 minValue) 1 (neg 1) = true ∧ gives (run1 0x40 (minValue - 1)) 1 1 = true := by decide +kernel

/-- SGN-19. -/
theorem test_abs : gives (run1 0x41 (neg 5)) 1 5 = true ∧ gives (run1 0x41 minValue) 1 minValue = true ∧
    gives (run1 0x41 (minValue - 1)) 1 (minValue - 1) = true := by decide +kernel

/-- SGN-21. -/
theorem test_neg : gives (run1 0x42 5) 1 (neg 5) = true ∧ gives (run1 0x42 minValue) 1 minValue = true ∧
    gives (run1 0x42 0) 1 0 = true := by decide +kernel

/-- One row of the table of section 2.10. -/
def signedRow (x y sdiv srem squo smod sdive : U256) : Bool :=
  gives (run2 0x48 x y) 2 sdiv && gives (run2 0x49 x y) 2 srem && gives (run2 0x4a x y) 2 squo &&
    gives (run2 0x4b x y) 2 smod && gives (run2 0x4c x y) 2 sdive && gives (run2 0x4d x y) 2 smod

/-- SGN-2, SGN-3, SGN-4: SDIV, SREM, SQUO, SMOD, SDIVE and SMODE on each. -/
theorem test_signed_division :
    signedRow (neg 7) 3 (neg 2) (neg 1) (neg 3) 2 (neg 3) = true ∧
    signedRow 7 (neg 3) (neg 2) 1 (neg 3) 1 (neg 2) = true ∧ signedRow (neg 7) (neg 3) 2 (neg 1) 2 2 3 = true := by
  decide +kernel

/-- SGN-9, SGN-12, SGN-13, SGN-17. -/
theorem test_signed_division_at_min :
    signedRow minValue (neg 1) minValue 0 minValue 0 minValue = true ∧
    signedRow (neg 1) minValue 0 (neg 1) 0 (minValue - 1) 1 = true ∧ signedRow 1 minValue 0 1 (neg 1) 1 0 = true ∧
    signedRow (minValue - 1) minValue 0 (minValue - 1) (neg 1) (minValue - 1) 0 = true := by decide +kernel

/-- SGN-20. -/
theorem test_signed_division_by_zero :
    [0x48, 0x49, 0x4a, 0x4b, 0x4c, 0x4d].all (fun op => faults (run2 op 7 0) .divideByZero) = true := by decide +kernel

/-- SGN-22, SGN-23, SGN-25, SGN-28. -/
theorem test_addd : gives (run2 0x50 10 (neg 3)) 2 7 = true ∧ faults (run2 0x50 2 (neg 3)) .underflow = true ∧
    faults (run2 0x50 maxValue 1) .overflow = true ∧ gives (run2 0x50 minValue minValue) 2 0 = true := by decide +kernel

/-- SGN-24, SGN-26, SGN-27, SGN-30. -/
theorem test_adddo : givesOvf (run2 0x51 2 (neg 3)) 2 maxValue true = true ∧
    givesOvf (run2 0x51 maxValue 1) 2 0 true = true ∧ givesOvf (run2 0x51 0 0) 2 0 false = true ∧
    givesOvf (run2 0x51 (minValue - 1) minValue) 2 maxValue true = true := by decide +kernel

/-! ## Faults, the host port and reset -/

/-- FLT-2, FLT-4: the STATUS word after a fault at PC = 6 with OVF = 0 and with OVF = 1. -/
theorem test_status_after_fault :
    ((State.reset.enterFault .overflow).statusWord = 0x1012 ∧
      ((State.reset.setOvf true).enterFault .overflow).statusWord = 0x1013) ∧
    (((State.reset.setPerr .leadingZero).enterFault .narrowRange).statusWord = 0x1542) := by decide +kernel

/-- FLT-3, FLT-7: a word pushed after a fault is discarded, and reset leaves the halted state. -/
theorem test_halted_then_reset :
    after (stepWord 0x0000000000000802 (State.reset.enterFault .overflow))
      (fun t => !t.regWritten 8 && t.pc == 0 && t.fault) = true ∧
    after (step (withHost [.reset] (State.reset.enterFault .overflow)))
      (fun t => t.statusWord == 0x1000 && t.pc == 0) = true := by decide +kernel

/-- FLT-10, FLT-12: ID, and U2 limb 1 at offset 0x48. -/
theorem test_host_reads :
    after (step (withHost [.read 0x228 8] State.reset)) (fun t => t.hostData == 0x5532353600000007) = true ∧
    after (step (withHost [.read 0x48 8] (withRegs [(2, pow2 64)]))) (fun t => t.hostData == 1) = true := by
  decide +kernel

/-- FLT-11: the word of "0x10" at offset 0x400. -/
theorem test_host_writes_text :
    after (step (withHost [.write 0x400 8 0x0000000030317830] State.reset))
      (fun t => (t.setTlen 4).text == .ok [0x30, 0x78, 0x31, 0x30]) = true := by decide +kernel

/-- A limb write leaves the other limbs and their marks (R82). -/
theorem test_host_writes_limb :
    after (step (withHost [.write 0x48 8 7] State.reset))
      (fun t => t.getReg 2 == 7 * pow2 64 && t.limbWritten 2 1 && !t.limbWritten 2 0) = true := by decide +kernel

/-- FLT-9: an illegal word whose sources are unwritten is ILLEGAL_COMMAND. -/
theorem test_decode_comes_first :
    after (stepWord 0x0000000100021310 State.reset)
      (fun t => t.fault && t.fcause == .illegalCommand && t.pc == 0) = true := by decide +kernel

/-- A parse of a byte that nothing has written stops the model (R50). -/
theorem test_parse_of_unwritten_byte_stops :
    exec (.parsed 0) (State.reset.setTlen 1) = .fault (.uninitRead 0) := by rfl

/-! ## The reference datapaths (R223: DIV-6, DIV-11, DIV-15, DIV-16; R284: DEC-P-25) -/

theorem test_knuth_add_back :
    udivremDatapath .zero 0xffffffffffffffffffffffffffffffff72a002c8fa7e75a80000000000000000
        0x1ffffffffffffffffffffffffffffffffffffffffffffffff =
      (0x7fffffffffffffff, 0x1ffffffffffffffff72a002c8fa7e75a87fffffffffffffff) ∧
    udivremDatapath .zero (pow2 200 + 12345) (pow2 130 + 7) =
      (0x3fffffffffffffffff, 0x3fffffffffffffe400000000000003040) := by decide +kernel

theorem test_knuth_saturated_estimate :
    udivremDatapath .zero (maxValue - pow2 192 + 1) (pow2 192 - 1) = (0xffffffffffffffff, 0xffffffffffffffff) ∧
    udivremDatapath .zero (pow2 128) (pow2 64 + 1) = (0xffffffffffffffff, 1) := by decide +kernel

theorem test_decimal_windows :
    decWindows 5 (maxDec.reverse) =
      [7584007913129639935, 6998466564056403945, 5709850086879078532, 5792089237316195423, 11] := by decide +kernel

/-! ## Witnesses: encoding and steps -/

theorem witness_DecodeOfEncodeIsTheCommand :
    (Instr.add 15 0 15).wellFormed false = true ∧ (Instr.divremu 3 4 1 2).wellFormed false = true ∧
    (Instr.ldu64 15 0xffffffffffffffff).wellFormed false = true ∧ (Instr.toi64 1 0).wellFormed true = true := by decide

theorem witness_EncodeOfDecodeIsTheWords :
    decode false [0x0000000000000103, 5, 6] = .ok (.ldu64 1 5, [6]) ∧
    decode true [0x0000000000010251, 0] = .ok (.adddo 2 0 1, [0]) := by decide +kernel

/-- A ready core with one pushed word. -/
def pushed (w : Word) : State := withHost [pushWord w] State.reset

/-- A block without the signed extension. -/
def unsignedConfig : Config := { Config.default with hasSigned := false }

/-- A ready core of a block without the signed extension, with one pushed word. -/
def pushedUnsigned (w : Word) : State := withHost [pushWord w] (State.resetOf unsignedConfig)

theorem witness_IllegalFirstWordHalts_opcode :
    (pushed 0).ready ∧ (pushed 0).host = [pushWord 0] ∧ IllegalOpcode true (opField 0).toNat ∧
    IllegalOpcode true (opField 0x53).toNat ∧ IllegalOpcode true (opField 0xff).toNat ∧
    (pushedUnsigned 0x40).ready ∧ IllegalOpcode (pushedUnsigned 0x40).cfg.hasSigned (opField 0x40).toNat ∧
    IllegalOpcode false (opField 0x52).toNat := by
  refine ⟨by decide, rfl, .inl rfl, ?_, ?_, by decide, ?_, ?_⟩ <;> simp only [IllegalOpcode] <;> decide +kernel

theorem witness_IllegalFirstWordHalts_reserved :
    (pushed 0x100021310).ready ∧ rowDSS 0x10 false .add ∈ opcodeTable ∧
    (rowDSS 0x10 false .add).op = opField 0x100021310 ∧
    (0x100021310 : Word) &&& (rowDSS 0x10 false .add).fmt.mask &&& ~~~0xFF#64 ≠ 0 :=
  ⟨by decide +kernel, List.mem_of_getElem? (i := 6) rfl, by decide +kernel, by decide +kernel⟩

theorem witness_SameDestinationHalts :
    (pushed (fieldsWord 0x1A 3 1 2 3 0)).ready ∧
    (pushed (fieldsWord 0x22 3 1 2 3 0)).host = [pushWord (fieldsWord 0x22 3 1 2 3 0)] ∧
    fieldsWord 0x1A 3 1 2 3 0 = 0x000000000032131a ∧ (3 : Reg) ≠ 4 := by decide +kernel

theorem witness_StepRunsDecodedCommand :
    (pushed 0x21310).ready ∧ decode (pushed 0x21310).cfg.hasSigned [0x21310] = .ok (.add 3 1 2, []) ∧
    decode (pushed 0x103).cfg.hasSigned [0x103, 7] = .ok (.ldu64 1 7, []) ∧
    [pushWord 0x103, pushWord 7] = pushWord 0x103 :: pushWord 7 :: [] := by decide +kernel

/-- A core that awaits the second word of an LDU64. -/
def waiting : State := State.reset.setWait2 (some 1)

theorem witness_Ldu64TakesTheNextWord :
    (pushed (fieldsWord 0x03 1 0 0 0 0)).ready ∧
    (pushed (fieldsWord 0x03 1 0 0 0 0)).host = [pushWord (fieldsWord 0x03 1 0 0 0 0)] ∧
    (withHost [pushWord 0] waiting).busy = false ∧ (withHost [pushWord 0] waiting).fault = false ∧
    (withHost [pushWord 0] waiting).wait2 = some 1 ∧ waiting.host = [] ∧ waiting.wait2 = some 1 := by decide +kernel

/-- A halted core. -/
def halted : State := State.reset.enterFault .overflow

theorem witness_FaultIsStickyUntilReset :
    (withHost [.reset] halted).fault = true ∧
    step (withHost [.reset] halted) = .next (withHost [] halted).afterReset ∧
    (withHost [pushWord 1] halted).busy = false ∧ (withHost [pushWord 1] halted).host = [pushWord 1] ∧
    step (withHost [pushWord 1] halted) = .next (withHost [] halted) := ⟨rfl, rfl, rfl, rfl, rfl⟩

/-- A ready core whose next word is illegal, and whose PC is 6. -/
def faultAtSix : State := { pushed 0 with pc := 6 }

theorem witness_FpcWrittenOnlyByFaultEntry :
    after (step faultAtSix) (fun t => t.fpc != faultAtSix.fpc && t.fault && t.fpc == 6) = true ∧
    after (step (withHost [.reset] { halted with fpc := 6 })) (fun t => t.fpc != 6) = true := by decide +kernel

theorem witness_StepTakesOneAccess :
    (withHost [.read 0x208 8] State.reset).busy = false ∧
    after (step (withHost [.read 0x208 8] State.reset)) (fun t => t.host == []) = true ∧ State.reset.host = [] ∧
    (withHost [pushWord 1] State.reset.setBusy).busy = true ∧ pushWord 1 ≠ HostAccess.reset := by decide +kernel

/-- Program P5 of section 3 up to its third command, LDU64, ONE, ADD, with a host read between the words of the
LDU64: the run succeeds while another host read is pending. -/
theorem witness_RunConsumesEveryWord_success :
    after (Sys2Proof.core.run 5 (withHost [pushWord 0x103, .read 0x208 8, pushWord 0x21310, pushWord 0x202,
        pushWord 0x21310, .read 0x210 8] State.reset))
      (fun t => t.outcome == some .success && t.pc == 4 && t.getReg 3 == 0x21311 && t.host == [.read 0x210 8]) = true :=
  by decide +kernel

/-- The end of program P5: the illegal word at PC = 1 faults, the word after it is discarded, and the reset that is
pending belongs to the next run. -/
theorem witness_RunConsumesEveryWord_fault :
    after (Sys2Proof.core.run 3 (withHost [pushWord 0x202, pushWord 0x100021310, pushWord 0x2, .reset, pushWord 0x2]
        State.reset))
      (fun t => t.outcome == some (.fault .illegalCommand 1) && t.pc == 1 && !t.regWritten 0) = true := by
  decide +kernel

/-- Program P5': after the first word of an LDU64 alone the run has not ended. -/
theorem witness_RunConsumesEveryWord_waiting :
    after (Sys2Proof.core.run 1 (withHost [pushWord 0x103] State.reset))
      (fun t => t.outcome == none && t.wait2 == some 1 && runWords t.host == []) = true ∧
    (pushed 0x103).outcome = none := by decide +kernel

/-! ## Witnesses: rules over all commands -/

theorem witness_FaultWritesOnlyFaultEntry :
    State.reset.fault = false ∧ exec (.sdiv 2 0 1) State.reset = .next (State.reset.enterFault .divideByZero) ∧
    (State.reset.enterFault .divideByZero).fault = true := ⟨rfl, rfl, rfl⟩

theorem witness_FaultsAreThoseOfTheTable :
    (Instr.sdiv 2 0 1).wellFormed State.reset.cfg.hasSigned = true ∧
    (Instr.sdiv 2 0 1).wellFormed unsignedConfig.hasSigned = false ∧
    (Instr.mulw 2 2 0 1).wellFormed true = false ∧ (pushed 0x17).ready ∧
    (pushed 0x17).host = [pushWord 0x17] ∧
    (¬∃ r ∈ opcodeTable, (r.signed = true → true = true) ∧ r.op = opField 0x17 ∧
        (0x17 : Word) &&& r.fmt.mask &&& ~~~0xFF#64 = 0 ∧ (r.fmt = .DDSS → rdField 0x17 ≠ rd2Field 0x17)) := by
  decide +kernel

theorem witness_FaultConditions :
    FaultCondition (withRegs [(0, maxValue), (1, 1)]) .overflow (.add 2 0 1) ∧
    FaultCondition (withRegs [(0, pow2 128)]) .overflow (.mul 2 0 0) ∧
    FaultCondition (withRegs [(1, 1)]) .underflow (.sub 2 0 1) ∧
    FaultCondition (withRegs [(0, maxValue), (1, 1)]) .overflow (.addd 2 0 1) ∧
    FaultCondition (withRegs [(0, 2), (1, neg 3)]) .underflow (.addd 2 0 1) ∧
    FaultCondition (withRegs [(0, pow2 64)]) .narrowRange (.tou64 2 0) ∧
    FaultCondition (withRegs [(0, pow2 63)]) .narrowRange (.toi64 2 0) := by
  simp only [FaultCondition]; decide +kernel

theorem witness_OvfWrittenOnlyByReportingForms :
    reportsOvf (.subu 2 0 1) = false ∧ exec (.subu 2 0 1) (State.reset.setOvf true) =
      .next (((State.reset.setOvf true).setReg 2 0).advance 1) := ⟨rfl, rfl⟩

theorem witness_PerrWrittenOnlyByParse :
    isParse (.zero 0) = false ∧ exec (.zero 0) State.reset = .next ((State.reset.setReg 0 0).advance 1) ∧
    isParse (.parsed 0) = true ∧
    exec (.parsed 0) State.reset = .next ((State.reset.setPerr .emptyString).advance 1) ∧
    after (exec (.parsed 0) (withText [0x37] State.reset)) (fun t => t.perr == .ok && t.regWritten 0) = true :=
  ⟨rfl, rfl, rfl, rfl, by decide +kernel⟩

theorem witness_PcAdvancesByLengthOrStays :
    State.reset.fault = false ∧ exec (.ldu64 1 5) waiting = .next ((State.reset.setReg 1 5).advance 2) ∧
    exec (.sdiv 2 0 1) State.reset = .next (State.reset.enterFault .divideByZero) := ⟨rfl, rfl, rfl⟩

theorem witness_OnlyDestinationsChange :
    exec (.zero 0) State.reset = .next ((State.reset.setReg 0 0).advance 1) ∧ (1 : Reg) ∉ (Instr.zero 0).dests ∧
    isFormat (.zero 0) = false := ⟨rfl, by decide, rfl⟩

/-! ## Witnesses: arithmetic, division, shifts -/

theorem witness_AddResults :
    ((withRegs [(0, maxValue - 1), (1, 1)]).getReg 0).toNat + ((withRegs [(0, maxValue - 1), (1, 1)]).getReg 1).toNat =
      2 ^ 256 - 1 ∧
    ((withRegs [(0, maxValue), (1, 1)]).getReg 0).toNat + ((withRegs [(0, maxValue), (1, 1)]).getReg 1).toNat =
      2 ^ 256 := by decide +kernel

theorem witness_SubtractResults :
    ((withRegs [(0, 5), (1, 5)]).getReg 1).toNat ≤ ((withRegs [(0, 5), (1, 5)]).getReg 0).toNat ∧
    ((withRegs [(0, 4), (1, 5)]).getReg 0).toNat < ((withRegs [(0, 4), (1, 5)]).getReg 1).toNat := by decide +kernel

theorem witness_MultiplyResults :
    ((withRegs [(0, pow2 128 + 1), (1, pow2 128 - 1)]).getReg 0).toNat *
      ((withRegs [(0, pow2 128 + 1), (1, pow2 128 - 1)]).getReg 1).toNat = 2 ^ 256 - 1 ∧
    ((withRegs [(0, pow2 128)]).getReg 0).toNat * ((withRegs [(0, pow2 128)]).getReg 0).toNat = 2 ^ 256 ∧
    (4 : Reg) ≠ 5 := by decide +kernel

theorem witness_AdditionAndMultiplicationLaws :
    ((withRegs [(0, 9), (1, 0)]).getReg 1).toNat = 0 ∧ ((withRegs [(0, 9), (1, 1)]).getReg 1).toNat = 1 ∧
    ((2 : Reg) ≠ 0 ∧ (2 : Reg) ≠ 1) := by decide +kernel

theorem witness_SuboResultsAndSubtractionLaws :
    (2 : Reg) ≠ 1 ∧
    ((withRegs [(0, 9), (1, 9)]).getReg 1).toNat ≤ ((withRegs [(0, 9), (1, 9)]).getReg 0).toNat := by decide +kernel

theorem witness_UnsignedDivisionResults :
    ((withRegs [(0, 5), (1, 0)]).getReg 1).toNat = 0 ∧ ((withRegs [(0, 5), (1, 1)]).getReg 1).toNat ≠ 0 ∧
    (State.resetOf { Config.default with remuDiv0 := .dividend }).cfg.remuDiv0 = .dividend ∧
    (5 : Reg) ≠ 6 := by decide +kernel

theorem witness_ShiftLawsHold :
    (255#32).toNat ≤ 255 ∧ ((withRegs [(0, 1)]).getReg 0).toNat < 2 ^ (256 - (255#32).toNat) ∧
    ((withRegs [(0, minValue - 1)]).getReg 0).toNat < 2 ^ 255 ∧ (255#32).toNat < 256 ∧
    ((withRegs [(1, pow2 255)]).getReg 1).toNat = 2 ^ (255#32).toNat := by decide +kernel

theorem witness_NarrowingResults :
    ((withRegs [(0, pow2 64 - 1)]).getReg 0).toNat = 2 ^ 64 - 1 ∧ ((withRegs [(0, pow2 64)]).getReg 0).toNat = 2 ^ 64 ∧
    State.reset.cfg.hasSigned = true ∧ ((withRegs [(0, pow2 63 - 1)]).getReg 0).toInt = 2 ^ 63 - 1 ∧
    ((withRegs [(0, neg (2 ^ 63))]).getReg 0).toInt = -(2 ^ 63) ∧
    ((withRegs [(0, pow2 63)]).getReg 0).toInt = 2 ^ 63 ∧
    ((withRegs [(0, neg (2 ^ 63 + 1))]).getReg 0).toInt = -(2 ^ 63) - 1 := by decide +kernel

/-! ## Witnesses: codecs -/

/-- A text in TBUF is a text of the statements. -/
theorem hasText_withText (str : List Byte) (s : State) (h : str.length ≤ s.cfg.tbufBytes) :
    HasText (withText str s) str := by
  have hb := s.cfg.tbufBytes_le
  refine ⟨?_, h, ?_⟩
  · simp only [withText, BitVec.toNat_ofNat]
    exact Nat.mod_eq_of_lt (by omega)
  · intro k hk
    have := Memory.read?_writeBytes_in [] 0 k str hk
    rwa [Nat.zero_add] at this

theorem witness_ParsedFollowsTheOrder_texts :
    HasText (withText [] State.reset) [] ∧ HasText (withText [0x2b] State.reset) [0x2b] ∧
    HasText (withText [0x30, 0x30] State.reset) [0x30, 0x30] ∧ HasText (withText maxDec State.reset) maxDec :=
  ⟨hasText_withText _ _ (by decide), hasText_withText _ _ (by decide), hasText_withText _ _ (by decide),
    hasText_withText _ _ (by decide)⟩

/-- 79 bytes, and 78 bytes above MAXDEC and at MAXDEC; a non-digit below MAXDEC. -/
theorem witness_ParsedFollowsTheOrder_range :
    78 < (List.replicate 79 (0x31 : Byte)).length ∧ (maxDec.take 77 ++ [(0x36 : Byte)]).length = 78 ∧
    Nat.ofDigits 256 ((canonicalDecimal (2 ^ 256 - 1)).reverse.map (·.toNat)) <
      Nat.ofDigits 256 ((maxDec.take 77 ++ [(0x36 : Byte)]).reverse.map (·.toNat)) ∧
    ¬(78 < maxDec.length) ∧
    Nat.ofDigits 10 (maxDec.reverse.map (fun b => b.toNat - 0x30)) = 2 ^ 256 - 1 ∧
    ¬(∀ b ∈ [(0x31 : Byte), 0x61], 0x30 ≤ b.toNat ∧ b.toNat ≤ 0x39) := by decide +kernel

/-- A bare prefix, a padded section, 64 and 65 digits, a bad digit. -/
theorem witness_ParsehFollowsTheOrder :
    HasText (withText (0x30 :: 0x78 :: List.replicate 64 0x66) State.reset) (0x30 :: 0x78 :: List.replicate 64 0x66) ∧
    HasText (withText [0x30] State.reset) [0x30] ∧ HasText (withText [0x30, 0x58] State.reset) [0x30, 0x58] ∧
    (1 < [(0x30 : Byte), 0x30].length ∧ [(0x30 : Byte), 0x30].head? = some 0x30) ∧
    64 < (List.replicate 65 (0x31 : Byte)).length ∧ (∃ b ∈ [(0x67 : Byte)], ∀ n, ¬IsNibble b n) ∧
    List.Forall₂ IsNibble [0x66, 0x46, 0x61, 0x41, 0x39] [15, 15, 10, 10, 9] ∧ ¬((0x31 : Byte) = 0x30) :=
  ⟨hasText_withText _ _ (by decide), hasText_withText _ _ (by decide), hasText_withText _ _ (by decide),
    by decide, by decide, ⟨0x67, by simp, fun n => by simp [IsNibble]; omega⟩, by simp [IsNibble], by decide⟩

/-- The first byte, and the last byte of the largest text, not written. -/
theorem witness_ParseOfUnwrittenByteStops :
    0 < (State.reset.setTlen 1).tlen.toNat ∧ (State.reset.setTlen 256).tlen.toNat ≤ State.reset.cfg.tbufBytes ∧
    State.reset.tbuf.read? 0 = none ∧
    1 < ((withText [0x31] State.reset).setTlen 2).tlen.toNat ∧
    (∀ j, j < 1 → (withText [0x31] State.reset).tbuf.read? j ≠ none) ∧
    (withText [0x31] State.reset).tbuf.read? 1 = none := by
  refine ⟨by decide, by decide, rfl, by decide, ?_, rfl⟩
  intro j hj
  obtain rfl : j = 0 := by omega
  decide

theorem witness_HexParseIsInjective :
    HasText (withText [0x30, 0x78, 0x66] State.reset) [0x30, 0x78, 0x66] ∧
    HasText (withText [0x30, 0x58, 0x46] State.reset) [0x30, 0x58, 0x46] ∧
    after (exec (.parseh 0) (withText [0x30, 0x78, 0x66] State.reset)) (fun t => t.perr == .ok) = true ∧
    after (exec (.parseh 0) (withText [0x30, 0x58, 0x46] State.reset)) (fun t => t.perr == .ok) = true ∧
    List.Forall₂ IsNibble [0x66] [15] ∧ List.Forall₂ IsNibble [0x46] [15] :=
  ⟨hasText_withText _ _ (by decide), hasText_withText _ _ (by decide), by decide +kernel, by decide +kernel,
    by simp [IsNibble], by simp [IsNibble]⟩

/-- R56 at the ends of its three ranges and beside them. -/
theorem test_nib_values :
    [0x2f, 0x30, 0x39, 0x3a, 0x40, 0x41, 0x46, 0x47, 0x60, 0x61, 0x66, 0x67].map nib =
      [none, some 0, some 9, none, none, some 10, some 15, none, none, some 10, some 15, none] := by decide

/-! ## Witnesses: signed extension -/

theorem witness_SignAbsNegResults : State.reset.cfg.hasSigned = true := rfl

theorem witness_SignedDivisionByZeroFaults :
    State.reset.cfg.hasSigned = true ∧ ((withRegs [(1, 0)]).getReg 1).toNat = 0 := by decide +kernel

/-- For the statements on signed division: a zero divisor, an ordinary pair, and MIN by -1. -/
theorem witness_SignedDivisions :
    (withRegs []).cfg.hasSigned = true ∧ ((withRegs [(1, 0)]).getReg 1).toInt = 0 ∧
    ((withRegs [(0, neg 7), (1, 3)]).getReg 1).toInt = 3 ∧
    ((withRegs [(0, minValue), (1, maxValue)]).getReg 0).toInt = -(2 ^ 255) ∧
    ((withRegs [(0, minValue), (1, maxValue)]).getReg 1).toInt = -1 ∧
    ((withRegs [(0, minValue), (1, maxValue)]).getReg 1).toNat ≠ 0 := by decide +kernel

theorem witness_FlooredCaveatAndMinByMinusOne :
    0 < ((withRegs [(0, neg 7), (1, 1)]).getReg 1).toInt ∧ ((withRegs [(0, 7), (1, neg 3)]).getReg 0).toInt = 7 ∧
    ((withRegs [(0, 7), (1, neg 3)]).getReg 1).toInt = -3 := by decide +kernel

/-- The sums 0, 2^256 - 1, 2^256 and -1. -/
theorem witness_SignedDeltaResults :
    (((withRegs [(0, 3), (1, neg 3)]).getReg 0).toNat : Int) + ((withRegs [(0, 3), (1, neg 3)]).getReg 1).toInt = 0 ∧
    ((maxValue.toNat : Int) + (0 : U256).toInt = 2 ^ 256 - 1) ∧ ((maxValue.toNat : Int) + (1 : U256).toInt = 2 ^ 256) ∧
    ((2 : U256).toNat : Int) + (neg 3).toInt = -1 ∧ State.reset.cfg.hasSigned = true := by decide +kernel

/-! ## Witnesses: datapaths -/

theorem witness_ShifterDatapathShifts : 255 < 256 ∧ leftDatapath valS 255 = limbs 0 := by decide +kernel

/-- The smallest normalised divisor with the largest u1, and the largest divisor. -/
theorem witness_ReciprocalDivisionIsExact :
    2 ^ 63 ≤ (0x8000000000000000 : Word).toNat ∧ (0x7fffffffffffffff : Word).toNat < (0x8000000000000000 : Word).toNat ∧
    2 ^ 63 ≤ (0xffffffffffffffff : Word).toNat := by decide

theorem witness_CodecWindowsDenoteTheNumber :
    (1 ≤ 4 ∧ 4 ≤ 4) ∧ maxDec.length ≤ 78 ∧ (∀ b ∈ maxDec, 0x30 ≤ b.toNat ∧ b.toNat ≤ 0x39) ∧
    (List.replicate 64 (0x66 : Byte)).length ≤ 64 ∧
    List.Forall₂ IsNibble (List.replicate 64 0x66) (List.replicate 64 15) :=
  ⟨by decide, by decide, by decide +kernel, by decide, by simp [List.replicate, IsNibble]⟩

/-! ## Witnesses: host port, reset, invariants -/

/-- Limb 3 of U15, at offset 0x1f8. -/
theorem witness_HostLimbAccess :
    (withHost [.write (32 * 15 + 8 * 3) 8 7] State.reset).busy = false ∧ 3 < 4 ∧
    (withHost [.write (32 * 15 + 8 * 3) 8 7] State.reset).host = [.write 0x1f8 8 7] ∧
    (withHost [.read (32 * 15 + 8 * 3) 8] (withRegs [(15, 1)])).limbWritten 15 3 = true := by decide +kernel

/-- The first and the last word of the default TBUF; a written byte, and a byte beyond a TBUF of 81 bytes. -/
theorem witness_HostTextAccess :
    8 * 0 < State.reset.cfg.tbufBytes ∧ 8 * 31 < State.reset.cfg.tbufBytes ∧
    (withHost [.read (0x400 + 8 * 31) 8] State.reset).host = [.read 0x4f8 8] ∧
    (withText [0x31] State.reset).tbuf.read? 0 = some 0x31 ∧
    8 * 10 < ({ Config.default with tbufBytes := 81, tbufBytes_ge := by decide, tbufBytes_le := by decide } : Config).tbufBytes ∧
    ({ Config.default with tbufBytes := 81, tbufBytes_ge := by decide, tbufBytes_le := by decide } : Config).tbufBytes ≤ 8 * 10 + 1 := by
  decide +kernel

theorem witness_HostRegisterReads :
    (withHost [.read 0x208 8] State.reset).host = [.read 0x208 8] ∧ State.reset.busy = false ∧
    (0 : Word).toNat = State.reset.pc.toNat ∧ (0 : Word).toNat = State.reset.fpc.toNat ∧
    (0 : Word).toNat = State.reset.tlen.toNat := by decide +kernel

/-- The lowest and the highest reserved offset below TBUF, and the first above it. -/
theorem witness_ReservedOffsetsDoNothing :
    (0x230 % 8 = 0 ∧ 0x3F8 % 8 = 0 ∧ 0x400 + 8 * ((State.reset.cfg.tbufBytes + 7) / 8) = 0x500) ∧
    (withHost [.write 0x230 8 1] State.reset).host = [.write 0x230 8 1] ∧
    after (step (withHost [.read 0x500 8] State.reset)) (fun t => t.hostData == 0) = true := by decide +kernel

/-- A narrow access, a misaligned one, and TLEN at and above TBUF_BYTES. -/
theorem witness_HostDutiesAreRefused :
    (4 ≠ 8 ∧ 0x204 % 8 ≠ 0) ∧ (withHost [.write 0x220 8 257] State.reset).host = [.write 0x220 8 257] ∧
    State.reset.cfg.tbufBytes < (257 : Word).toNat ∧ (256 : Word).toNat ≤ State.reset.cfg.tbufBytes := by decide +kernel

theorem witness_ResetSetsTheControlState :
    (withHost [.reset, pushWord 2] halted).host = .reset :: [pushWord 2] := rfl

theorem witness_StepKeepsTheInvariant :
    (withHost [pushWord 0x731] State.reset).Inv ∧ (withHost [.reset] (withText [0x31] halted)).Inv ∧
    step (withHost [.reset] halted) = .next (withHost [] halted).afterReset ∧ (pushed 0x301).Inv ∧
    step (pushed 0x301) = .next (((State.reset.setBusy).setReg 3 0).advance 1) :=
  ⟨by decide, by decide, rfl, by decide, rfl⟩

theorem test_reset_meets_the_invariant : State.reset.Inv ∧ (State.resetOf unsignedConfig).Inv := by decide

/-- Reset, and reset with another value in the unwritten U1, before a command that writes U0. -/
theorem witness_UnwrittenLimbsNeverMatter :
    SameButUnwritten (pushed 0x1) { pushed 0x1 with regs := (pushed 0x1).regs.set (1 : Reg) 7 } ∧
    (pushed 0x1).regs ≠ (pushed 0x1).regs.set (1 : Reg) 7 ∧ (pushed 0x1).safeNext := by
  refine ⟨⟨rfl, ?_⟩, by decide +kernel, ?_⟩
  · intro r j _ h
    have hw : (pushed 0x1).limbWritten r j = false := by
      have hz : (pushed 0x1).written[r] = 0 := by
        fin_cases r <;> rfl
      rw [State.limbWritten, hz]
      simp
    rw [hw] at h
    cases h
  · intro i s' h
    have hi : i = .zero 0 := by
      have : fetch (pushed 0x1) = .run (.zero 0) (State.reset.setBusy) := rfl
      rw [this] at h
      cases h
      rfl
    subst hi
    intro r hr
    cases hr

end Sys2Proof.Tests
end

/-! # The state family: sticky faults, OVF and PARSEH -/

namespace Sys2Proof

/-! ## Decoding a row of the map -/

/-- A word that passes the checks of R127 for a one-word row of the map decodes to the command of that row. -/
theorem decode_of_row {hasSigned : Bool} {w : Word} {r : OpRow} (hr : r ∈ opcodeTable) (hop : r.op = opField w)
    (hsigned : r.signed = true → hasSigned = true) (hmask : w &&& r.fmt.mask &&& ~~~(0xFF#64) = 0)
    (hdest : r.fmt = .DDSS → rdField w ≠ rd2Field w) (hlen : r.fmt ≠ .L) :
    decode hasSigned [w] = .ok (r.build w 0, []) := by
  have hfind := opcodeTable_find_of_mem hr
  rw [hop] at hfind
  have hs : ¬(r.signed && !hasSigned) = true := by
    cases h : r.signed <;> simp_all
  have hd : ¬(r.fmt = .DDSS ∧ rdField w = rd2Field w) := fun h => hdest h.1 h.2
  have hfirst : decodeFirst hasSigned w = .ok r := by
    simp only [decodeFirst, hfind, if_neg hs, hmask, ne_eq, not_true_eq_false, if_false, if_neg hd]
  simp only [decode, hfirst, if_neg hlen]

/-- The must-be-zero bits of format D are zero in a word that packs rd alone (R122). -/
theorem packWord_mask_D (op : Byte) (rd : Reg) :
    packWord op rd 0 0 0 0 &&& Format.D.mask &&& ~~~(0xFF#64) = 0 := by
  have hop := op.isLt
  have hrd := rd.isLt
  have hlt : (packWord op rd 0 0 0 0).toNat < 2 ^ 12 := by
    simp only [packWord_toNat, Fin.coe_ofNat_eq_mod, BitVec.ofNat_eq_ofNat, BitVec.toNat_ofNat]
    omega
  apply BitVec.eq_of_getLsbD_eq
  intro i hi
  by_cases h : i < 12
  · have hmask : (Format.D.mask &&& ~~~(0xFF#64)).getLsbD i = false := by
      interval_cases i <;> decide
    rw [BitVec.and_assoc, BitVec.getLsbD_and, hmask]
    simp
  · have hhigh : (packWord op rd 0 0 0 0).getLsbD i = false :=
      Nat.testBit_lt_two_pow (hlt.trans_le (Nat.pow_le_pow_right (by decide) (by omega)))
    rw [BitVec.and_assoc, BitVec.getLsbD_and, hhigh]
    simp

/-- R121, R122, R126: the word of a format D row decodes to the command of the row. -/
theorem decodesTo_of_rowD {op : Byte} {c : Reg → Instr} (hr : rowD op c ∈ opcodeTable) (rd : Reg) :
    Machine.DecodesTo op.toNat rd 0 0 0 0 (c rd) := by
  have hw : Machine.fieldsWord op.toNat rd 0 0 0 0 = packWord op rd 0 0 0 0 :=
    fieldsWord_eq_packWord op rd 0 0 0 0
  rw [Machine.DecodesTo, hw, decode_of_row hr (by simp [rowD]) nofun (packWord_mask_D op rd) nofun nofun]
  simp [rowD]

end Sys2Proof

namespace Sys2Proof.Machine

/-! ## What one step can do -/

variable {s t : State}

/-- What a host access other than a reset or a push leaves alone: every status field, PC, FPC, the parameters,
the accesses still pending and the number of resets. -/
structure KeepsStatus (s t : State) : Prop where
  cfg : t.cfg = s.cfg
  ovf : t.ovf = s.ovf
  fault : t.fault = s.fault
  busy : t.busy = s.busy
  wait2 : t.wait2 = s.wait2
  fcause : t.fcause = s.fcause
  perr : t.perr = s.perr
  pc : t.pc = s.pc
  fpc : t.fpc = s.fpc
  host : t.host = s.host
  epoch : t.epoch = s.epoch

theorem hostRead_keepsStatus {offset bytes : Nat} (h : hostRead s offset bytes = .next t) : KeepsStatus s t := by
  rw [hostRead] at h
  split at h
  · cases h
    constructor <;> rfl
  · cases h

theorem hostWriteTlen_keepsStatus {w : Word} (h : hostWriteTlen s w = .next t) : KeepsStatus s t := by
  rw [hostWriteTlen] at h
  split at h
  · cases h
    constructor <;> rfl
  · cases h

theorem hostWriteTarget_keepsStatus {w : Word} {p : PortTarget} (h : hostWriteTarget s w p = .next t) :
    KeepsStatus s t := by
  cases p with
  | tlen => exact hostWriteTlen_keepsStatus h
  | limb | tbufWord | cmd | status | pc | fpc | id | reserved =>
    cases h
    constructor <;> rfl

/-- CMD is the target of its own offset alone (R81). -/
theorem portTarget_eq_cmd_iff {c : Config} {offset : Nat} : portTarget c offset = .cmd ↔ offset = 0x200 := by
  constructor
  · intro h
    unfold portTarget at h
    by_contra hne
    simp only [if_neg hne] at h
    repeat' split at h
    all_goals cases h
  · rintro rfl
    rfl

/-- An admitted host write to an offset other than CMD has the outcome of its target (R82, R83, R85). -/
theorem takeAccess_write {offset bytes : Nat} (hadm : admitted offset bytes = true) (hne : offset ≠ 0x200)
    (w : Word) (s : State) :
    takeAccess (.write offset bytes w) s = .done (hostWriteTarget s w (portTarget s.cfg offset)) := by
  simp only [takeAccess, if_pos hadm]
  split
  · rename_i hcmd
    exact absurd (portTarget_eq_cmd_iff.1 hcmd) hne
  · rfl

/-- A host write that is not admitted is refused (R88). -/
theorem takeAccess_write_refused {offset bytes : Nat} (hadm : ¬admitted offset bytes = true) (w : Word)
    (s : State) : takeAccess (.write offset bytes w) s = .done (.refused (.hostAccessShape offset bytes)) :=
  if_neg hadm

/-- A host write that is no push leaves every status field alone. -/
theorem takeAccess_write_of_not_push {offset bytes : Nat} {w : Word}
    (h : (HostAccess.write offset bytes w).commandWord? = none) (s : State) :
    ∃ r, takeAccess (.write offset bytes w) s = .done r ∧ ∀ t, r = .next t → KeepsStatus s t := by
  by_cases hadm : admitted offset bytes = true
  · have hne : offset ≠ 0x200 := by
      rintro rfl
      have hb : bytes = 8 := by simpa [admitted] using hadm
      simp [HostAccess.commandWord?, hb] at h
    exact ⟨_, takeAccess_write hadm hne w s, fun _ ht => hostWriteTarget_keepsStatus ht⟩
  · exact ⟨_, takeAccess_write_refused hadm w s, fun _ ht => by cases ht⟩

/-- R98: an access is a reset, or pushes a word, or leaves every status field alone. -/
theorem takeAccess_cases (a : HostAccess) (s : State) :
    (a = .reset ∧ takeAccess a s = .done (.next s.afterReset)) ∨
    (∃ w, a = pushWord w ∧ takeAccess a s = acceptWord w s) ∨
    (a ≠ .reset ∧ a.commandWord? = none ∧
      ∃ r, takeAccess a s = .done r ∧ ∀ t, r = .next t → KeepsStatus s t) := by
  cases hw : a.commandWord? with
  | some w =>
    obtain rfl := eq_pushWord_of_commandWord? hw
    exact .inr (.inl ⟨w, rfl, rfl⟩)
  | none =>
    cases a with
    | reset => exact .inl ⟨rfl, rfl⟩
    | read offset bytes => exact .inr (.inr ⟨nofun, rfl, _, rfl, fun t => hostRead_keepsStatus⟩)
    | write offset bytes w => exact .inr (.inr ⟨nofun, rfl, takeAccess_write_of_not_push hw s⟩)

/-- The outcome of a step, from what its access leads to. -/
def Fetched.result : Fetched → Result
  | .done r => r
  | .run i s => exec i s

theorem step_eq_result (s : State) : step s = (fetch s).result := by
  rw [step]
  cases fetch s <;> rfl

/-- R90: what a step that goes on has done. It held the state, or took the next access: a reset, a push to a core
that is not busy, or an access that leaves every status field alone. -/
theorem step_cases (h : step s = .next t) :
    t = s ∨ ∃ a rest, s.host = a :: rest ∧
      ((a = .reset ∧ t = (s.setHost rest).afterReset) ∨
      (∃ w, a = pushWord w ∧ s.busy = false ∧ (acceptWord w (s.setHost rest)).result = .next t) ∨
      (a ≠ .reset ∧ a.commandWord? = none ∧ s.busy = false ∧ KeepsStatus (s.setHost rest) t)) := by
  rw [step_eq_result] at h
  cases hh : s.host with
  | nil =>
    rw [fetch_of_nil hh] at h
    cases h
    exact .inl rfl
  | cons a rest =>
    by_cases hb : s.busy ∧ a ≠ .reset
    · rw [fetch, hh] at h
      simp only [if_pos hb] at h
      cases h
      exact .inl rfl
    · have hf : fetch s = takeAccess a (s.setHost rest) := by
        rw [fetch, hh]
        exact if_neg hb
      have hidle : a ≠ .reset → s.busy = false := fun hr => by simpa [hr] using hb
      rw [hf] at h
      refine .inr ⟨a, rest, rfl, ?_⟩
      rcases takeAccess_cases a (s.setHost rest) with ⟨hr, ht⟩ | ⟨w, rfl, ht⟩ | ⟨hr, hw, r, ht, hk⟩
      · rw [ht] at h
        cases h
        exact .inl ⟨hr, rfl⟩
      · rw [ht] at h
        exact .inr (.inl ⟨w, rfl, hidle nofun, h⟩)
      · rw [ht] at h
        exact .inr (.inr ⟨hr, hw, hidle hr, hk t h⟩)

/-- R388: a halted core discards the word it is given. -/
theorem acceptWord_of_halted {w : Word} (h : s.fault = true) : acceptWord w s = .done (.next s) :=
  if_pos h

/-- Settles O9: a step from a halted core is a reset, or it holds the state, discards a word or takes an access that
leaves the status fields alone. -/
theorem faultIsStickyUntilReset : Obligations.FaultIsStickyUntilReset := by
  refine ⟨?_, ?_⟩
  · intro s t hf h
    rcases step_cases h with rfl | ⟨a, rest, hh, ⟨rfl, rfl⟩ | ⟨w, rfl, -, ht⟩ | ⟨-, -, -, hk⟩⟩
    · exact .inl ⟨hf, rfl, rfl⟩
    · exact .inr ⟨rest, hh, rfl, rfl, rfl⟩
    · rw [acceptWord_of_halted (by simpa using hf)] at ht
      cases ht
      exact .inl ⟨hf, rfl, rfl⟩
    · exact .inl ⟨hk.fault.trans hf, hk.fcause, hk.fpc⟩
  · intro s w rest hb hf hh
    rw [step_eq_result, fetch_of_pushWord hb hh, acceptWord_of_halted (by simpa using hf)]
    rfl

/-! ## OVF -/

/-- The outcome with a change to its next state. -/
def onNext (f : State → State) : Result → Result
  | .next s => .next (f s)
  | .fault r => .fault r
  | .refused r => .refused r

/-- A choice between two outcomes, each changed the same way. -/
theorem ite_onNext {p : Prop} [Decidable p] {f : State → State} {r r' u u' : Result} (h : r' = onNext f r)
    (hu : u' = onNext f u) : (if p then r' else u') = onNext f (if p then r else u) := by
  split <;> assumption

/-- Setting OVF before a parse command or after it is the same. -/
theorem parseCommand_setOvf (parse : List Byte → Except PErr U256) (rd : Reg) (s : State) (b : Bool) :
    parseCommand parse rd (s.setOvf b) = onNext (·.setOvf b) (parseCommand parse rd s) := by
  have htext : (s.setOvf b).text = s.text := rfl
  rw [parseCommand, parseCommand, htext]
  cases s.text with
  | error f => rfl
  | ok str =>
    simp only
    cases parse str <;> rfl

theorem memWrite_setOvf (s : State) (b : Bool) (a : Nat) (str : List Byte) :
    (s.setOvf b).memWrite a str = (s.memWrite a str).map (·.setOvf b) := by
  rw [State.memWrite, State.memWrite, State.setOvf_cfg]
  split <;> rfl

theorem execFmtd_setOvf (rs1 : Reg) (s : State) (b : Bool) :
    execFmtd rs1 (s.setOvf b) = onNext (·.setOvf b) (execFmtd rs1 s) := by
  simp only [execFmtd, State.getReg_setOvf]
  rw [memWrite_setOvf]
  cases s.memWrite 0 (fmtDec (s.getReg rs1)) <;> rfl

theorem signedCommand_setOvf {s : State} {b : Bool} {r r' : Result} (h : r' = onNext (·.setOvf b) r) :
    signedCommand (s.setOvf b) r' = onNext (·.setOvf b) (signedCommand s r) := by
  subst h
  exact ite_onNext rfl rfl

theorem signedDivision_setOvf (f : U256 → U256 → U256) (rd rs1 rs2 : Reg) (s : State) (b : Bool) :
    signedDivision f rd rs1 rs2 (s.setOvf b) = onNext (·.setOvf b) (signedDivision f rd rs1 rs2 s) :=
  signedCommand_setOvf (ite_onNext rfl rfl)

/-- R45: a command that does not report OVF does the same whatever OVF is, and leaves OVF as it is. -/
theorem exec_setOvf_of_not_reportsOvf {i : Instr} (h : reportsOvf i = false) (s : State) (b : Bool) :
    exec i (s.setOvf b) = onNext (·.setOvf b) (exec i s) := by
  cases i with
  | addo | subo | mulo | adddo => cases h
  | zero | one | ldu64 | eq | lt | cmp | subu | divu | remu | lsh | rsh | srsh => rfl
  | add | sub | mul | mulw | divremu | tou64 => exact ite_onNext rfl rfl
  | parsed rd => exact parseCommand_setOvf parseDec rd s b
  | parseh rd => exact parseCommand_setOvf parseHex rd s b
  | fmtd rs1 => exact execFmtd_setOvf rs1 s b
  | sign | abs | neg => exact signedCommand_setOvf rfl
  | addd | toi64 => exact signedCommand_setOvf (ite_onNext rfl rfl)
  | sdiv | srem | squo | smod | sdive | smode =>
    simp only [exec, execSdiv, execSrem, execSquo, execSmod, execSdive, execSmode, signedDivision_setOvf]

/-- R45: a reporting form overwrites OVF when it completes, and otherwise (ADDDO without the extension) raises
ILLEGAL_COMMAND. -/
theorem exec_setOvf_of_reportsOvf {i : Instr} (h : reportsOvf i = true) (s : State) :
    (∀ b, exec i (s.setOvf b) = exec i s) ∨
    ∀ b, exec i (s.setOvf b) = raise .illegalCommand (s.setOvf b) := by
  cases i with
  | addo | subo | mulo => exact .inl fun b => rfl
  | adddo =>
    cases hs : s.cfg.hasSigned with
    | true => exact .inl fun b =>
        (signedCommand_of_present (s := s.setOvf b) hs).trans (signedCommand_of_present hs).symm
    | false => exact .inr fun b => signedCommand_of_absent hs
  | _ => cases h

/-- A fault leaves OVF as it is: fault entry does not write it, and a command that completes sets no FAULT. -/
theorem exec_ovf_of_fault {i : Instr} (hs : s.fault = false) (h : exec i s = .next t) (ht : t.fault = true) :
    t.ovf = s.ovf := by
  rcases exec_shape i s with ⟨c, -, hx⟩ | ⟨u, hx, hc, -⟩ | ⟨f, hx⟩
  · rw [hx, raise_eq_next] at h
    subst h
    rfl
  · rw [hx, complete_eq_next] at h
    subst h
    exact absurd (ht.symm.trans (hc.1.trans hs)) nofun
  · rw [hx] at h
    cases h

/-- Settles O15: a command that is not a reporting form commutes with setting OVF, and a reporting form overwrites
it or raises ILLEGAL_COMMAND. -/
theorem ovfWrittenOnlyByReportingForms : Obligations.OvfWrittenOnlyByReportingForms := by
  intro i s t h
  refine ⟨fun hr => ?_, fun hs ht => exec_ovf_of_fault hs h ht, fun b => ?_⟩
  · have hx := exec_setOvf_of_not_reportsOvf hr s s.ovf
    rw [h] at hx
    have ht : t = t.setOvf s.ovf := Host.Outcome.next.inj (h.symm.trans hx)
    rw [ht]
    rfl
  · change ∃ u, exec i (s.setOvf b) = .next u ∧ _
    cases hr : reportsOvf i with
    | false =>
      refine ⟨t.setOvf b, ?_, rfl, nofun⟩
      rw [exec_setOvf_of_not_reportsOvf hr, h]
      rfl
    | true =>
      rcases exec_setOvf_of_reportsOvf hr s with hx | hx
      · exact ⟨t, (hx b).trans h, rfl, fun _ _ _ => rfl⟩
      · have ht : s.enterFault .illegalCommand = t := raise_eq_next.1 ((hx s.ovf).symm.trans h)
        subst ht
        exact ⟨(s.setOvf b).enterFault .illegalCommand, hx b, rfl, nofun⟩

/-! ## Parse commands -/

/-- A parse command whose text has an error writes its code to PERR alone. -/
theorem parseFails_of_error {i : Instr} {parse : List Byte → Except PErr U256} {rd : Reg} {str : List Byte}
    {e : PErr} (hi : exec i s = parseCommand parse rd s) (ht : HasText s str) (he : parse str = .error e) :
    ParseFails i s e := by
  rw [ParseFails, hi, parseCommand_of_hasText ht, he]
  rfl

/-- A parse command whose text denotes `v` writes it to its register, and OK to PERR. -/
theorem parseGives_of_ok {i : Instr} {parse : List Byte → Except PErr U256} {rd : Reg} {str : List Byte}
    {v : U256} (hi : exec i s = parseCommand parse rd s) (ht : HasText s str) (hv : parse str = .ok v) :
    ParseGives i s rd v := by
  refine ⟨((s.setPerr .ok).setReg rd v).advance 1, ?_, writesRegs_setReg rd v, rfl, rfl, sameText_refl,
    sameControl_refl, rfl, rfl, rfl⟩
  rw [hi, parseCommand_of_hasText ht, hv]
  rfl

/-! ### The order of R300 -/

/-- The text begins with "0x" or "0X" (R300). -/
def HexPrefix (c0 c1 : Byte) : Prop := c0 = 0x30 ∧ (c1 = 0x78 ∨ c1 = 0x58)

/-- More than one digit, the first of them 0 (R300). -/
def HexPadded (d : List Byte) : Prop := 1 < d.length ∧ d.head? = some 0x30

/-- Every byte of a digit section of R56 is in NIB, and every digit is below 16. -/
theorem nibbles_valid {d : List Byte} {ns : List Nat} (h : List.Forall₂ IsNibble d ns) :
    (∀ b ∈ d, (nib b).isSome = true) ∧ ∀ n ∈ ns, n < 16 := by
  induction h with
  | nil => simp
  | cons hb _ ih =>
    have hnib := nib_eq_some_iff.2 hb
    simpa [hnib, nib_lt hnib] using ih

section ParseHex

variable {c0 c1 : Byte} {d : List Byte}

theorem parseHex_of_not_hexPrefix (h : ¬HexPrefix c0 c1) : parseHex (c0 :: c1 :: d) = .error .missingPrefix :=
  if_pos (by
    unfold HexPrefix at h
    tauto)

/-- After "0x" or "0X", the checks of R300 on the digit section alone. -/
theorem parseHex_of_hexPrefix (h : HexPrefix c0 c1) :
    parseHex (c0 :: c1 :: d) =
      if d = [] then .error .emptyNumber
      else if 1 < d.length ∧ d.head? = some 0x30 then .error .leadingZero
      else if 64 < d.length then .error .range
      else if !d.all (fun b => (nib b).isSome) then .error .syntaxError
      else .ok (BitVec.ofNat 256 (hexValue d)) :=
  if_neg (by
    unfold HexPrefix at h
    tauto)

theorem parseHex_of_no_digits (h : HexPrefix c0 c1) : parseHex [c0, c1] = .error .emptyNumber :=
  parseHex_of_hexPrefix h

theorem parseHex_of_padded (h : HexPrefix c0 c1) (hp : HexPadded d) :
    parseHex (c0 :: c1 :: d) = .error .leadingZero := by
  have hd : d ≠ [] := List.ne_nil_of_length_pos (Nat.zero_lt_of_lt hp.1)
  rw [parseHex_of_hexPrefix h, if_neg hd]
  exact if_pos hp

theorem parseHex_of_too_long (h : HexPrefix c0 c1) (hp : ¬HexPadded d) (hl : 64 < d.length) :
    parseHex (c0 :: c1 :: d) = .error .range := by
  have hd : d ≠ [] := List.ne_nil_of_length_pos (Nat.zero_lt_of_lt hl)
  rw [parseHex_of_hexPrefix h, if_neg hd]
  exact (if_neg hp).trans (if_pos hl)

theorem parseHex_of_fits (h : HexPrefix c0 c1) (hd : d ≠ []) (hp : ¬HexPadded d) (hl : d.length ≤ 64) :
    parseHex (c0 :: c1 :: d) =
      if !d.all (fun b => (nib b).isSome) then .error .syntaxError
      else .ok (BitVec.ofNat 256 (hexValue d)) := by
  rw [parseHex_of_hexPrefix h, if_neg hd]
  exact (if_neg hp).trans (if_neg (Nat.not_lt.2 hl))

theorem parseHex_of_bad_digit (h : HexPrefix c0 c1) (hp : ¬HexPadded d) (hl : d.length ≤ 64)
    (hbad : ∃ b ∈ d, ∀ n, ¬IsNibble b n) : parseHex (c0 :: c1 :: d) = .error .syntaxError := by
  obtain ⟨b, hb, hn⟩ := hbad
  have hnib : nib b = none := Option.eq_none_iff_forall_ne_some.2 fun n hs => hn n (nib_eq_some_iff.1 hs)
  rw [parseHex_of_fits h (List.ne_nil_of_mem hb) hp hl, if_pos]
  simpa using ⟨b, hb, hnib⟩

theorem parseHex_of_digits {ns : List Nat} (h : HexPrefix c0 c1) (hd : d ≠ []) (hp : ¬HexPadded d)
    (hl : d.length ≤ 64) (hns : List.Forall₂ IsNibble d ns) :
    parseHex (c0 :: c1 :: d) = .ok (BitVec.ofNat 256 (Nat.ofDigits 16 ns.reverse)) := by
  have hall : d.all (fun b => (nib b).isSome) = true := List.all_eq_true.2 (nibbles_valid hns).1
  rw [parseHex_of_fits h hd hp hl, if_neg (by simp [hall]), hexValue_of_forall₂ hns]

end ParseHex

/-- At most 64 hex digits denote a value of 256 bits. -/
theorem ofDigits_nibbles_lt {d : List Byte} {ns : List Nat} (hns : List.Forall₂ IsNibble d ns)
    (hl : d.length ≤ 64) : Nat.ofDigits 16 ns.reverse < 2 ^ 256 := by
  have hdigit : ∀ n ∈ ns.reverse, n < 16 := fun n hn => (nibbles_valid hns).2 n (List.mem_reverse.1 hn)
  calc Nat.ofDigits 16 ns.reverse < 16 ^ ns.reverse.length := Nat.ofDigits_lt_base_pow_length (by decide) hdigit
    _ ≤ 16 ^ 64 := Nat.pow_le_pow_right (by decide) (by rw [List.length_reverse, ← hns.length_eq]; exact hl)
    _ = 2 ^ 256 := by norm_num

/-- Settles O31: each step of R300 has its own equation of `parseHex`, and a parse command writes what its parse
gives. -/
theorem parsehFollowsTheOrder : Obligations.ParsehFollowsTheOrder := by
  intro s rd str ht
  have hfail : ∀ {e}, parseHex str = .error e → ParseFails (.parseh rd) s e := parseFails_of_error rfl ht
  refine ⟨decodesTo_of_rowD (op := 0x32) (c := .parseh) (by simp [opcodeTable, opcodeRowsUnits]) rd, ?_, ?_, ?_⟩
  · rintro rfl
    exact hfail rfl
  · rintro b rfl
    exact hfail rfl
  · rintro c0 c1 d rfl
    refine ⟨fun h => hfail (parseHex_of_not_hexPrefix h), ?_, fun h hp => hfail (parseHex_of_padded h hp),
      fun h hp hl => hfail (parseHex_of_too_long h hp hl),
      fun h hp hl hb => hfail (parseHex_of_bad_digit h hp hl hb), ?_⟩
    · rintro h rfl
      exact hfail (parseHex_of_no_digits h)
    · intro ns h hd hp hl hns
      exact ⟨ofDigits_nibbles_lt hns hl, parseGives_of_ok rfl ht (parseHex_of_digits h hd hp hl hns)⟩

end Sys2Proof.Machine

/-! # The memory family: the host port -/

namespace Sys2Proof.Machine

/-! ## One host access -/

/-- R90: a block that is not busy takes the next access. -/
theorem step_of_idle {s : State} {a : HostAccess} {rest : List HostAccess} (hb : s.busy = false)
    (h : s.host = a :: rest) : step s = (takeAccess a (s.setHost rest)).result := by
  simp [step_eq_result, fetch, h, hb]

/-- R88: an access is admitted only with 64 bits and an aligned offset. -/
theorem not_admitted {offset bytes : Nat} (h : bytes ≠ 8 ∨ offset % 8 ≠ 0) : ¬admitted offset bytes = true := by
  simpa [admitted, imp_iff_not_or] using h

section Access

variable {s : State} {rest : List HostAccess} {offset bytes : Nat} {w : Word}

theorem step_read (hb : s.busy = false) (h : s.host = .read offset bytes :: rest) :
    step s = hostRead (s.setHost rest) offset bytes :=
  step_of_idle hb h

theorem step_read_aligned (hb : s.busy = false) (ha : offset % 8 = 0) (h : s.host = .read offset 8 :: rest) :
    step s = .next ((s.setHost rest).setHostData ((s.setHost rest).hostValue offset)) :=
  (step_read hb h).trans (if_pos (by simp [admitted, ha]))

/-- An aligned write to an offset other than CMD has the outcome of its target. -/
theorem step_write_aligned (hb : s.busy = false) (ha : offset % 8 = 0) (hne : offset ≠ 0x200)
    (h : s.host = .write offset 8 w :: rest) :
    step s = hostWriteTarget (s.setHost rest) w (portTarget s.cfg offset) := by
  have hadm : admitted offset 8 = true := by simp [admitted, ha]
  rw [step_of_idle hb h, takeAccess_write hadm hne]
  rfl

end Access

/-! ## The map -/

theorem portTarget_tbufWord {c : Config} {m : Nat} (hm : 8 * m < c.tbufBytes) :
    portTarget c (0x400 + 8 * m) = .tbufWord m := by
  have hword : (0x400 + 8 * m - 0x400) / 8 = m := by omega
  simp (disch := omega) only [portTarget, if_neg, if_pos, hword]

theorem portTarget_reserved {c : Config} {offset : Nat}
    (h : (0x230 ≤ offset ∧ offset ≤ 0x3F8) ∨ 0x400 + 8 * ((c.tbufBytes + 7) / 8) ≤ offset) :
    portTarget c offset = .reserved := by
  simp (disch := omega) only [portTarget, if_neg]

/-- R83: a write to STATUS, PC, FPC or ID is ignored. -/
theorem hostWriteTarget_readOnly {c : Config} {offset : Nat}
    (h : offset = 0x208 ∨ offset = 0x210 ∨ offset = 0x218 ∨ offset = 0x228) (s : State) (w : Word) :
    hostWriteTarget s w (portTarget c offset) = .next s := by
  rcases h with rfl | rfl | rfl | rfl <;> rfl

theorem State.hostValue_of_tbufWord {s : State} {offset m : Nat} (h : portTarget s.cfg offset = .tbufWord m) :
    s.hostValue offset = s.hostTbufWord m := by
  rw [State.hostValue, h]

theorem State.hostValue_of_reserved {s : State} {offset : Nat} (h : portTarget s.cfg offset = .reserved) :
    s.hostValue offset = 0 := by
  rw [State.hostValue, h]

/-! ## TBUF words -/

/-- Lane b of a word the host reads is byte 8m+b (R85). The width of the word stays a sum of eights, so that each
rewriting can split off the lowest byte. -/
theorem byteLane_hostTbufWord (s : State) (m : Nat) {b : Nat} (hb : b < 8) :
    byteLane (s.hostTbufWord m) b = s.hostByte (8 * m + b) := by
  change BitVec.extractLsb' (n := 8 + 8 + 8 + 8 + 8 + 8 + 8 + 8) (8 * b) 8 (s.hostTbufWord m) = _
  rw [State.hostTbufWord]
  interval_cases b <;>
    simp [BitVec.extractLsb'_append_eq_of_le, BitVec.extractLsb'_append_eq_right, -Nat.reduceAdd]

theorem State.hostByte_of_beyond {s : State} {k : Nat} (h : s.cfg.tbufBytes ≤ k) : s.hostByte k = 0 :=
  if_pos h

theorem State.hostByte_of_written {s : State} {k : Nat} {c : Byte} (h : k < s.cfg.tbufBytes)
    (hc : s.tbuf.read? k = some c) : s.hostByte k = c := by
  rw [State.hostByte, if_neg (Nat.not_le.2 h), hc]

/-- A host write of TBUF word m writes the bytes of its eight lanes below TBUF_BYTES and no other (R85). -/
theorem State.read?_hostWriteTbufWord (s : State) (m : Nat) (w : Word) (k : Nat) :
    (s.hostWriteTbufWord m w).tbuf.read? k =
      if 8 * m ≤ k ∧ k < s.cfg.tbufBytes ∧ k - 8 * m < 8 then some (byteLane w (k - 8 * m))
      else s.tbuf.read? k := by
  have hlanes : k - 8 * m ∈ [0, 1, 2, 3, 4, 5, 6, 7] ↔ k - 8 * m < 8 := List.mem_range (n := 8)
  rw [State.hostWriteTbufWord, State.setTbuf_tbuf, read?_writeLanes _ _ _ _ _ _ (by decide)]
  simp only [hlanes]

/-- Settles O53: a write acts on the lanes of its word, and each lane of a read is one byte. -/
theorem hostTextAccess : Obligations.HostTextAccess := by
  intro s m rest hb hm
  have haligned : (0x400 + 8 * m) % 8 = 0 := by omega
  have htarget : portTarget s.cfg (0x400 + 8 * m) = .tbufWord m := portTarget_tbufWord hm
  refine ⟨fun w hh => ?_, fun hh => ?_⟩
  · have hstep : step s = .next ((s.setHost rest).hostWriteTbufWord m w) := by
      rw [step_write_aligned hb haligned (by omega) hh, htarget]
      rfl
    refine ⟨_, hstep, fun b hlane hlt => ?_, fun k hk => ?_, rfl⟩
    · rw [State.read?_hostWriteTbufWord, State.setHost_cfg, if_pos (by omega), Nat.add_sub_cancel_left]
    · rw [State.read?_hostWriteTbufWord, State.setHost_cfg, if_neg (by omega), State.setHost_tbuf]
  · refine ⟨(s.setHost rest).hostTbufWord m, ?_, fun b hlane => ?_⟩
    · rw [step_read_aligned hb haligned hh, State.hostValue_of_tbufWord (s := s.setHost rest) htarget]
      rfl
    · rw [byteLane_hostTbufWord _ _ hlane]
      exact ⟨State.hostByte_of_beyond, fun c => State.hostByte_of_written⟩

/-! ## Reserved offsets and the host's duties -/

/-- Settles O55: the targets of a reserved and of a read-only offset ignore writes, and a read changes only
`hostData`. -/
theorem reservedOffsetsDoNothing : Obligations.ReservedOffsetsDoNothing := by
  intro s t offset rest hb haligned
  refine ⟨fun hres => ⟨fun hh => ?_, fun w hh => ?_⟩, fun hro w hh => ?_, fun hh ht => ?_⟩
  · have hvalue : (s.setHost rest).hostValue offset = 0 :=
      State.hostValue_of_reserved (portTarget_reserved hres)
    rw [step_read_aligned hb haligned hh, hvalue]
    rfl
  · rw [step_write_aligned hb haligned (by omega) hh, portTarget_reserved hres]
    rfl
  · rw [step_write_aligned hb haligned (by omega) hh, hostWriteTarget_readOnly hro]
    rfl
  · rw [step_read_aligned hb haligned hh] at ht
    cases ht
    rfl

/-- Settles O56: an access that is not admitted is refused, and TLEN takes only values up to TBUF_BYTES. -/
theorem hostDutiesAreRefused : Obligations.HostDutiesAreRefused := by
  intro s offset bytes w rest hb
  refine ⟨fun hshape => ⟨fun hh => ?_, fun hh => ?_⟩, fun hh => ?_⟩
  · rw [step_read hb hh]
    exact if_neg (not_admitted hshape)
  · rw [step_of_idle hb hh, takeAccess_write_refused (not_admitted hshape)]
    rfl
  · have hstep : step s = hostWriteTlen (s.setHost rest) w := step_write_aligned hb rfl (by decide) hh
    rw [hstep]
    exact ⟨fun hlt => if_neg (Nat.not_le.2 hlt), fun hle => if_pos hle⟩

end Sys2Proof.Machine

/-! # The encoding family: illegal first words and the second word of LDU64 -/

namespace Sys2Proof

/-! ## The checks on a first word -/

/-- R127: the first word `w` selects row `r` of the map and passes each of its checks. -/
structure SelectsRow (hasSigned : Bool) (w : Word) (r : OpRow) : Prop where
  mem : r ∈ opcodeTable
  op : r.op = opField w
  signed : r.signed = true → hasSigned = true
  mask : w &&& r.fmt.mask &&& ~~~(0xFF#64) = 0
  dests : r.fmt = .DDSS → rdField w ≠ rd2Field w

/-- R127: a first word is legal exactly when it passes the checks of its row. -/
theorem decodeFirst_eq_ok_iff {hasSigned : Bool} {w : Word} {r : OpRow} :
    decodeFirst hasSigned w = .ok r ↔ SelectsRow hasSigned w r := by
  constructor
  · intro h
    rw [decodeFirst] at h
    split at h
    · cases h
    · rename_i r' hfind
      obtain ⟨hmem, hop⟩ := mem_of_opcodeTable_find hfind
      split_ifs at h with hsigned hmask hdests
      cases h
      exact ⟨hmem, hop, by simpa using hsigned, not_not.1 hmask, fun hf he => hdests ⟨hf, he⟩⟩
  · rintro ⟨hmem, hop, hsigned, hmask, hdests⟩
    have hfind := opcodeTable_find_of_mem hmem
    rw [hop] at hfind
    have hs : ¬(r.signed && !hasSigned) = true := by simpa using hsigned
    have hd : ¬(r.fmt = .DDSS ∧ rdField w = rd2Field w) := fun h => hdests h.1 h.2
    simp only [decodeFirst, hfind, if_neg hs, if_neg (not_not.2 hmask), if_neg hd]

/-- R126: an opcode has at most one row. -/
theorem opcodeTable_eq_of_op_eq {r r' : OpRow} (hr : r ∈ opcodeTable) (hr' : r' ∈ opcodeTable)
    (h : r.op = r'.op) : r = r' := by
  have hfind := opcodeTable_find_of_mem hr
  rw [h, opcodeTable_find_of_mem hr'] at hfind
  exact (Option.some.inj hfind).symm

/-- A legal first word passes the checks of the one row its opcode has. -/
theorem selectsRow_of_legal {hasSigned : Bool} {w : Word} {r r' : OpRow}
    (h : decodeFirst hasSigned w = .ok r') (hr : r ∈ opcodeTable) (hop : r.op = opField w) :
    SelectsRow hasSigned w r := by
  have h' := decodeFirst_eq_ok_iff.1 h
  rwa [← opcodeTable_eq_of_op_eq hr h'.mem (hop.trans h'.op.symm)] at h'

/-- A missing second word is no fault of the first word (R131). -/
theorem decodeFirst_ne_secondWordMissing {hasSigned : Bool} {w : Word} {rd : Reg} :
    decodeFirst hasSigned w ≠ .error (.secondWordMissing rd) := by
  rw [decodeFirst]
  split
  · nofun
  · split_ifs <;> nofun

/-- R128: no row of the map has an opcode that is illegal for the block. -/
theorem not_illegalOpcode_of_mem : ∀ hasSigned, ∀ r ∈ opcodeTable, (r.signed = true → hasSigned = true) →
    ¬Machine.IllegalOpcode hasSigned r.op.toNat := by
  simp only [Machine.IllegalOpcode]
  decide

/-! ## Must-be-zero bits -/

/-- Bits from `k` up have nothing in common with a number below `2 ^ k`. -/
theorem and_eq_zero_of_lt {w m : Word} {k : Nat} (hw : w.toNat < 2 ^ k) (hm : 2 ^ k ∣ m.toNat) :
    w &&& m = 0 := by
  obtain ⟨c, hc⟩ := hm
  apply BitVec.eq_of_toNat_eq
  rw [BitVec.toNat_and, hc]
  apply Nat.eq_of_testBit_eq
  intro i
  by_cases hi : k ≤ i
  · simp [Nat.testBit_lt_two_pow (hw.trans_le (Nat.pow_le_pow_right (by decide) hi))]
  · simp [Nat.testBit_two_pow_mul, hi]

/-- The must-be-zero bits of format DDSS are zero in a word that packs four registers (R122). -/
theorem packWord_mask_DDSS (op : Byte) (rd rs1 rs2 rd2 : Reg) :
    packWord op rd rs1 rs2 rd2 0 &&& Format.DDSS.mask &&& ~~~(0xFF#64) = 0 := by
  have hlt : (packWord op rd rs1 rs2 rd2 0).toNat < 2 ^ 24 := by
    have := op.isLt
    simp only [packWord_toNat, BitVec.ofNat_eq_ofNat, BitVec.toNat_ofNat]
    omega
  rw [BitVec.and_assoc]
  exact and_eq_zero_of_lt hlt (by decide)

/-- R121, R122, R126: with different destinations the word of a format DDSS row decodes to the command of the row. -/
theorem decodesTo_of_rowDDSS {op : Byte} {c : Reg → Reg → Reg → Reg → Instr} (hr : rowDDSS op c ∈ opcodeTable)
    {rd rd2 : Reg} (hne : rd ≠ rd2) (rs1 rs2 : Reg) :
    Machine.DecodesTo op.toNat rd rs1 rs2 rd2 0 (c rd rd2 rs1 rs2) := by
  have hw : Machine.fieldsWord op.toNat rd rs1 rs2 rd2 0 = packWord op rd rs1 rs2 rd2 0 :=
    fieldsWord_eq_packWord op rd rs1 rs2 rd2 0
  rw [Machine.DecodesTo, hw, decode_of_row hr (by simp [rowDDSS]) nofun (packWord_mask_DDSS op rd rs1 rs2 rd2)
    (by simpa [rowDDSS] using hne) nofun]
  simp [rowDDSS]

/-- R131: the first word of an LDU64 is legal, and alone it is no command. -/
theorem decode_ldu64_first (hasSigned : Bool) (rd : Reg) :
    decode hasSigned [packWord 0x03 rd 0 0 0 0] = .error (.secondWordMissing rd) := by
  have hfirst : decodeFirst hasSigned (packWord 0x03 rd 0 0 0 0) = .ok (rowL 0x03 .ldu64) :=
    decodeFirst_eq_ok_iff.2
      ⟨by simp [opcodeTable, opcodeRowsBase], by simp [rowL], nofun, packWord_mask_D 0x03 rd, nofun⟩
  simp only [decode, hfirst, rowL, if_true, rdField_packWord]

theorem Instr.length_eq_two_iff {i : Instr} : i.length = 2 ↔ ∃ rd w1, i = .ldu64 rd w1 := by
  constructor
  · intro h
    cases i with
    | ldu64 rd w1 => exact ⟨rd, w1, rfl⟩
    | _ => simp [Instr.length] at h
  · rintro ⟨rd, w1, rfl⟩
    rfl

end Sys2Proof

namespace Sys2Proof.Machine

variable {s : State} {w : Word} {rest : List HostAccess}

/-! ## Illegal first words -/

/-- R86, R422: a ready core takes a pushed word as a first word. -/
theorem step_of_ready (hs : s.ready) (h : s.host = pushWord w :: rest) :
    step s = (acceptFirst w (s.setHost rest)).result := by
  obtain ⟨hbusy, hfault, hwait⟩ := hs
  rw [step_eq_result, fetch_of_pushWord hbusy h, acceptWord_of_ready (s := s.setHost rest) hfault hwait]

/-- A word that fails a check of R127 is ILLEGAL_COMMAND. -/
theorem acceptFirst_of_not_legal (h : ∀ r, decodeFirst s.cfg.hasSigned w ≠ .ok r) :
    acceptFirst w s = .done (raise .illegalCommand s) := by
  cases hd : decodeFirst s.cfg.hasSigned w with
  | ok r => exact absurd hd (h r)
  | error e =>
    cases e with
    | secondWordMissing rd => exact absurd hd decodeFirst_ne_secondWordMissing
    | noWord | unassignedOpcode | signedAbsent | reservedBits | sameDestination => simp only [acceptFirst, decode, hd]

/-- R127, R384: a word that fails a check halts a ready core. -/
theorem haltsIllegal_of_not_legal (hs : s.ready) (hh : s.host = pushWord w :: rest)
    (h : ∀ r, decodeFirst s.cfg.hasSigned w ≠ .ok r) : HaltsIllegal s rest := by
  rw [HaltsIllegal, step_of_ready hs hh, acceptFirst_of_not_legal (s := s.setHost rest) h]
  rfl

/-- Settles O5: a legal word has a row, whose opcode is not illegal and whose must-be-zero bits are zero. -/
theorem illegalFirstWordHalts : Obligations.IllegalFirstWordHalts := by
  intro s w rest hs hh
  refine ⟨fun hop => haltsIllegal_of_not_legal hs hh fun r hok => ?_,
    fun r hr hop hmask => haltsIllegal_of_not_legal hs hh fun r' hok => ?_⟩
  · have hrow := decodeFirst_eq_ok_iff.1 hok
    rw [← hrow.op] at hop
    exact not_illegalOpcode_of_mem _ r hrow.mem hrow.signed hop
  · exact hmask (selectsRow_of_legal hok hr hop).mask

/-- R130: no word of a format DDSS row with rd = rd2 is legal. -/
theorem not_legal_of_sameDestination {op : Byte} {c : Reg → Reg → Reg → Reg → Instr}
    (hr : rowDDSS op c ∈ opcodeTable) (hasSigned : Bool) (rd rs1 rs2 : Reg) (r : OpRow) :
    decodeFirst hasSigned (fieldsWord op.toNat rd rs1 rs2 rd 0) ≠ .ok r := by
  have hw : fieldsWord op.toNat rd rs1 rs2 rd 0 = packWord op rd rs1 rs2 rd 0 :=
    fieldsWord_eq_packWord op rd rs1 rs2 rd 0
  rw [hw]
  intro h
  exact (selectsRow_of_legal h hr (by simp [rowDDSS])).dests rfl (by simp)

/-- Settles O6: the last check of R127 rejects the words, the meanings make the same check first, and it is the only
one on the registers of a DDSS word. -/
theorem sameDestinationHalts : Obligations.SameDestinationHalts := by
  have hmulw : rowDDSS 0x1A .mulw ∈ opcodeTable := by simp [opcodeTable, opcodeRowsBase]
  have hdivremu : rowDDSS 0x22 .divremu ∈ opcodeTable := by simp [opcodeTable, opcodeRowsUnits]
  refine ⟨?_, fun s rd rs1 rs2 => ⟨?_, ?_⟩, fun rd rd2 rs1 rs2 hne => ?_⟩
  · rintro s rd rs1 rs2 rest op hs (rfl | rfl) hh
    · exact haltsIllegal_of_not_legal hs hh (not_legal_of_sameDestination hmulw _ rd rs1 rs2)
    · exact haltsIllegal_of_not_legal hs hh (not_legal_of_sameDestination hdivremu _ rd rs1 rs2)
  · exact faultsWith_iff.2 (if_pos rfl)
  · exact faultsWith_iff.2 (if_pos rfl)
  · exact ⟨decodesTo_of_rowDDSS hmulw hne rs1 rs2, decodesTo_of_rowDDSS hdivremu hne rs1 rs2⟩

/-! ## The two words of LDU64 -/

/-- R131: the first word of an LDU64 sets WAIT2. -/
theorem acceptFirst_ldu64 (s : State) (rd : Reg) :
    acceptFirst (packWord 0x03 rd 0 0 0 0) s = .done (.next (s.setWait2 (some rd))) := by
  simp only [acceptFirst, decode_ldu64_first]

/-- R131: while WAIT2 = 1 the next word, whatever its bits, completes the LDU64. -/
theorem step_of_waiting {rd : Reg} (hb : s.busy = false) (hf : s.fault = false) (hw : s.wait2 = some rd)
    (hh : s.host = pushWord w :: rest) : step s = exec (.ldu64 rd w) (s.setHost rest).setBusy := by
  have haccept : acceptWord w (s.setHost rest) = .run (.ldu64 rd w) (s.setHost rest).setBusy := by
    simp [acceptWord, hf, hw]
  rw [step_eq_result, fetch_of_pushWord hb hh, haccept]
  rfl

theorem zextImm64_toNat (w : Word) : (zextImm64 w).toNat = w.toNat := by
  have := w.isLt
  rw [zextImm64, BitVec.toNat_setWidth, Nat.mod_eq_of_lt (by omega)]

/-- R162: an LDU64 with both its words writes the second one, zero-extended. -/
theorem exec_ldu64 (rd : Reg) (imm64 : Word) (s : State) :
    exec (.ldu64 rd imm64) s = .next (((s.setWait2 none).setReg rd (zextImm64 imm64)).advance 2) := rfl

/-- Settles O8: the first word only waits, and the step that takes the second word runs the LDU64. -/
theorem ldu64TakesTheNextWord : Obligations.Ldu64TakesTheNextWord := by
  refine ⟨fun s rd rest hs hh => ?_, fun s rd w1 rest hb hf hw hh => ?_, fun s rd imm64 => ?_,
    fun s rd _ hh => ?_, fun i => Instr.length_eq_two_iff⟩
  · have hword : fieldsWord 0x03 rd 0 0 0 0 = packWord 0x03 rd 0 0 0 0 :=
      fieldsWord_eq_packWord 0x03 rd 0 0 0 0
    rw [hword] at hh
    rw [step_of_ready hs hh, acceptFirst_ldu64]
    rfl
  · exact ⟨_, zextImm64 w1, (step_of_waiting hb hf hw hh).trans (exec_ldu64 rd w1 _), zextImm64_toNat w1,
      writesRegs_setReg rd _, rfl, rfl, rfl, rfl, hf, rfl, rfl, sameText_refl⟩
  · exact ⟨_, zextImm64 imm64, exec_ldu64 rd imm64 s, zextImm64_toNat imm64, writesRegs_setReg rd _, rfl, rfl, rfl,
      rfl, rfl, sameText_refl, sameControl_refl⟩
  · rw [step_eq_result, fetch_of_nil hh]
    rfl

end Sys2Proof.Machine

/-! # The limb array family: constants, comparisons and the borrow chain -/

namespace Sys2Proof

/-! ## Format DSS -/

/-- The must-be-zero bits of format DSS are zero in a word that packs three registers (R122). -/
theorem packWord_mask_DSS (op : Byte) (rd rs1 rs2 : Reg) :
    packWord op rd rs1 rs2 0 0 &&& Format.DSS.mask &&& ~~~(0xFF#64) = 0 := by
  have hlt : (packWord op rd rs1 rs2 0 0).toNat < 2 ^ 20 := by
    have := op.isLt
    simp only [packWord_toNat, Fin.coe_ofNat_eq_mod, BitVec.ofNat_eq_ofNat, BitVec.toNat_ofNat]
    omega
  rw [BitVec.and_assoc]
  exact and_eq_zero_of_lt hlt (by decide)

/-- R121, R122, R126: in a block with the signed extension the word of a format DSS row decodes to the command of the
row. -/
theorem decodesTo_of_rowDSS {op : Byte} {signed : Bool} {c : Reg → Reg → Reg → Instr}
    (hr : rowDSS op signed c ∈ opcodeTable) (rd rs1 rs2 : Reg) :
    Machine.DecodesTo op.toNat rd rs1 rs2 0 0 (c rd rs1 rs2) := by
  have hw : Machine.fieldsWord op.toNat rd rs1 rs2 0 0 = packWord op rd rs1 rs2 0 0 :=
    fieldsWord_eq_packWord op rd rs1 rs2 0 0
  rw [Machine.DecodesTo, hw, decode_of_row hr (by simp [rowDSS]) (fun _ => rfl) (packWord_mask_DSS op rd rs1 rs2)
    nofun nofun]
  simp [rowDSS]

end Sys2Proof

namespace Sys2Proof.Machine

/-! ## Limb lists as numbers -/

@[simp] theorem limbs_length (v : U256) : (limbs v).length = 4 := rfl

theorem limbsValue_lt (xs : List Word) : limbsValue xs < 2 ^ (64 * xs.length) := by
  induction xs with
  | nil => simp [limbsValue]
  | cons x xs ih =>
    have hx := x.isLt
    rw [limbsValue, List.length_cons, Nat.mul_succ, Nat.pow_add]
    omega

/-- Limb lists of the same length and value are equal (R9). -/
theorem eq_of_limbsValue_eq {xs ys : List Word} (hlen : xs.length = ys.length)
    (h : limbsValue xs = limbsValue ys) : xs = ys := by
  induction xs generalizing ys with
  | nil => exact (List.length_eq_zero_iff.1 hlen.symm).symm
  | cons x xs ih =>
    cases ys with
    | nil => cases hlen
    | cons y ys =>
      have hx := x.isLt
      have hy := y.isLt
      simp only [limbsValue] at h
      have hhead : x = y := BitVec.eq_of_toNat_eq (by omega)
      have htail : xs = ys := ih (Nat.succ.inj hlen) (by omega)
      rw [hhead, htail]

/-! ## The borrow chain -/

/-- One limb of the borrow chain, with a borrow in of 0 or 1 (R185). -/
theorem limbSub_toNat (x y : Word) {b : Nat} (hb : b ≤ 1) :
    (x - y - BitVec.ofNat 64 b).toNat + y.toNat + b =
      x.toNat + 2 ^ 64 * (if x.toNat < y.toNat + b then 1 else 0) := by
  have hx := x.isLt
  have hy := y.isLt
  simp only [BitVec.toNat_sub, BitVec.toNat_ofNat]
  split <;> omega

theorem subChain_length {xs ys : List Word} (h : xs.length = ys.length) (b : Nat) :
    (subChain xs ys b).1.length = xs.length := by
  induction xs generalizing ys b with
  | nil => rfl
  | cons x xs ih =>
    cases ys with
    | nil => cases h
    | cons y ys => simp only [subChain, List.length_cons, ih (Nat.succ.inj h)]

/-- R185: the difference limbs and the subtrahend with its borrow in make up the minuend, and a borrow out counts one
more limb. -/
theorem subChain_value {xs ys : List Word} (h : xs.length = ys.length) {b : Nat} (hb : b ≤ 1) :
    limbsValue (subChain xs ys b).1 + limbsValue ys + b =
      limbsValue xs + 2 ^ (64 * xs.length) * (subChain xs ys b).2 := by
  induction xs generalizing ys b with
  | nil =>
    obtain rfl := List.length_eq_zero_iff.1 h.symm
    simp [subChain, limbsValue]
  | cons x xs ih =>
    cases ys with
    | nil => cases h
    | cons y ys =>
      have hlimb := limbSub_toNat x y hb
      have hrest := ih (Nat.succ.inj h) (b := if x.toNat < y.toNat + b then 1 else 0) (by split <;> omega)
      simp only [subChain, limbsValue, List.length_cons]
      rw [Nat.mul_succ, Nat.pow_add 2 (64 * xs.length) 64]
      generalize (if x.toNat < y.toNat + b then 1 else 0) = b' at hlimb hrest
      linear_combination hlimb + 2 ^ 64 * hrest

/-- R185: the chain borrows exactly when the minuend is below the subtrahend, and the difference limbs stand for the
wrapped difference. -/
theorem subChain_limbs (x y : U256) :
    subChain (limbs x) (limbs y) 0 = (limbs (x - y), if x.toNat < y.toNat then 1 else 0) := by
  have hx := x.isLt
  have hy := y.isLt
  have hsame : (limbs x).length = (limbs y).length := (limbs_length x).trans (limbs_length y).symm
  have hlen := subChain_length hsame 0
  rw [limbs_length] at hlen
  have hlt := limbsValue_lt (subChain (limbs x) (limbs y) 0).1
  have hvalue : limbsValue (subChain (limbs x) (limbs y) 0).1 + y.toNat =
      x.toNat + 2 ^ (64 * 4) * (subChain (limbs x) (limbs y) 0).2 := by
    simpa only [limbsValue_limbs, limbs_length, Nat.add_zero] using subChain_value hsame (Nat.zero_le 1)
  rw [hlen] at hlt
  have hborrow : (subChain (limbs x) (limbs y) 0).2 = if x.toNat < y.toNat then 1 else 0 := by
    split <;> omega
  refine Prod.ext (eq_of_limbsValue_eq hlen ?_) hborrow
  rw [hborrow] at hvalue
  simp only [limbsValue_limbs, BitVec.toNat_sub]
  split at hvalue <;> omega

/-! ## The comparator -/

theorem foldl_or_eq_zero_iff (ls : List Word) (a : Word) :
    ls.foldl (· ||| ·) a = 0 ↔ a = 0 ∧ ∀ l ∈ ls, l = 0 := by
  induction ls generalizing a with
  | nil => simp
  | cons l ls ih =>
    rw [List.foldl_cons, ih, List.forall_mem_cons, ← and_assoc]
    exact and_congr_left' BitVec.or_eq_zero_iff

theorem forall_limbs_eq_zero_iff (v : U256) : (∀ l ∈ limbs v, l = 0) ↔ v = 0 := by
  constructor
  · intro h
    refine eq_of_limbs fun j hj => ?_
    have hzero : limb v j = 0 := h _ (by interval_cases j <;> simp [limbs])
    rw [hzero]
    simp [limb]
  · rintro rfl
    simp [limbs, limb]

/-- R168: `lt` is the borrow out of the chain. -/
theorem ltDatapath_eq_true_iff (x y : U256) : ltDatapath x y = true ↔ x.toNat < y.toNat := by
  rw [ltDatapath, subChain_limbs]
  simp

/-- R168: the operands are equal exactly when no bit of the difference limbs is set. -/
theorem eqDatapath_eq_true_iff (x y : U256) : eqDatapath x y = true ↔ x = y := by
  rw [eqDatapath, subChain_limbs, beq_iff_eq, foldl_or_eq_zero_iff, forall_limbs_eq_zero_iff]
  exact (and_iff_right rfl).trans sub_eq_zero

/-- Settles O46: the value of the borrow chain fixes its limbs and its borrow, and the comparator reads them. -/
theorem subtractorChainSubtracts : Obligations.SubtractorChainSubtracts := fun x y =>
  ⟨subChain_limbs x y, ltDatapath_eq_true_iff x y, eqDatapath_eq_true_iff x y⟩

/-! ## Constants and comparisons -/

/-- Settles O20: each is a row of format D that writes one register. -/
theorem constantsAreWritten : Obligations.ConstantsAreWritten := by
  have hzero : rowD 0x01 .zero ∈ opcodeTable := by simp [opcodeTable, opcodeRowsBase]
  have hone : rowD 0x02 .one ∈ opcodeTable := by simp [opcodeTable, opcodeRowsBase]
  intro s rd
  exact ⟨decodesTo_of_rowD hzero rd, decodesTo_of_rowD hone rd, ⟨0, rfl, completes_of_setReg rfl⟩,
    1, rfl, completes_of_setReg rfl⟩

/-- R164: a boolean result is 1 or 0. -/
theorem boolValue_toNat (b : Bool) : (boolValue b).toNat = if b = true then 1 else 0 := by
  cases b <;> rfl

/-- R165: the result of EQ as a number. -/
theorem boolValue_beq_toNat (x y : U256) :
    (boolValue (x == y)).toNat = if x.toNat = y.toNat then 1 else 0 := by
  simp only [boolValue_toNat, beq_iff_eq, BitVec.toNat_inj]

/-- R166: the result of LT as a number. -/
theorem boolValue_subBorrow_toNat (x y : U256) :
    (boolValue (subBorrow x y)).toNat = if x.toNat < y.toNat then 1 else 0 := by
  simp only [boolValue_toNat, subBorrow, decide_eq_true_eq]

/-- R10: MAX is 2^256 - 1. -/
theorem maxValue_toNat : maxValue.toNat = 2 ^ 256 - 1 := BitVec.toNat_allOnes

/-- R167: the result of CMP as a number, with -1 as 2^256 - 1. -/
theorem cmpValue_toNat (x y : U256) : (cmpValue x y).toNat =
    if x.toNat < y.toNat then 2 ^ 256 - 1 else if x.toNat = y.toNat then 0 else 1 := by
  simp only [cmpValue, BitVec.toNat_inj]
  split_ifs
  · exact maxValue_toNat
  · rfl
  · rfl

/-- Settles O21: each is a row of format DSS that writes one register, and the values are those of `boolValue` and
`cmpValue`. -/
theorem comparisonsWriteTheirResult : Obligations.ComparisonsWriteTheirResult := by
  have heq : rowDSS 0x08 false .eq ∈ opcodeTable := by simp [opcodeTable, opcodeRowsBase]
  have hlt : rowDSS 0x09 false .lt ∈ opcodeTable := by simp [opcodeTable, opcodeRowsBase]
  have hcmp : rowDSS 0x0A false .cmp ∈ opcodeTable := by simp [opcodeTable, opcodeRowsBase]
  intro s rd rs1 rs2
  exact ⟨decodesTo_of_rowDSS heq rd rs1 rs2, decodesTo_of_rowDSS hlt rd rs1 rs2, decodesTo_of_rowDSS hcmp rd rs1 rs2,
    ⟨_, boolValue_beq_toNat _ _, completes_of_setReg rfl⟩,
    ⟨_, boolValue_subBorrow_toNat _ _, completes_of_setReg rfl⟩,
    _, cmpValue_toNat _ _, completes_of_setReg rfl⟩

end Sys2Proof.Machine

/-! # The arithmetic family: the carry chain, the schoolbook multiplier, and the arithmetic commands -/

namespace Sys2Proof.Machine

/-! ## The carry chain -/

/-- One limb and the carry out of it make up the limb sum (R181, R190). -/
theorem toNat_ofNat_add_carry (t : Nat) : (BitVec.ofNat 64 t).toNat + 2 ^ 64 * (t / 2 ^ 64) = t := by
  rw [BitVec.toNat_ofNat, Nat.mod_add_div]

theorem addChain_length {xs ys : List Word} (h : xs.length = ys.length) (c : Nat) :
    (addChain xs ys c).1.length = xs.length := by
  induction xs generalizing ys c with
  | nil => rfl
  | cons x xs ih =>
    cases ys with
    | nil => cases h
    | cons y ys => simp only [addChain, List.length_cons, ih (Nat.succ.inj h)]

/-- R181: the sum limbs and the carry out make up the operands and the carry in. -/
theorem addChain_value {xs ys : List Word} (h : xs.length = ys.length) (c : Nat) :
    limbsValue (addChain xs ys c).1 + 2 ^ (64 * xs.length) * (addChain xs ys c).2 =
      limbsValue xs + limbsValue ys + c := by
  induction xs generalizing ys c with
  | nil =>
    obtain rfl := List.length_eq_zero_iff.1 h.symm
    simp [addChain, limbsValue]
  | cons x xs ih =>
    cases ys with
    | nil => cases h
    | cons y ys =>
      have hlimb := toNat_ofNat_add_carry (x.toNat + y.toNat + c)
      have hrest := ih (Nat.succ.inj h) ((x.toNat + y.toNat + c) / 2 ^ 64)
      simp only [addChain, limbsValue, List.length_cons]
      rw [Nat.mul_succ, Nat.pow_add 2 (64 * xs.length) 64]
      linear_combination hlimb + 2 ^ 64 * hrest

/-- Settles O45: the value of the chain fixes its carry, and with it the limbs. -/
theorem adderChainAdds : Obligations.AdderChainAdds := by
  intro x y
  have hx := x.isLt
  have hy := y.isLt
  have hsame : (limbs x).length = (limbs y).length := (limbs_length x).trans (limbs_length y).symm
  have hlen := addChain_length hsame 0
  rw [limbs_length] at hlen
  have hlt := limbsValue_lt (addChain (limbs x) (limbs y) 0).1
  rw [hlen] at hlt
  have hvalue : limbsValue (addChain (limbs x) (limbs y) 0).1 + 2 ^ (64 * 4) * (addChain (limbs x) (limbs y) 0).2 =
      x.toNat + y.toNat := by
    simpa only [limbsValue_limbs, limbs_length, Nat.add_zero] using addChain_value hsame 0
  have hcarry : (addChain (limbs x) (limbs y) 0).2 = if 2 ^ 256 ≤ x.toNat + y.toNat then 1 else 0 := by
    split <;> omega
  refine Prod.ext (eq_of_limbsValue_eq hlen ?_) hcarry
  rw [limbsValue_limbs, BitVec.toNat_add]
  omega

/-! ## The product and its halves -/

/-- Twice the width holds the product of two words. -/
theorem toNat_setWidth_mul_setWidth {w : Nat} (x y : BitVec w) :
    (x.setWidth (w + w) * y.setWidth (w + w)).toNat = x.toNat * y.toNat := by
  have hwide (v : BitVec w) : (v.setWidth (w + w)).toNat = v.toNat := BitVec.toNat_setWidth_of_le (by omega)
  have hlt : x.toNat * y.toNat < 2 ^ (w + w) := by
    rw [Nat.pow_add]
    exact Nat.mul_lt_mul'' x.isLt y.isLt
  rw [BitVec.toNat_mul, hwide, hwide, Nat.mod_eq_of_lt hlt]

/-- R190: `P` is the exact product of two operands. -/
theorem product_toNat (x y : U256) : (product x y).toNat = x.toNat * y.toNat :=
  toNat_setWidth_mul_setWidth x y

theorem productLow_toNat (x y : U256) : (productLow x y).toNat = x.toNat * y.toNat % 2 ^ 256 := by
  rw [productLow, BitVec.extractLsb'_toNat, product_toNat, Nat.shiftRight_zero]

/-- The product of two operands has its bits from 256 up in the high half. -/
theorem productHigh_toNat (x y : U256) : (productHigh x y).toNat = x.toNat * y.toNat / 2 ^ 256 := by
  have hlt : x.toNat * y.toNat < 2 ^ 256 * 2 ^ 256 := Nat.mul_lt_mul'' x.isLt y.isLt
  rw [productHigh, BitVec.extractLsb'_toNat, product_toNat, Nat.shiftRight_eq_div_pow,
    Nat.mod_eq_of_lt (Nat.div_lt_of_lt_mul hlt)]

/-- R194: the halves make up the exact product. -/
theorem productLow_add_productHigh (x y : U256) :
    (productLow x y).toNat + 2 ^ 256 * (productHigh x y).toNat = x.toNat * y.toNat := by
  rw [productLow_toNat, productHigh_toNat, Nat.mod_add_div]

/-- The low half is the product modulo 2^256 (R193). -/
theorem productLow_eq_mul (x y : U256) : productLow x y = x * y :=
  BitVec.eq_of_toNat_eq (by rw [productLow_toNat, BitVec.toNat_mul])

theorem productLow_comm (x y : U256) : productLow x y = productLow y x := by
  rw [productLow, productLow, product, product, BitVec.mul_comm]

theorem productHigh_comm (x y : U256) : productHigh x y = productHigh y x := by
  rw [productHigh, productHigh, product, product, BitVec.mul_comm]

theorem productLow_assoc (x y z : U256) : productLow (productLow x y) z = productLow x (productLow y z) := by
  simp only [productLow_eq_mul, BitVec.mul_assoc]

/-! ## The schoolbook multiplier -/

theorem limbsValue_append (xs ys : List Word) :
    limbsValue (xs ++ ys) = limbsValue xs + 2 ^ (64 * xs.length) * limbsValue ys := by
  induction xs with
  | nil => simp [limbsValue]
  | cons x xs ih =>
    rw [List.cons_append, limbsValue, limbsValue, ih, List.length_cons, Nat.mul_succ, Nat.pow_add]
    ring

theorem limbsValue_replicate_zero (n : Nat) : limbsValue (List.replicate n 0) = 0 := by
  induction n with
  | zero => rfl
  | succ n ih =>
    rw [List.replicate_succ, limbsValue, ih]
    rfl

theorem limbs_getElem? (v : U256) {j : Nat} (hj : j < 4) : (limbs v)[j]? = some (limb v j) := by
  interval_cases j <;> rfl

/-- R190: a limb of the accumulator, a product of two limbs and a carry limb fit in two limbs, so the carry out is a
limb again. -/
theorem mulCarry_lt (p x y : Word) {c : Nat} (hc : c < 2 ^ 64) :
    (p.toNat + x.toNat * y.toNat + c) / 2 ^ 64 < 2 ^ 64 := by
  have hp := p.isLt
  have hxy : x.toNat * y.toNat ≤ (2 ^ 64 - 1) * (2 ^ 64 - 1) :=
    Nat.mul_le_mul (Nat.le_pred_of_lt x.isLt) (Nat.le_pred_of_lt y.isLt)
  omega

/-- R190: the inner loop adds `xi` times `ys` and the carry in to the accumulator limbs `qs`. The carry out overwrites
the next limb `p`, and the limbs above stay. -/
theorem mulRow_spec (xi p : Word) {ys qs : List Word} (zs : List Word) (h : qs.length = ys.length) {c : Nat}
    (hc : c < 2 ^ 64) : ∃ row, mulRow xi ys (qs ++ p :: zs) c = row ++ zs ∧ row.length = ys.length + 1 ∧
      limbsValue row = limbsValue qs + xi.toNat * limbsValue ys + c := by
  induction ys generalizing qs c with
  | nil =>
    obtain rfl := List.length_eq_zero_iff.1 h
    exact ⟨[BitVec.ofNat 64 c], rfl, rfl, by simpa [limbsValue] using hc⟩
  | cons y ys ih =>
    cases qs with
    | nil => cases h
    | cons q qs =>
      obtain ⟨row, hrow, hlen, hvalue⟩ := ih (Nat.succ.inj h) (mulCarry_lt q xi y hc)
      have hlimb := toNat_ofNat_add_carry (q.toNat + xi.toNat * y.toNat + c)
      refine ⟨BitVec.ofNat 64 (q.toNat + xi.toNat * y.toNat + c) :: row, ?_, ?_, ?_⟩
      · rw [List.cons_append, mulRow, hrow, List.cons_append]
      · rw [List.length_cons, hlen, List.length_cons]
      · simp only [limbsValue]
        linear_combination hlimb + 2 ^ 64 * hvalue

/-- R190: the outer loop adds the product of `xs` and `ys` to the accumulator limbs `qs`, as long as the limbs that the
rows reach later are still zero. -/
theorem mulRows_spec (xs : List Word) {ys qs : List Word} (h : qs.length = ys.length) :
    (mulRows xs ys (qs ++ List.replicate xs.length 0)).length = xs.length + ys.length ∧
      limbsValue (mulRows xs ys (qs ++ List.replicate xs.length 0)) =
        limbsValue qs + limbsValue xs * limbsValue ys := by
  induction xs generalizing qs with
  | nil => simp [mulRows, limbsValue, h]
  | cons x xs ih =>
    obtain ⟨row, hrow, hlen, hvalue⟩ := mulRow_spec x 0 (List.replicate xs.length 0) h (c := 0) (by decide)
    obtain ⟨r, row, rfl⟩ := List.exists_cons_of_length_eq_add_one hlen
    obtain ⟨hrestLen, hrest⟩ := ih (Nat.succ.inj hlen)
    rw [List.length_cons, List.replicate_succ, mulRows, hrow]
    simp only [List.cons_append, List.length_cons, limbsValue] at hvalue ⊢
    refine ⟨by omega, ?_⟩
    linear_combination hvalue + 2 ^ 64 * hrest

/-- R190: the first four limbs of the multiplier are those of the low half, and the other four those of the high
half. -/
theorem mulDatapath_eq (x y : U256) : mulDatapath x y = limbs (productLow x y) ++ limbs (productHigh x y) := by
  have hzeros : mulDatapath x y =
      mulRows (limbs x) (limbs y) (List.replicate 4 0 ++ List.replicate (limbs x).length 0) := by
    rw [mulDatapath, List.replicate_append_replicate, limbs_length]
  obtain ⟨hlen, hvalue⟩ := mulRows_spec (limbs x) (ys := limbs y) (qs := List.replicate 4 0) rfl
  rw [← hzeros] at hlen hvalue
  refine eq_of_limbsValue_eq (by rw [hlen, List.length_append]; simp only [limbs_length]) ?_
  calc limbsValue (mulDatapath x y)
      = limbsValue (List.replicate 4 0) + limbsValue (limbs x) * limbsValue (limbs y) := hvalue
    _ = x.toNat * y.toNat := by
      rw [limbsValue_replicate_zero, limbsValue_limbs, limbsValue_limbs, Nat.zero_add]
    _ = (productLow x y).toNat + 2 ^ 256 * (productHigh x y).toNat := (productLow_add_productHigh x y).symm
    _ = limbsValue (limbs (productLow x y) ++ limbs (productHigh x y)) := by
      rw [limbsValue_append, limbsValue_limbs, limbsValue_limbs, limbs_length]

/-- Settles O47: the multiplier's limbs are those of the two halves, which make up the exact product. -/
theorem schoolbookProductIsExact : Obligations.SchoolbookProductIsExact := by
  intro x y
  rw [mulDatapath_eq]
  refine ⟨rfl, ?_, fun j hj => ⟨?_, ?_⟩⟩
  · rw [limbsValue_append, limbsValue_limbs, limbsValue_limbs, limbs_length]
    exact productLow_add_productHigh x y
  · rw [List.getElem?_append_left (by rwa [limbs_length]), limbs_getElem? _ hj]
  · rw [List.getElem?_append_right (by rw [limbs_length]; omega), limbs_length, Nat.add_sub_cancel,
      limbs_getElem? _ hj]

/-! ## The arithmetic commands, case by case -/

section Commands

variable {s : State} {rd rd2 rs1 rs2 : Reg}

theorem exec_add_of_fits (h : (s.getReg rs1).toNat + (s.getReg rs2).toNat < 2 ^ 256) :
    exec (.add rd rs1 rs2) s = complete 1 (s.setReg rd (s.getReg rs1 + s.getReg rs2)) :=
  if_neg (by simpa [addCarry] using h)

theorem exec_add_of_carry (h : 2 ^ 256 ≤ (s.getReg rs1).toNat + (s.getReg rs2).toNat) :
    exec (.add rd rs1 rs2) s = raise .overflow s :=
  if_pos (decide_eq_true h)

theorem exec_addo (s : State) (rd rs1 rs2 : Reg) : exec (.addo rd rs1 rs2) s =
    complete 1 ((s.setReg rd (s.getReg rs1 + s.getReg rs2)).setOvf (addCarry (s.getReg rs1) (s.getReg rs2))) := rfl

theorem exec_sub_of_le (h : (s.getReg rs2).toNat ≤ (s.getReg rs1).toNat) :
    exec (.sub rd rs1 rs2) s = complete 1 (s.setReg rd (s.getReg rs1 - s.getReg rs2)) :=
  if_neg (by simpa [subBorrow] using h)

theorem exec_sub_of_borrow (h : (s.getReg rs1).toNat < (s.getReg rs2).toNat) :
    exec (.sub rd rs1 rs2) s = raise .underflow s :=
  if_pos (decide_eq_true h)

theorem exec_mul_of_fits (h : (s.getReg rs1).toNat * (s.getReg rs2).toNat < 2 ^ 256) :
    exec (.mul rd rs1 rs2) s = complete 1 (s.setReg rd (productLow (s.getReg rs1) (s.getReg rs2))) :=
  if_neg (by simpa [mulOverflow] using h)

theorem exec_mul_of_overflow (h : 2 ^ 256 ≤ (s.getReg rs1).toNat * (s.getReg rs2).toNat) :
    exec (.mul rd rs1 rs2) s = raise .overflow s :=
  if_pos (decide_eq_true h)

theorem exec_mulo (s : State) (rd rs1 rs2 : Reg) : exec (.mulo rd rs1 rs2) s =
    complete 1 ((s.setReg rd (productLow (s.getReg rs1) (s.getReg rs2))).setOvf
      (mulOverflow (s.getReg rs1) (s.getReg rs2))) := rfl

theorem exec_mulw_of_same (h : rd = rd2) : exec (.mulw rd rd2 rs1 rs2) s = raise .illegalCommand s :=
  if_pos h

theorem exec_mulw_of_ne (h : rd ≠ rd2) : exec (.mulw rd rd2 rs1 rs2) s =
    complete 1 ((s.setReg rd (productLow (s.getReg rs1) (s.getReg rs2))).setReg rd2
      (productHigh (s.getReg rs1) (s.getReg rs2))) :=
  if_neg h

end Commands

/-! ## The results -/

/-- Settles O22: the carry decides between the fault and the exact sum, and OVF is the carry. -/
theorem addResults : Obligations.AddResults := by
  have hadd : rowDSS 0x10 false .add ∈ opcodeTable := by simp [opcodeTable, opcodeRowsBase]
  have haddo : rowDSS 0x11 false .addo ∈ opcodeTable := by simp [opcodeTable, opcodeRowsBase]
  intro s rd rs1 rs2
  refine ⟨decodesTo_of_rowDSS hadd rd rs1 rs2, decodesTo_of_rowDSS haddo rd rs1 rs2, fun hfits => ?_,
    fun hcarry => faultsWith_iff.2 (exec_add_of_carry hcarry), ?_⟩
  · exact ⟨_, BitVec.toNat_add_of_lt hfits, completes_of_setReg (exec_add_of_fits hfits)⟩
  · exact ⟨_, BitVec.toNat_add _ _, completesWith_of_setReg_setOvf (exec_addo s rd rs1 rs2)⟩

/-- The wrapped difference as an integer (R185). -/
theorem toNat_sub_eq_emod (x y : U256) : ((x - y).toNat : Int) = (x.toNat - y.toNat : Int) % 2 ^ 256 := by
  have hx := x.isLt
  have hy := y.isLt
  rw [BitVec.toNat_sub]
  omega

/-- Settles O23: the borrow decides between the fault and the exact difference, and SUBU does not look at it. -/
theorem subtractResults : Obligations.SubtractResults := by
  have hsub : rowDSS 0x14 false .sub ∈ opcodeTable := by simp [opcodeTable, opcodeRowsBase]
  have hsubu : rowDSS 0x16 false .subu ∈ opcodeTable := by simp [opcodeTable, opcodeRowsBase]
  intro s rd rs1 rs2
  refine ⟨decodesTo_of_rowDSS hsub rd rs1 rs2, decodesTo_of_rowDSS hsubu rd rs1 rs2, fun hle => ?_,
    fun hborrow => faultsWith_iff.2 (exec_sub_of_borrow hborrow), ?_⟩
  · exact ⟨_, BitVec.toNat_sub_of_le hle, completes_of_setReg (exec_sub_of_le hle)⟩
  · exact ⟨_, toNat_sub_eq_emod _ _, completes_of_setReg rfl⟩

/-- Settles O25: the low half is the product modulo 2^256, exact when it does not overflow, and the two halves make
up the product. -/
theorem multiplyResults : Obligations.MultiplyResults := by
  have hmul : rowDSS 0x18 false .mul ∈ opcodeTable := by simp [opcodeTable, opcodeRowsBase]
  have hmulo : rowDSS 0x19 false .mulo ∈ opcodeTable := by simp [opcodeTable, opcodeRowsBase]
  have hmulw : rowDDSS 0x1A .mulw ∈ opcodeTable := by simp [opcodeTable, opcodeRowsBase]
  intro s rd rs1 rs2
  refine ⟨decodesTo_of_rowDSS hmul rd rs1 rs2, decodesTo_of_rowDSS hmulo rd rs1 rs2, fun hfits => ?_,
    fun hover => faultsWith_iff.2 (exec_mul_of_overflow hover), ?_, fun rd2 => ⟨fun hsame => ?_, fun hne => ?_⟩⟩
  · exact ⟨_, (productLow_toNat _ _).trans (Nat.mod_eq_of_lt hfits), completes_of_setReg (exec_mul_of_fits hfits)⟩
  · exact ⟨_, productLow_toNat _ _, completesWith_of_setReg_setOvf (exec_mulo s rd rs1 rs2)⟩
  · exact faultsWith_iff.2 (exec_mulw_of_same hsame)
  · exact ⟨decodesTo_of_rowDDSS hmulw hne rs1 rs2, _, _, productLow_add_productHigh _ _,
      completesWith_of_setReg₂ hne (exec_mulw_of_ne hne)⟩

/-! ## The laws -/

theorem addCarry_comm (x y : U256) : addCarry x y = addCarry y x := by
  rw [addCarry, addCarry, Nat.add_comm]

theorem mulOverflow_comm (x y : U256) : mulOverflow x y = mulOverflow y x := by
  rw [mulOverflow, mulOverflow, Nat.mul_comm]

/-- R184: adding 0 completes and gives the operand. -/
theorem completes_add_zero {s : State} {rs2 : Reg} (rd rs1 : Reg) (h : (s.getReg rs2).toNat = 0) :
    Completes (.add rd rs1 rs2) s rd (s.getReg rs1) := by
  have hfits : (s.getReg rs1).toNat + (s.getReg rs2).toNat < 2 ^ 256 := by
    rw [h]
    exact (s.getReg rs1).isLt
  have hy : s.getReg rs2 = 0#256 := BitVec.eq_of_toNat_eq h
  refine completes_of_setReg ((exec_add_of_fits hfits).trans ?_)
  rw [hy, BitVec.add_zero]

/-- R195: multiplying by 1 completes and gives the operand. -/
theorem completes_mul_one {s : State} {rs2 : Reg} (rd rs1 : Reg) (h : (s.getReg rs2).toNat = 1) :
    Completes (.mul rd rs1 rs2) s rd (s.getReg rs1) := by
  have hfits : (s.getReg rs1).toNat * (s.getReg rs2).toNat < 2 ^ 256 := by
    rw [h, Nat.mul_one]
    exact (s.getReg rs1).isLt
  have hy : s.getReg rs2 = 1#256 := BitVec.eq_of_toNat_eq h
  refine completes_of_setReg ((exec_mul_of_fits hfits).trans ?_)
  rw [hy, productLow_eq_mul, BitVec.mul_one]

/-- Two reporting commands in a row, grouped either way, give the same register when the operation is associative. The
register that holds the first result must not be an operand that the second command still needs. -/
theorem reporting_assoc {c : Reg → Reg → Reg → Instr} {f : U256 → U256 → U256} {g : U256 → U256 → Bool}
    (hc : ∀ s rd rs1 rs2, exec (c rd rs1 rs2) s =
      complete 1 ((s.setReg rd (f (s.getReg rs1) (s.getReg rs2))).setOvf (g (s.getReg rs1) (s.getReg rs2))))
    (hf : ∀ x y z, f (f x y) z = f x (f y z)) (s : State) {rd rs1 rs3 : Reg} (rs2 : Reg) (h1 : rd ≠ rs1)
    (h3 : rd ≠ rs3) :
    ∃ t u t' u', exec (c rd rs1 rs2) s = .next t ∧ exec (c rd rd rs3) t = .next u ∧
      exec (c rd rs2 rs3) s = .next t' ∧ exec (c rd rs1 rd) t' = .next u' ∧ u.getReg rd = u'.getReg rd := by
  refine ⟨_, _, _, _, hc .., hc .., hc .., hc .., ?_⟩
  simp [State.getReg_setReg_ne _ _ _ _ h1.symm, State.getReg_setReg_ne _ _ _ _ h3.symm, hf]

/-- Settles O26: each law is the one of the sum or the product, with the flag and the fault decision symmetric in the
operands. -/
theorem additionAndMultiplicationLaws : Obligations.AdditionAndMultiplicationLaws := by
  intro s rd rs1 rs2
  refine ⟨completes_add_zero rd rs1, completes_mul_one rd rs1, ?_, ?_, ?_, ?_, fun rd2 => ?_, fun rs3 h1 h3 =>
    ⟨reporting_assoc exec_addo BitVec.add_assoc s rs2 h1 h3,
      reporting_assoc exec_mulo productLow_assoc s rs2 h1 h3⟩⟩
  · simp only [exec, execAdd, addCarry_comm (s.getReg rs1), BitVec.add_comm (s.getReg rs1)]
  · simp only [exec, execMul, mulOverflow_comm (s.getReg rs1), productLow_comm (s.getReg rs1)]
  · rw [exec_addo, exec_addo, addCarry_comm, BitVec.add_comm]
  · rw [exec_mulo, exec_mulo, mulOverflow_comm, productLow_comm]
  · simp only [exec, execMulw, productLow_comm (s.getReg rs1), productHigh_comm (s.getReg rs1)]

end Sys2Proof.Machine

/-! # The division family: the reciprocal primitive, Algorithm D, and the division commands -/

namespace Sys2Proof.Machine

/-! ## The division commands -/

theorem udivrem_of_ne_toNat {mode : RemuDiv0} {x y : U256} (h : y.toNat ≠ 0) :
    (udivrem mode x y).1.toNat = x.toNat / y.toNat ∧ (udivrem mode x y).2.toNat = x.toNat % y.toNat := by
  have hy : y ≠ 0 := fun h0 => h (congrArg BitVec.toNat h0)
  rw [udivrem_of_ne hy]
  exact ⟨BitVec.toNat_udiv, BitVec.toNat_umod⟩

/-- R221: the results for a zero divisor, with the remainder of REMU_DIV0. -/
theorem udivrem_of_zero_toNat {mode : RemuDiv0} {x y : U256} (h : y.toNat = 0) :
    (udivrem mode x y).1.toNat = 0 ∧ (udivrem mode x y).2.toNat = match mode with
      | .zero => 0
      | .dividend => x.toNat := by
  have hy : y = 0 := BitVec.eq_of_toNat_eq h
  subst hy
  cases mode <;> exact ⟨congrArg BitVec.toNat udivrem_of_zero, rfl⟩

theorem exec_divremu_of_same {s : State} {rd rd2 rs1 rs2 : Reg} (h : rd = rd2) :
    exec (.divremu rd rd2 rs1 rs2) s = raise .illegalCommand s :=
  if_pos h

theorem exec_divremu_of_ne {s : State} {rd rd2 rs1 rs2 : Reg} (h : rd ≠ rd2) :
    exec (.divremu rd rd2 rs1 rs2) s =
      complete 1 ((s.setReg rd (udivrem s.cfg.remuDiv0 (s.getReg rs1) (s.getReg rs2)).1).setReg rd2
        (udivrem s.cfg.remuDiv0 (s.getReg rs1) (s.getReg rs2)).2) :=
  if_neg h

/-- Settles O27: the commands write the pair of the engine, which is the floor quotient and the remainder unless the
divisor is zero. -/
theorem unsignedDivisionResults : Obligations.UnsignedDivisionResults := by
  have hdivu : rowDSS 0x20 false .divu ∈ opcodeTable := by simp [opcodeTable, opcodeRowsUnits]
  have hremu : rowDSS 0x21 false .remu ∈ opcodeTable := by simp [opcodeTable, opcodeRowsUnits]
  have hdivremu : rowDDSS 0x22 .divremu ∈ opcodeTable := by simp [opcodeTable, opcodeRowsUnits]
  intro s rd rs1 rs2
  refine ⟨decodesTo_of_rowDSS hdivu rd rs1 rs2, decodesTo_of_rowDSS hremu rd rs1 rs2, _, _, udivrem_of_ne_toNat,
    udivrem_of_zero_toNat, completes_of_setReg rfl, completes_of_setReg rfl,
    fun rd2 => ⟨fun hsame => ?_, fun hne => ?_⟩⟩
  · exact faultsWith_iff.2 (exec_divremu_of_same hsame)
  · exact ⟨decodesTo_of_rowDDSS hdivremu hne rs1 rs2, completesWith_of_setReg₂ hne (exec_divremu_of_ne hne)⟩

/-! ## The reciprocal primitive -/

/-- R224: the reciprocal of a normalised limb and its remainder `k`. -/
theorem recip_spec {d : Word} (hd : 2 ^ 63 ≤ d.toNat) :
    ∃ k, 1 ≤ k ∧ k ≤ d.toNat ∧ ((recip d).toNat + 2 ^ 64) * d.toNat + k = 2 ^ 128 := by
  have hlt := d.isLt
  have hlow : 2 ^ 64 ≤ (2 ^ 128 - 1) / d.toNat := (Nat.le_div_iff_mul_le (by omega)).2 (by omega)
  have hhigh : (2 ^ 128 - 1) / d.toNat < 2 ^ 65 := (Nat.div_lt_iff_lt_mul (by omega)).2 (by omega)
  have hrecip : (recip d).toNat + 2 ^ 64 = (2 ^ 128 - 1) / d.toNat := by
    rw [recip, BitVec.toNat_ofNat]
    omega
  have hmod := Nat.mod_lt (2 ^ 128 - 1) (show d.toNat > 0 by omega)
  have hdiv := Nat.div_add_mod' (2 ^ 128 - 1) d.toNat
  exact ⟨(2 ^ 128 - 1) % d.toNat + 1, by omega, by omega, by rw [hrecip]; omega⟩

/-- R224: the estimate. Its high limb is one less than the candidate quotient, and its low limb decides the first
correction. -/
def recipEstimate (u1 u0 d : Word) : Nat := (recip d).toNat * u1.toNat + u1.toNat * 2 ^ 64 + u0.toNat

/-- R224: the remainder that belongs to the candidate quotient `q1 + 1`. It may be negative. -/
def candidateRemainder (u1 u0 d : Word) (q1 : Nat) : Int := u1.toNat * 2 ^ 64 + u0.toNat - (q1 + 1) * d.toNat

/-- R224: the limb that the primitive computes is the candidate remainder modulo 2^64. -/
theorem sub_mul_toNat_eq_candidateRemainder (u1 u0 d : Word) (q1 : Nat) :
    ((u0 - (BitVec.ofNat 64 q1 + 1) * d).toNat : Int) = candidateRemainder u1 u0 d q1 % 2 ^ 64 := by
  have hmul : ((BitVec.ofNat 64 q1 + 1) * d).toNat = (q1 + 1) * d.toNat % 2 ^ 64 := by
    simp [BitVec.toNat_mul, BitVec.toNat_add]
  have hcast : ((q1 + 1) * d.toNat : Int) = (((q1 + 1) * d.toNat : Nat) : Int) := by push_cast; rfl
  have hu0 := u0.isLt
  rw [BitVec.toNat_sub, hmul, candidateRemainder, hcast]
  generalize (q1 + 1) * d.toNat = p
  omega

/-- R224: the candidate remainder times 2^64, with `k` what the reciprocal leaves of 2^128. Multiplying by 2^64 clears
the division in the estimate. -/
theorem scaled_candidateRemainder {u1 u0 d : Word} {k : Nat}
    (hrecip : ((recip d).toNat + 2 ^ 64) * d.toNat + k = 2 ^ 128) :
    2 ^ 64 * candidateRemainder u1 u0 d (recipEstimate u1 u0 d / 2 ^ 64) =
      u1.toNat * k + u0.toNat * (2 ^ 64 - d.toNat) + ((recipEstimate u1 u0 d % 2 ^ 64 : Nat) : Int) * d.toNat -
        2 ^ 64 * d.toNat := by
  have hest := Nat.div_add_mod' (recipEstimate u1 u0 d) (2 ^ 64)
  rw [candidateRemainder]
  generalize recipEstimate u1 u0 d / 2 ^ 64 = q1 at hest ⊢
  generalize recipEstimate u1 u0 d % 2 ^ 64 = q0 at hest ⊢
  rw [recipEstimate] at hest
  zify at hest hrecip
  linear_combination -(d.toNat : Int) * hest - (u1.toNat : Int) * hrecip

/-- R224: the bounds of the candidate remainder (Möller and Granlund). -/
theorem candidateRemainder_bounds {u1 d : Word} (u0 : Word) (hd : 2 ^ 63 ≤ d.toNat) (hu1 : u1.toNat < d.toNat) :
    let r := candidateRemainder u1 u0 d (recipEstimate u1 u0 d / 2 ^ 64)
    let q0 : Int := (recipEstimate u1 u0 d % 2 ^ 64 : Nat)
    0 ≤ r + d.toNat ∧ q0 - 2 ^ 64 < r ∧ (r < 2 ^ 64 - d.toNat ∨ r < q0) := by
  intro r q0
  obtain ⟨k, hk1, hkd, hrecip⟩ := recip_spec hd
  have hscaled : 2 ^ 64 * r = u1.toNat * k + u0.toNat * (2 ^ 64 - d.toNat) + q0 * d.toNat - 2 ^ 64 * d.toNat :=
    scaled_candidateRemainder hrecip
  have hq0 : 0 ≤ q0 ∧ q0 < 2 ^ 64 := by omega
  have hdlt := d.isLt
  have hu0 := u0.isLt
  clear_value r q0
  have hu1k : (u1.toNat * k : Int) ≤ (d.toNat - 1) * d.toNat :=
    mul_le_mul (by omega) (by omega) (by omega) (by omega)
  have hu1k0 : (0 : Int) ≤ u1.toNat * k := by positivity
  have hu0d : u0.toNat * (2 ^ 64 - d.toNat : Int) ≤ (2 ^ 64 - 1) * (2 ^ 64 - d.toNat) :=
    mul_le_mul_of_nonneg_right (by omega) (by omega)
  have hu0d0 : 0 ≤ u0.toNat * (2 ^ 64 - d.toNat : Int) := mul_nonneg (by omega) (by omega)
  have hq0d : 0 ≤ q0 * d.toNat := mul_nonneg hq0.1 (by omega)
  refine ⟨by omega, ?_, ?_⟩
  · have hprod : 0 < (2 ^ 64 - q0) * (2 ^ 64 - d.toNat) := mul_pos (by omega) (by omega)
    linarith
  · by_contra! h
    obtain ⟨hbd, hq⟩ := h
    have hbd' : (2 ^ 64 - d.toNat : Int) * (2 ^ 64 - d.toNat) ≤ (2 ^ 64 - d.toNat) * r :=
      mul_le_mul_of_nonneg_left hbd (by omega)
    have hq' : d.toNat * q0 ≤ d.toNat * r := mul_le_mul_of_nonneg_left hq (by omega)
    linarith

/-- A quotient that fits a limb and its remainder are the exact ones. -/
theorem div_mod_of_mul_add {num d quot : Nat} {q r : Word} (hfit : num < 2 ^ 64 * d) (hr : r.toNat < d)
    (hnum : num = d * quot + r.toNat) (hq : q = BitVec.ofNat 64 quot) :
    q.toNat = num / d ∧ r.toNat = num % d := by
  have hsum : r.toNat + d * quot = num := by rw [hnum, Nat.add_comm]
  obtain ⟨hdiv, hmod⟩ := (Nat.div_mod_unique (by omega)).2 ⟨hsum, hr⟩
  have hlt : num / d < 2 ^ 64 := (Nat.div_lt_iff_lt_mul (by omega)).2 hfit
  rw [hdiv] at hlt
  exact ⟨by rw [hq, BitVec.toNat_ofNat, Nat.mod_eq_of_lt hlt, hdiv], hmod.symm⟩

/-- R224: after the first correction the quotient and the remainder make up the dividend. The remainder may still
exceed the divisor. -/
theorem firstCorrection_spec {u1 d : Word} (u0 : Word) (hd : 2 ^ 63 ≤ d.toNat) (hu1 : u1.toNat < d.toNat) :
    let q := BitVec.ofNat 64 (recipEstimate u1 u0 d / 2 ^ 64) + 1
    let r := u0 - q * d
    let q0 := recipEstimate u1 u0 d % 2 ^ 64
    ∃ quot, (if q0 < r.toNat then q - 1 else q) = BitVec.ofNat 64 quot ∧
      u1.toNat * 2 ^ 64 + u0.toNat = d.toNat * quot + (if q0 < r.toNat then r + d else r).toNat := by
  intro q r q0
  have hdlt := d.isLt
  obtain ⟨hneg, hlow, hhigh⟩ := candidateRemainder_bounds u0 hd hu1
  obtain ⟨q1, hq1⟩ : ∃ q1, q1 = recipEstimate u1 u0 d / 2 ^ 64 := ⟨_, rfl⟩
  rw [← hq1] at hneg hlow hhigh
  have hq : q = BitVec.ofNat 64 q1 + 1 := by rw [hq1]
  have hr : (r.toNat : Int) = candidateRemainder u1 u0 d q1 % 2 ^ 64 := by
    rw [← sub_mul_toNat_eq_candidateRemainder, ← hq]
  have hdef : candidateRemainder u1 u0 d q1 = u1.toNat * 2 ^ 64 + u0.toNat - ((d.toNat * q1 : Nat) + d.toNat) := by
    rw [candidateRemainder]
    push_cast
    ring
  split
  · refine ⟨q1, by simp [hq], ?_⟩
    rw [BitVec.toNat_add]
    omega
  · refine ⟨q1 + 1, by simp [hq, BitVec.ofNat_add], ?_⟩
    rw [Nat.mul_succ]
    omega

/-- R224: the second correction makes the remainder smaller than a normalised divisor. -/
theorem secondCorrection_spec {num quot : Nat} {d q r : Word} (hd : 2 ^ 63 ≤ d.toNat) (hfit : num < 2 ^ 64 * d.toNat)
    (hq : q = BitVec.ofNat 64 quot) (hnum : num = d.toNat * quot + r.toNat) :
    let p := if d.toNat ≤ r.toNat then (q + 1, r - d) else (q, r)
    p.1.toNat = num / d.toNat ∧ p.2.toNat = num % d.toNat := by
  intro p
  by_cases h : d.toNat ≤ r.toNat
  · have hr := r.isLt
    have hsub : (r - d).toNat = r.toNat - d.toNat := BitVec.toNat_sub_of_le h
    simp only [p, if_pos h]
    refine div_mod_of_mul_add (quot := quot + 1) hfit (by omega) ?_ (by rw [hq, BitVec.ofNat_add]; rfl)
    rw [Nat.mul_succ]
    omega
  · simp only [p, if_neg h]
    exact div_mod_of_mul_add hfit (by omega) hnum hq

/-- Settles O49: the candidate quotient is at most one off either way, and each correction mends one direction. -/
theorem reciprocalDivisionIsExact : Obligations.ReciprocalDivisionIsExact := by
  intro u1 u0 d hd hu1
  have hu0 := u0.isLt
  obtain ⟨quot, hq, hnum⟩ := firstCorrection_spec u0 hd hu1
  exact secondCorrection_spec hd (by omega) hq hnum

/-! ## Windows of a limb list -/

theorem two_pow_limb_succ (k : Nat) : 2 ^ (64 * (k + 1)) = 2 ^ 64 * 2 ^ (64 * k) := by
  rw [Nat.mul_succ, Nat.pow_add, Nat.mul_comm]

theorem limbsValue_drop (xs : List Word) (k : Nat) : limbsValue (xs.drop k) = limbsValue xs / 2 ^ (64 * k) := by
  induction xs generalizing k with
  | nil => simp [limbsValue]
  | cons x xs ih =>
    cases k with
    | zero => simp
    | succ k =>
      have hx := x.isLt
      rw [List.drop_succ_cons, ih, limbsValue, two_pow_limb_succ, ← Nat.div_div_eq_div_mul]
      congr 1
      omega

theorem limbsValue_take (xs : List Word) (k : Nat) : limbsValue (xs.take k) = limbsValue xs % 2 ^ (64 * k) := by
  induction xs generalizing k with
  | nil => simp [limbsValue]
  | cons x xs ih =>
    cases k with
    | zero => simp [limbsValue, Nat.mod_one]
    | succ k =>
      have hx := x.isLt
      have hmod : (x.toNat + 2 ^ 64 * limbsValue xs) % 2 ^ 64 = x.toNat := by omega
      have hdiv : (x.toNat + 2 ^ 64 * limbsValue xs) / 2 ^ 64 = limbsValue xs := by omega
      rw [List.take_succ_cons, limbsValue, limbsValue, ih, two_pow_limb_succ, Nat.mod_mul, hmod, hdiv]

/-- One limb of a limb list; beyond the list it is 0. -/
theorem getD_toNat (xs : List Word) (k : Nat) :
    (xs.getD k 0).toNat = limbsValue xs / 2 ^ (64 * k) % 2 ^ 64 := by
  rw [← limbsValue_drop, List.getD_eq_getElem?_getD, ← List.head?_drop]
  cases xs.drop k with
  | nil => rfl
  | cons x xs =>
    have hx := x.isLt
    simp only [List.head?_cons, Option.getD_some, limbsValue]
    omega

@[simp] theorem toLimbs_length (len v : Nat) : (toLimbs len v).length = len := by
  induction len generalizing v with
  | zero => rfl
  | succ len ih => rw [toLimbs, List.length_cons, ih]

theorem limbsValue_toLimbs {len v : Nat} (h : v < 2 ^ (64 * len)) : limbsValue (toLimbs len v) = v := by
  induction len generalizing v with
  | zero => simpa [toLimbs, limbsValue, eq_comm] using h
  | succ len ih =>
    rw [two_pow_limb_succ] at h
    rw [toLimbs, limbsValue, ih (Nat.div_lt_of_lt_mul h), toNat_ofNat_add_carry]

/-- The limbs from `k` up, as the limb at `k` and the limbs above it. -/
theorem limbsValue_div_eq_add_getD (xs : List Word) (k : Nat) :
    limbsValue xs / 2 ^ (64 * k) = limbsValue xs / 2 ^ (64 * (k + 1)) * 2 ^ 64 + (xs.getD k 0).toNat := by
  rw [getD_toNat, two_pow_limb_succ, Nat.mul_comm (2 ^ 64), ← Nat.div_div_eq_div_mul, Nat.div_add_mod']

/-! ## The trial quotient -/

/-- Dropping low limbs of both operands does not make the quotient smaller. -/
theorem div_le_div_of_truncated {num den p : Nat} (hp : 0 < p) (hden : 0 < den / p) :
    num / den ≤ num / p / (den / p) := by
  rw [Nat.le_div_iff_mul_le hden, Nat.le_div_iff_mul_le hp]
  calc num / den * (den / p) * p = num / den * (den / p * p) := Nat.mul_assoc ..
    _ ≤ num / den * den := Nat.mul_le_mul_left _ (Nat.div_mul_le_self ..)
    _ ≤ num := Nat.div_mul_le_self ..

/-- Dropping low limbs of both operands makes the quotient at most one too large, as long as it is at most one more than
what is left of the divisor. -/
theorem truncated_div_le {num den p : Nat} (hp : 0 < p) (hden : 0 < den) (hq : num / p / (den / p) ≤ den / p + 1) :
    num / p / (den / p) ≤ num / den + 1 := by
  have htrunc : num / p / (den / p) * (den / p) ≤ num / p := Nat.div_mul_le_self ..
  generalize num / p / (den / p) = q at hq htrunc ⊢
  cases q with
  | zero => exact Nat.zero_le _
  | succ k =>
    refine Nat.succ_le_succ ((Nat.le_div_iff_mul_le hden).2 ?_)
    calc k * den ≤ k * ((den / p + 1) * p) := Nat.mul_le_mul_left _ (Nat.lt_mul_of_div_lt (Nat.lt_succ_self _) hp).le
      _ = (k * (den / p) + k) * p := by ring
      _ ≤ (k * (den / p) + den / p) * p := Nat.mul_le_mul_right _ (by omega)
      _ = (k + 1) * (den / p) * p := by ring
      _ ≤ num / p * p := Nat.mul_le_mul_right _ htrunc
      _ ≤ num := Nat.div_mul_le_self ..

/-- R223: the quotient of the three top limbs of the window, `num` and `x2`, by the two top limbs of the divisor. -/
def threeByTwo (d y2 num x2 : Nat) : Nat := (num * 2 ^ 64 + x2) / (d * 2 ^ 64 + y2)

/-- R223: a one-limb estimate by a normalised limb is at most two too large. -/
theorem div_le_threeByTwo_add_two {d y2 num : Nat} (x2 : Nat) (hd : 2 ^ 63 ≤ d) (hy2 : y2 < 2 ^ 64)
    (hq : num / d < 2 ^ 64) : num / d ≤ threeByTwo d y2 num x2 + 2 := by
  have hmul : num / d * d ≤ num := Nat.div_mul_le_self ..
  generalize num / d = q at hq hmul ⊢
  by_cases hsmall : q ≤ 2
  · omega
  · obtain ⟨k, rfl⟩ : ∃ k, q = k + 2 := ⟨q - 2, by omega⟩
    refine Nat.add_le_add_right ((Nat.le_div_iff_mul_le (by omega)).2 ?_) 2
    have hky2 : k * y2 ≤ 2 ^ 64 * y2 := Nat.mul_le_mul_right _ (by omega)
    have hlow : k * y2 ≤ 2 * d * 2 ^ 64 := by omega
    calc k * (d * 2 ^ 64 + y2) = k * d * 2 ^ 64 + k * y2 := by ring
      _ ≤ k * d * 2 ^ 64 + 2 * d * 2 ^ 64 := Nat.add_le_add_left hlow _
      _ = (k + 2) * d * 2 ^ 64 := by ring
      _ ≤ num * 2 ^ 64 := Nat.mul_le_mul_right _ hmul
      _ ≤ num * 2 ^ 64 + x2 := Nat.le_add_right ..

/-- R223: a one-limb estimate is not too small. -/
theorem threeByTwo_le_div {d y2 num x2 : Nat} (hd : 0 < d) (hx2 : x2 < 2 ^ 64) :
    threeByTwo d y2 num x2 ≤ num / d := by
  have hmul : threeByTwo d y2 num x2 * (d * 2 ^ 64 + y2) ≤ num * 2 ^ 64 + x2 := Nat.div_mul_le_self ..
  refine (Nat.le_div_iff_mul_le hd).2 ?_
  rw [Nat.mul_add, ← Nat.mul_assoc] at hmul
  omega

/-- R223: the corrections stop at the quotient of three limbs by two. -/
theorem correctTrial_eq {d y2 x2 num fuel qhat rhat : Nat} (hd : 0 < d) (hy2 : y2 < 2 ^ 64)
    (hnum : num = qhat * d + rhat) (hq : qhat < 2 ^ 64) (hlo : threeByTwo d y2 num x2 ≤ qhat)
    (hhi : qhat ≤ threeByTwo d y2 num x2 + fuel) :
    correctTrial d y2 x2 fuel qhat rhat = threeByTwo d y2 num x2 := by
  induction fuel generalizing qhat rhat with
  | zero =>
    rw [correctTrial]
    omega
  | succ fuel ih =>
    have hexceeds : threeByTwo d y2 num x2 < qhat ↔ rhat * 2 ^ 64 + x2 < qhat * y2 := by
      rw [threeByTwo, Nat.div_lt_iff_lt_mul (by omega), hnum, Nat.mul_add, Nat.add_mul, ← Nat.mul_assoc]
      omega
    have hguard : rhat * 2 ^ 64 + x2 < qhat * y2 → rhat < 2 ^ 64 := by
      have hmul : qhat * y2 ≤ 2 ^ 64 * y2 := Nat.mul_le_mul_right _ hq.le
      omega
    rw [correctTrial]
    by_cases h : threeByTwo d y2 num x2 < qhat
    · rw [if_pos ⟨hguard (hexceeds.1 h), hexceeds.1 h⟩]
      obtain ⟨q, rfl⟩ : ∃ q, qhat = q + 1 := ⟨qhat - 1, by omega⟩
      exact ih (by rw [hnum, Nat.add_sub_cancel]; ring) (by omega) (by omega) (by omega)
    · rw [if_neg fun hc => h (hexceeds.2 hc.2)]
      omega

/-- R223: a divisor of `n` limbs whose top limb has its high bit set. -/
structure Normalised (yn : List Word) (n : Nat) : Prop where
  /-- The number of limbs. -/
  length : yn.length = n
  /-- There is a top limb. -/
  pos : 0 < n
  /-- Bit 63 of the top limb is set. -/
  high : 2 ^ 63 ≤ (yn.getD (n - 1) 0).toNat

theorem Normalised.lt {yn : List Word} {n : Nat} (h : Normalised yn n) : limbsValue yn < 2 ^ (64 * n) :=
  h.length ▸ limbsValue_lt yn

theorem Normalised.div_eq_top {yn : List Word} {k : Nat} (h : Normalised yn (k + 1)) :
    limbsValue yn / 2 ^ (64 * k) = (yn.getD k 0).toNat := by
  rw [limbsValue_div_eq_add_getD, Nat.div_eq_of_lt h.lt, Nat.zero_mul, Nat.zero_add]

theorem Normalised.lt_succ_top_mul {yn : List Word} {k : Nat} (h : Normalised yn (k + 1)) :
    limbsValue yn < ((yn.getD k 0).toNat + 1) * 2 ^ (64 * k) := by
  rw [← h.div_eq_top]
  exact Nat.lt_mul_of_div_lt (Nat.lt_succ_self _) (Nat.two_pow_pos _)

theorem Normalised.limbsValue_pos {yn : List Word} {n : Nat} (h : Normalised yn n) : 0 < limbsValue yn := by
  have hhigh := h.high
  rw [getD_toNat] at hhigh
  rcases Nat.eq_zero_or_pos (limbsValue yn) with h0 | hpos
  · simp [h0] at hhigh
  · exact hpos

section Window

variable {yn w : List Word} {k : Nat}

/-- The two top limbs of a window of `k + 2` limbs. -/
theorem window_div_eq (hY : Normalised yn (k + 1)) (hw : limbsValue w < 2 ^ 64 * limbsValue yn) :
    limbsValue w / 2 ^ (64 * k) = (w.getD (k + 1) 0).toNat * 2 ^ 64 + (w.getD k 0).toNat := by
  have hlt : limbsValue w < 2 ^ (64 * (k + 2)) := by
    have hy := hY.lt
    rw [two_pow_limb_succ]
    omega
  rw [limbsValue_div_eq_add_getD, limbsValue_div_eq_add_getD w (k + 1), Nat.div_eq_of_lt hlt, Nat.zero_mul,
    Nat.zero_add]

/-- The top limb of the window is at most the top limb of the divisor. -/
theorem window_top_le (hY : Normalised yn (k + 1)) (hw : limbsValue w < 2 ^ 64 * limbsValue yn) :
    (w.getD (k + 1) 0).toNat ≤ (yn.getD k 0).toNat := by
  have hyn := hY.lt_succ_top_mul
  have hlt : limbsValue w / 2 ^ (64 * k) < 2 ^ 64 * ((yn.getD k 0).toNat + 1) := by
    rw [Nat.div_lt_iff_lt_mul (Nat.two_pow_pos _), Nat.mul_assoc]
    omega
  rw [window_div_eq hY hw] at hlt
  omega

/-- R223: where the top limbs are equal, the saturated estimate is at most one too large. -/
theorem saturated_le (hY : Normalised yn (k + 1)) (hw : limbsValue w < 2 ^ 64 * limbsValue yn)
    (htop : w.getD (k + 1) 0 = yn.getD k 0) : 2 ^ 64 - 1 ≤ limbsValue w / limbsValue yn + 1 := by
  have hd : 2 ^ 63 ≤ (yn.getD k 0).toNat := hY.high
  have hwin := window_div_eq hY hw
  rw [htop] at hwin
  have htops : (2 ^ 64 - 2) * ((yn.getD k 0).toNat + 1) ≤ limbsValue w / 2 ^ (64 * k) := by omega
  have hle : (2 ^ 64 - 2) * limbsValue yn ≤ limbsValue w := by
    calc (2 ^ 64 - 2) * limbsValue yn
        ≤ (2 ^ 64 - 2) * (((yn.getD k 0).toNat + 1) * 2 ^ (64 * k)) := Nat.mul_le_mul_left _ hY.lt_succ_top_mul.le
      _ = (2 ^ 64 - 2) * ((yn.getD k 0).toNat + 1) * 2 ^ (64 * k) := (Nat.mul_assoc ..).symm
      _ ≤ limbsValue w / 2 ^ (64 * k) * 2 ^ (64 * k) := Nat.mul_le_mul_right _ htops
      _ ≤ limbsValue w := Nat.div_mul_le_self ..
  have hq := (Nat.le_div_iff_mul_le hY.limbsValue_pos).2 hle
  omega

/-- R223: below the divisor's top limb, the estimate is the exact quotient of the two top limbs of the window. -/
theorem estimate_spec (hY : Normalised yn (k + 1)) (hw : limbsValue w < 2 ^ 64 * limbsValue yn)
    (htop : w.getD (k + 1) 0 ≠ yn.getD k 0) :
    let d := yn.getD k 0
    let qr := div2by1 (w.getD (k + 1) 0) (w.getD k 0) d (recip d)
    qr.1.toNat = limbsValue w / 2 ^ (64 * k) / d.toNat ∧ qr.2.toNat = limbsValue w / 2 ^ (64 * k) % d.toNat := by
  have hle := window_top_le hY hw
  have hne : (w.getD (k + 1) 0).toNat ≠ (yn.getD k 0).toNat := fun h => htop (BitVec.eq_of_toNat_eq h)
  rw [window_div_eq hY hw]
  exact reciprocalDivisionIsExact _ _ _ hY.high (by omega)

end Window

theorem trialQuotient_of_top_eq {yn w : List Word} {n : Nat} (h : w.getD n 0 = yn.getD (n - 1) 0) :
    trialQuotient yn w n = 2 ^ 64 - 1 := by
  simp only [trialQuotient, if_pos h]

/-- R223: for a divisor of one limb the estimate is the quotient. -/
theorem trialQuotient_one {yn w : List Word} (hY : Normalised yn 1) (hw : limbsValue w < 2 ^ 64 * limbsValue yn)
    (htop : w.getD 1 0 ≠ yn.getD 0 0) : trialQuotient yn w 1 = limbsValue w / limbsValue yn := by
  have hest := (estimate_spec (k := 0) hY hw htop).1
  rw [← Normalised.div_eq_top (k := 0) hY, Nat.mul_zero, Nat.pow_zero, Nat.div_one, Nat.div_one] at hest
  simpa only [trialQuotient, Nat.sub_self, if_neg htop, if_neg (show ¬2 ≤ 1 by decide)] using hest

/-- R223: for a longer divisor the corrected estimate is the quotient of the three top limbs by two, which fits a
limb. -/
theorem trialQuotient_succ_succ {yn w : List Word} {k : Nat} (hY : Normalised yn (k + 2))
    (hw : limbsValue w < 2 ^ 64 * limbsValue yn) (htop : w.getD (k + 2) 0 ≠ yn.getD (k + 1) 0) :
    trialQuotient yn w (k + 2) = limbsValue w / 2 ^ (64 * k) / (limbsValue yn / 2 ^ (64 * k)) ∧
      trialQuotient yn w (k + 2) < 2 ^ 64 := by
  have hd := hY.high
  have hwin := limbsValue_div_eq_add_getD w k
  have hyn := limbsValue_div_eq_add_getD yn k
  rw [hY.div_eq_top] at hyn
  obtain ⟨hq, hr⟩ := estimate_spec hY hw htop
  have htrial : trialQuotient yn w (k + 2) = correctTrial (yn.getD (k + 1) 0).toNat (yn.getD k 0).toNat
      (w.getD k 0).toNat 2 (limbsValue w / 2 ^ (64 * (k + 1)) / (yn.getD (k + 1) 0).toNat)
      (limbsValue w / 2 ^ (64 * (k + 1)) % (yn.getD (k + 1) 0).toNat) := by
    rw [← hq, ← hr]
    simp only [trialQuotient, Nat.add_sub_cancel, Nat.add_succ_sub_one, if_neg htop, if_pos (Nat.le_add_left 2 k)]
  have hfit : limbsValue w / 2 ^ (64 * (k + 1)) / (yn.getD (k + 1) 0).toNat < 2 ^ 64 := by
    rw [← hq]
    exact BitVec.isLt _
  have hdpos : 0 < (yn.getD (k + 1) 0).toNat := lt_of_lt_of_le (by decide) hd
  have hle := threeByTwo_le_div (y2 := (yn.getD k 0).toNat) (num := limbsValue w / 2 ^ (64 * (k + 1))) hdpos
    (w.getD k 0).isLt
  rw [htrial, hwin, hyn, correctTrial_eq hdpos (BitVec.isLt _) (Nat.div_add_mod' _ _).symm hfit hle
    (div_le_threeByTwo_add_two _ hd (BitVec.isLt _) hfit)]
  exact ⟨rfl, hle.trans_lt hfit⟩

/-- R223: the trial quotient is the quotient of the window or one more. -/
theorem trialQuotient_bounds {yn w : List Word} {n : Nat} (hY : Normalised yn n)
    (hw : limbsValue w < 2 ^ 64 * limbsValue yn) :
    limbsValue w / limbsValue yn ≤ trialQuotient yn w n ∧
      trialQuotient yn w n ≤ limbsValue w / limbsValue yn + 1 := by
  have hpos := hY.limbsValue_pos
  have hfit : limbsValue w / limbsValue yn < 2 ^ 64 := (Nat.div_lt_iff_lt_mul hpos).2 hw
  obtain ⟨k, rfl⟩ := Nat.exists_eq_add_one_of_ne_zero hY.pos.ne'
  by_cases htop : w.getD (k + 1) 0 = yn.getD k 0
  · rw [trialQuotient_of_top_eq htop]
    exact ⟨by omega, saturated_le hY hw htop⟩
  · cases k with
    | zero =>
      rw [trialQuotient_one hY hw htop]
      exact ⟨le_rfl, Nat.le_succ _⟩
    | succ k =>
      obtain ⟨heq, hlt⟩ := trialQuotient_succ_succ hY hw htop
      have hd : 2 ^ 63 ≤ (yn.getD (k + 1) 0).toNat := hY.high
      have hden := limbsValue_div_eq_add_getD yn k
      rw [hY.div_eq_top] at hden
      rw [heq] at hlt ⊢
      have hp : 0 < 2 ^ (64 * k) := Nat.two_pow_pos _
      exact ⟨div_le_div_of_truncated hp (by omega), truncated_div_le hp hpos (by omega)⟩

/-! ## One position -/

/-- Subtracting a number that is not larger, modulo `m`. -/
theorem add_sub_mod_of_le {a b m : Nat} (hba : b ≤ a) (ham : a < m) : (a + m - b) % m = a - b := by
  rw [Nat.sub_add_comm hba, Nat.add_mod_right, Nat.mod_eq_of_lt (by omega)]

/-- R223: subtracting `b` modulo `m` and adding back `c`, where the whole does not go below zero. -/
theorem add_sub_mod_add_mod {a b c m : Nat} (hb : b ≤ a + c) (hab : a < b) (hbm : b ≤ a + m) (hm : a + c - b < m) :
    ((a + m - b) % m + c) % m = a + c - b := by
  have hsum : a + m - b + c = a + c - b + m := by omega
  rw [Nat.mod_eq_of_lt (show a + m - b < m by omega), hsum, Nat.add_mod_right, Nat.mod_eq_of_lt hm]

/-- R223: the multiply-and-subtract with its add-back gives the exact quotient limb and remainder. -/
theorem knuthStep_eq {yn w : List Word} {n : Nat} (hY : Normalised yn n)
    (hw : limbsValue w < 2 ^ 64 * limbsValue yn) :
    knuthStep yn w n = (BitVec.ofNat 64 (limbsValue w / limbsValue yn),
      toLimbs (n + 1) (limbsValue w % limbsValue yn)) := by
  obtain ⟨hlo, hhi⟩ := trialQuotient_bounds hY hw
  have hy := hY.lt
  have hnum : limbsValue w < 2 ^ (64 * (n + 1)) := by
    rw [two_pow_limb_succ]
    omega
  have hden : limbsValue yn < 2 ^ (64 * (n + 1)) := hy.trans (Nat.pow_lt_pow_right (by decide) (by omega))
  have hrem := Nat.mod_lt (limbsValue w) hY.limbsValue_pos
  have hdiv := Nat.div_add_mod' (limbsValue w) (limbsValue yn)
  have hsucc := Nat.succ_mul (limbsValue w / limbsValue yn) (limbsValue yn)
  rcases Nat.le_or_eq_of_le_succ hhi with hle | heq
  · have hq := le_antisymm hle hlo
    simp only [knuthStep, hq]
    rw [if_neg (by omega), add_sub_mod_of_le (by omega) hnum]
    congr 2
    omega
  · simp only [knuthStep, heq]
    rw [if_pos (by omega), add_sub_mod_add_mod (by omega) (by omega) (by omega) (by omega)]
    congr 2
    omega

/-! ## The positions -/

/-- R223: the window at position `j` holds the limbs from `j` up. -/
theorem limbsValue_window {xn : List Word} {den j n : Nat} (hden : den ≤ 2 ^ (64 * n))
    (hxn : limbsValue xn < den * 2 ^ (64 * (j + 1))) :
    limbsValue ((xn.drop j).take (n + 1)) = limbsValue xn / 2 ^ (64 * j) ∧
      limbsValue xn / 2 ^ (64 * j) < 2 ^ 64 * den := by
  have hlt : limbsValue xn / 2 ^ (64 * j) < 2 ^ 64 * den := by
    rw [two_pow_limb_succ, ← Nat.mul_assoc, Nat.mul_comm den] at hxn
    exact (Nat.div_lt_iff_lt_mul (Nat.two_pow_pos _)).2 hxn
  refine ⟨?_, hlt⟩
  rw [limbsValue_take, limbsValue_drop, Nat.mod_eq_of_lt]
  rw [two_pow_limb_succ]
  exact hlt.trans_le (Nat.mul_le_mul_left _ hden)

/-- R223: putting the remainder of the window in its place leaves the remainder by the divisor at position `j`. -/
theorem limbsValue_replaceWindow {xn : List Word} {den j n : Nat} (hlen : n + (j + 1) ≤ xn.length)
    (hpos : 0 < den) (hden : den ≤ 2 ^ (64 * n)) (hxn : limbsValue xn < den * 2 ^ (64 * (j + 1))) :
    limbsValue (xn.take j ++ toLimbs (n + 1) (limbsValue xn / 2 ^ (64 * j) % den) ++ xn.drop (j + n + 1)) =
      limbsValue xn % (2 ^ (64 * j) * den) := by
  have hrem : limbsValue xn / 2 ^ (64 * j) % den < 2 ^ (64 * (n + 1)) :=
    (Nat.mod_lt _ hpos).trans_le (hden.trans (Nat.pow_le_pow_right (by decide) (by omega)))
  have habove : limbsValue xn < 2 ^ (64 * (j + n + 1)) := by
    calc limbsValue xn < den * 2 ^ (64 * (j + 1)) := hxn
      _ ≤ 2 ^ (64 * n) * 2 ^ (64 * (j + 1)) := Nat.mul_le_mul_right _ hden
      _ = 2 ^ (64 * (j + n + 1)) := by rw [← Nat.pow_add]; congr 1; omega
  rw [limbsValue_append, limbsValue_append, limbsValue_drop, Nat.div_eq_of_lt habove, Nat.mul_zero, Nat.add_zero,
    limbsValue_take, limbsValue_toLimbs hrem, List.length_take_of_le (by omega), Nat.mod_mul]

/-- R223: from position `j` down, the loop divides what the earlier positions have left. -/
theorem knuthLoop_spec {yn : List Word} {n : Nat} (hY : Normalised yn n) {j : Nat} {xn q : List Word}
    (hlen : n + j ≤ xn.length) (hxn : limbsValue xn < limbsValue yn * 2 ^ (64 * j)) :
    limbsValue (knuthLoop yn n j xn q).1 = limbsValue xn / limbsValue yn + 2 ^ (64 * j) * limbsValue q ∧
      limbsValue (knuthLoop yn n j xn q).2 = limbsValue xn % limbsValue yn := by
  have hpos := hY.limbsValue_pos
  induction j generalizing xn q with
  | zero =>
    rw [Nat.mul_zero, Nat.pow_zero, Nat.mul_one] at hxn
    simp [knuthLoop, Nat.div_eq_of_lt hxn, Nat.mod_eq_of_lt hxn]
  | succ j ih =>
    obtain ⟨hwin, hlt⟩ := limbsValue_window hY.lt.le hxn
    have hnext := limbsValue_replaceWindow hlen hpos hY.lt.le hxn
    have hvalue := Nat.mod_add_div (limbsValue xn) (2 ^ (64 * j) * limbsValue yn)
    rw [← hnext, ← Nat.div_div_eq_div_mul, Nat.mul_comm (2 ^ (64 * j)), Nat.mul_assoc] at hvalue
    have hbelow := Nat.mod_lt (limbsValue xn) (Nat.mul_pos (Nat.two_pow_pos (64 * j)) hpos)
    rw [← hnext, Nat.mul_comm (2 ^ (64 * j))] at hbelow
    have hdigit : limbsValue xn / 2 ^ (64 * j) / limbsValue yn < 2 ^ 64 := (Nat.div_lt_iff_lt_mul hpos).2 hlt
    rw [knuthLoop, knuthStep_eq hY (by rwa [hwin]), hwin]
    obtain ⟨hquot, hrem⟩ := ih (q := BitVec.ofNat 64 (limbsValue xn / 2 ^ (64 * j) / limbsValue yn) :: q)
      (by simp only [List.length_append, List.length_take, List.length_drop, toLimbs_length]; omega) hbelow
    refine ⟨hquot.trans ?_, hrem.trans ?_⟩
    · rw [limbsValue, BitVec.toNat_ofNat, Nat.mod_eq_of_lt hdigit, two_pow_limb_succ]
      conv_rhs => rw [← hvalue, Nat.add_mul_div_left _ _ hpos]
      ring
    · conv_rhs => rw [← hvalue, Nat.add_mul_mod_self_left]

/-! ## Normalisation -/

/-- R223: the significant limbs of a nonzero value reach its most significant nonzero limb. -/
theorem significantLimbs_spec {v : U256} (h : v ≠ 0) :
    0 < significantLimbs v ∧ v.toNat < 2 ^ (64 * significantLimbs v) ∧ limb v (significantLimbs v - 1) ≠ 0 := by
  have hvalue := limbsValue_limbs v
  have hlimb (j : Nat) := (limb v j).isLt
  have h0 := hlimb 0
  have h1 := hlimb 1
  have h2 := hlimb 2
  have hne (j : Nat) : limb v j ≠ 0 ↔ (limb v j).toNat ≠ 0 := BitVec.toNat_inj.not.symm
  have hv : v.toNat ≠ 0 := BitVec.toNat_inj.not.2 h
  simp only [limbs, limbsValue] at hvalue
  simp only [significantLimbs, hne]
  split_ifs with hn3 hn2 hn1 hn0
  · exact ⟨by decide, v.isLt, hn3⟩
  · exact ⟨by decide, by omega, hn2⟩
  · exact ⟨by decide, by omega, hn1⟩
  · exact ⟨by decide, by omega, hn0⟩
  · omega

/-- R223: the shift moves the highest set bit of a nonzero limb to bit 63. -/
theorem clz64_spec {d : Word} (h : d ≠ 0) :
    2 ^ 63 ≤ d.toNat * 2 ^ clz64 d ∧ (d.toNat + 1) * 2 ^ clz64 d ≤ 2 ^ 64 := by
  have hpos : d.toNat ≠ 0 := fun h0 => h (BitVec.eq_of_toNat_eq h0)
  have hlog : Nat.log2 d.toNat < 64 := (Nat.log2_lt hpos).2 d.isLt
  have hlow := Nat.log2_self_le hpos
  have hhigh : d.toNat + 1 ≤ 2 ^ (Nat.log2 d.toNat + 1) := Nat.lt_log2_self
  constructor
  · calc 2 ^ 63 = 2 ^ Nat.log2 d.toNat * 2 ^ clz64 d := by rw [← Nat.pow_add, clz64]; congr 1; omega
      _ ≤ d.toNat * 2 ^ clz64 d := Nat.mul_le_mul_right _ hlow
  · calc (d.toNat + 1) * 2 ^ clz64 d ≤ 2 ^ (Nat.log2 d.toNat + 1) * 2 ^ clz64 d := Nat.mul_le_mul_right _ hhigh
      _ = 2 ^ 64 := by rw [← Nat.pow_add, clz64]; congr 1; omega

/-- The top significant limb, as the limbs from it up. -/
theorem div_eq_topLimb {v : U256} {k : Nat} (h : v.toNat < 2 ^ (64 * (k + 1))) :
    v.toNat / 2 ^ (64 * k) = (limb v k).toNat := by
  rw [two_pow_limb_succ] at h
  rw [limb_toNat, Nat.mod_eq_of_lt ((Nat.div_lt_iff_lt_mul (Nat.two_pow_pos _)).2 h)]

/-- R223: the shifted divisor is normalised. -/
theorem normalised_toLimbs {y : U256} {k : Nat} (hlt : y.toNat < 2 ^ (64 * (k + 1))) (htop : limb y k ≠ 0) :
    limbsValue (toLimbs (k + 1) (y.toNat * 2 ^ clz64 (limb y k))) = y.toNat * 2 ^ clz64 (limb y k) ∧
      Normalised (toLimbs (k + 1) (y.toNat * 2 ^ clz64 (limb y k))) (k + 1) := by
  obtain ⟨hlow, hhigh⟩ := clz64_spec htop
  have htopEq := div_eq_topLimb hlt
  generalize clz64 (limb y k) = sh at *
  have hp : 0 < 2 ^ (64 * k) := Nat.two_pow_pos _
  have hfit : y.toNat * 2 ^ sh < 2 ^ 64 * 2 ^ (64 * k) := by
    calc y.toNat * 2 ^ sh < ((limb y k).toNat + 1) * 2 ^ (64 * k) * 2 ^ sh :=
          Nat.mul_lt_mul_of_pos_right (Nat.lt_mul_of_div_lt (htopEq ▸ Nat.lt_succ_self _) hp) (Nat.two_pow_pos _)
      _ = ((limb y k).toNat + 1) * 2 ^ sh * 2 ^ (64 * k) := by ring
      _ ≤ 2 ^ 64 * 2 ^ (64 * k) := Nat.mul_le_mul_right _ hhigh
  have hvalue : limbsValue (toLimbs (k + 1) (y.toNat * 2 ^ sh)) = y.toNat * 2 ^ sh :=
    limbsValue_toLimbs (by rwa [two_pow_limb_succ])
  refine ⟨hvalue, toLimbs_length _ _, Nat.succ_pos k, ?_⟩
  rw [Nat.add_sub_cancel, getD_toNat, hvalue, Nat.mod_eq_of_lt ((Nat.div_lt_iff_lt_mul hp).2 hfit),
    Nat.le_div_iff_mul_le hp]
  calc 2 ^ 63 * 2 ^ (64 * k) ≤ (limb y k).toNat * 2 ^ sh * 2 ^ (64 * k) := Nat.mul_le_mul_right _ hlow
    _ = (limb y k).toNat * 2 ^ (64 * k) * 2 ^ sh := by ring
    _ ≤ y.toNat * 2 ^ sh := Nat.mul_le_mul_right _ (htopEq ▸ Nat.div_mul_le_self ..)

/-- R223: a value with its top limb at `k` is at least the weight of that limb. -/
theorem two_pow_le_of_topLimb {v : U256} {k : Nat} (h : limb v k ≠ 0) : 2 ^ (64 * k) ≤ v.toNat := by
  by_contra! hlt
  refine h (BitVec.eq_of_toNat_eq ?_)
  rw [limb_toNat, Nat.div_eq_of_lt hlt]
  rfl

theorem clz64_lt (d : Word) : clz64 d < 64 := by
  rw [clz64]
  omega

/-- R223: the extra top limb holds what the shift moves out of the dividend. -/
theorem limbsValue_toLimbs_shifted {x : U256} {m sh : Nat} (hx : x.toNat < 2 ^ (64 * m)) (hsh : sh < 64) :
    limbsValue (toLimbs (m + 1) (x.toNat * 2 ^ sh)) = x.toNat * 2 ^ sh := by
  refine limbsValue_toLimbs ?_
  rw [two_pow_limb_succ, Nat.mul_comm (2 ^ 64)]
  exact Nat.mul_lt_mul'' hx (Nat.pow_lt_pow_right (by decide) hsh)

/-- R223: a divisor with its top limb at `k` and a dividend of `m` limbs have quotient limbs at `m - k` positions. -/
theorem lt_mul_two_pow_positions {x y : U256} {k m : Nat} (hx : x.toNat < 2 ^ (64 * m)) (hy : 2 ^ (64 * k) ≤ y.toNat)
    (hle : y.toNat ≤ x.toNat) : k < m ∧ x.toNat < y.toNat * 2 ^ (64 * (m - k)) := by
  have hexp : 64 * k < 64 * m := (Nat.pow_lt_pow_iff_right (by decide)).1 ((hy.trans hle).trans_lt hx)
  have hkm : k < m := by omega
  refine ⟨hkm, ?_⟩
  calc x.toNat < 2 ^ (64 * m) := hx
    _ = 2 ^ (64 * k) * 2 ^ (64 * (m - k)) := by rw [← Nat.pow_add, ← Nat.mul_add, Nat.add_sub_cancel' hkm.le]
    _ ≤ y.toNat * 2 ^ (64 * (m - k)) := Nat.mul_le_mul_right _ hy

/-- R223: Algorithm D divides, for a divisor that is not zero and not above the dividend. -/
theorem knuthD_eq {x y : U256} (hy : y ≠ 0) (hle : y.toNat ≤ x.toNat) : knuthD x y = (x / y, x % y) := by
  have hx : x ≠ 0 := by
    rintro rfl
    exact hy (BitVec.eq_of_toNat_eq (Nat.le_zero.1 hle))
  obtain ⟨hn, hylt, hytop⟩ := significantLimbs_spec hy
  obtain ⟨-, hxlt, -⟩ := significantLimbs_spec hx
  obtain ⟨k, hk⟩ := Nat.exists_eq_add_one_of_ne_zero hn.ne'
  rw [hk] at hylt hytop
  obtain ⟨hyn, hY⟩ := normalised_toLimbs hylt hytop
  obtain ⟨hkm, hpositions⟩ := lt_mul_two_pow_positions hxlt (two_pow_le_of_topLimb hytop) hle
  have hxn := limbsValue_toLimbs_shifted hxlt (clz64_lt (limb y k))
  simp only [knuthD, hk, Nat.add_sub_cancel]
  generalize clz64 (limb y k) = sh at *
  generalize significantLimbs x = m at *
  have hj : m - (k + 1) + 1 = m - k := by omega
  have hbound : limbsValue (toLimbs (m + 1) (x.toNat * 2 ^ sh)) <
      limbsValue (toLimbs (k + 1) (y.toNat * 2 ^ sh)) * 2 ^ (64 * (m - k)) := by
    rw [hxn, hyn, Nat.mul_right_comm]
    exact Nat.mul_lt_mul_of_pos_right hpositions (Nat.two_pow_pos _)
  obtain ⟨hquot, hrem⟩ := knuthLoop_spec hY (q := []) (by rw [toLimbs_length]; omega) hbound
  have hremLt := (Nat.mod_lt (x.toNat * 2 ^ sh) hY.limbsValue_pos).trans hY.lt
  rw [hxn, hyn] at hquot hrem
  rw [hyn] at hremLt
  rw [hj, limbsValue_take, hquot, hrem, Nat.mod_eq_of_lt hremLt, limbsValue, Nat.mul_zero, Nat.add_zero,
    Nat.mul_div_mul_right _ _ (Nat.two_pow_pos sh), Nat.mul_mod_mul_right, Nat.mul_div_cancel _ (Nat.two_pow_pos sh),
    BitVec.udiv_def, BitVec.umod_def]

/-- R222: the shortcut for a divisor above the dividend. -/
theorem udiv_umod_of_lt {x y : U256} (h : x.toNat < y.toNat) : (x / y, x % y) = (0, x) :=
  Prod.ext (BitVec.udiv_eq_zero_iff_eq_zero_or_lt.2 (.inr h)) (BitVec.umod_eq_of_lt h)

/-- R222: the shortcut for equal operands. -/
theorem udiv_umod_self {x : U256} (h : x ≠ 0) : (x / x, x % x) = (1, 0) :=
  Prod.ext (BitVec.udiv_self.trans (if_neg (by simpa using h))) BitVec.umod_self

/-- Settles O50: each shortcut is exact, and Algorithm D takes the operands that are left. -/
theorem algorithmDDivides : Obligations.AlgorithmDDivides := by
  intro mode x y
  by_cases hy : y = 0
  · cases mode <;> simp only [udivremDatapath, udivrem, if_pos hy]
  rw [udivrem_of_ne hy]
  simp only [udivremDatapath, if_neg hy]
  by_cases hlt : x.toNat < y.toNat
  · rw [if_pos hlt, udiv_umod_of_lt hlt]
  rw [if_neg hlt]
  split_ifs with hself hsmall
  · rw [← hself, udiv_umod_self hy]
  · rw [BitVec.udiv_def, BitVec.umod_def]
  · exact knuthD_eq hy (Nat.le_of_not_lt hlt)

end Sys2Proof.Machine

/-! # The shift family: the shift results and the shifter datapath -/

namespace Sys2Proof

/-! ## Format DSI -/

/-- The must-be-zero bits of format DSI are zero in a word that packs two registers and an immediate (R122): its low
half is a number below `2 ^ 16`, and the mask has bits 31:16 alone besides the opcode. -/
theorem packWord_mask_DSI (op : Byte) (rd rs1 : Reg) (imm32 : BitVec 32) :
    packWord op rd rs1 0 0 imm32 &&& Format.DSI.mask &&& ~~~(0xFF#64) = 0 := by
  have hlow : (packWord op rd rs1 0 0 imm32 &&& 0xFFFFFFFF#64).toNat < 2 ^ 16 := by
    have := op.isLt
    rw [BitVec.toNat_and, show (0xFFFFFFFF#64).toNat = 2 ^ 32 - 1 from rfl, Nat.and_two_pow_sub_one_eq_mod]
    simp only [packWord_toNat, Fin.coe_ofNat_eq_mod]
    omega
  have hmask : Format.DSI.mask &&& ~~~(0xFF#64) = 0xFFFFFFFF#64 &&& 0xFFFF0000#64 := by decide
  rw [BitVec.and_assoc, hmask, ← BitVec.and_assoc]
  exact and_eq_zero_of_lt hlow (by decide)

/-- R121, R122, R126: the word of a format DSI row decodes to the command of the row. -/
theorem decodesTo_of_rowDSI {op : Byte} {c : Reg → Reg → BitVec 32 → Instr} (hr : rowDSI op c ∈ opcodeTable)
    (rd rs1 : Reg) (imm32 : BitVec 32) :
    Machine.DecodesTo op.toNat rd rs1 0 0 imm32.toNat (c rd rs1 imm32) := by
  have hw : Machine.fieldsWord op.toNat rd rs1 0 0 imm32.toNat = packWord op rd rs1 0 0 imm32 :=
    fieldsWord_eq_packWord op rd rs1 0 0 imm32
  rw [Machine.DecodesTo, hw, decode_of_row hr (by simp [rowDSI]) nofun (packWord_mask_DSI op rd rs1 imm32) nofun nofun]
  simp [rowDSI]

end Sys2Proof

namespace Sys2Proof.Machine

/-! ## The shifts below 256 -/

theorem shiftLeft_of_lt {x : U256} {n : Nat} (hn : n < 256) : shiftLeft x n = x <<< n := if_neg (Nat.not_le.2 hn)

theorem shiftRight_of_lt {x : U256} {n : Nat} (hn : n < 256) : shiftRight x n = x >>> n := if_neg (Nat.not_le.2 hn)

/-- R264: the two cases of the sign are one arithmetic shift. -/
theorem shiftRightSigned_of_lt {x : U256} {n : Nat} (hn : n < 256) :
    shiftRightSigned x n = x.sshiftRight n := by
  rw [shiftRightSigned, if_neg (Nat.not_le.2 hn), shiftRight_of_lt hn, isNeg]
  split
  · rfl
  · next h => exact (BitVec.sshiftRight_eq_of_msb_false (Bool.eq_false_iff.2 h)).symm

/-! ## The results as numbers -/

/-- R262: the left shift as a number. -/
theorem shiftLeft_toNat (x : U256) (n : Nat) :
    (shiftLeft x n).toNat = if 256 ≤ n then 0 else x.toNat * 2 ^ n % 2 ^ 256 := by
  rw [shiftLeft]
  split
  · rfl
  · rw [BitVec.toNat_shiftLeft, Nat.shiftLeft_eq]

/-- R263: the logical right shift as a number. -/
theorem shiftRight_toNat (x : U256) (n : Nat) :
    (shiftRight x n).toNat = if 256 ≤ n then 0 else x.toNat / 2 ^ n := by
  rw [shiftRight]
  split
  · rfl
  · rw [BitVec.toNat_ushiftRight, Nat.shiftRight_eq_div_pow]

theorem isNeg_iff {x : U256} : isNeg x = true ↔ x.toInt < 0 := by
  rw [isNeg, BitVec.msb_eq_toInt, decide_eq_true_iff]

/-- R264: the arithmetic right shift as an integer. -/
theorem shiftRightSigned_toInt (x : U256) (n : Nat) : (shiftRightSigned x n).toInt =
    if 256 ≤ n then (if x.toInt < 0 then -1 else 0) else x.toInt / 2 ^ n := by
  split
  · next hn =>
    simp only [shiftRightSigned, shiftRight, if_pos hn, isNeg_iff]
    split <;> rfl
  · next hn =>
    rw [shiftRightSigned_of_lt (Nat.lt_of_not_le hn), BitVec.toInt_sshiftRight, Int.shiftRight_eq_div_pow]
    norm_cast

/-- Settles O28: each is a row of format DSI that writes one register, and the value is that of the shift. -/
theorem shiftResults : Obligations.ShiftResults := by
  have hlsh : rowDSI 0x28 .lsh ∈ opcodeTable := by simp [opcodeTable, opcodeRowsUnits]
  have hrsh : rowDSI 0x29 .rsh ∈ opcodeTable := by simp [opcodeTable, opcodeRowsUnits]
  have hsrsh : rowDSI 0x2A .srsh ∈ opcodeTable := by simp [opcodeTable, opcodeRowsUnits]
  intro s rd rs1 n
  exact ⟨decodesTo_of_rowDSI hlsh rd rs1 n, decodesTo_of_rowDSI hrsh rd rs1 n, decodesTo_of_rowDSI hsrsh rd rs1 n,
    ⟨_, shiftLeft_toNat _ _, completes_of_setReg rfl⟩,
    ⟨_, shiftRight_toNat _ _, completes_of_setReg rfl⟩,
    _, shiftRightSigned_toInt _ _, completes_of_setReg rfl⟩

/-! ## The shifter, bit by bit -/

/-- Bit `j` of a limb of the whole-limb move of a left shift (R261). -/
theorem getLsbD_leftMove (x : U256) (k i : Nat) {j : Nat} (hj : j < 64) :
    (leftMove x k i).getLsbD j = (!decide (64 * i + j < 64 * k) && x.getLsbD (64 * i + j - 64 * k)) := by
  rw [leftMove]
  split
  · next hk =>
    have hle : ¬64 * i + j < 64 * k := by omega
    rw [getLsbD_limb, decide_eq_true hj, decide_eq_false hle, show 64 * (i - k) + j = 64 * i + j - 64 * k by omega]
    rfl
  · next hk =>
    have hlt : 64 * i + j < 64 * k := by omega
    simp [hlt]

/-- What the limb below shifts out, `c` places down (R261); below limb 0 there is nothing. -/
theorem getLsbD_leftMove_below (x : U256) (k i c : Nat) {j : Nat} (hcj : c + j < 64) :
    BitVec.getLsbD (if 1 ≤ i then leftMove x k (i - 1) >>> c else 0) j =
      (!decide (64 * i + (c + j) < 64 * k + 64) && x.getLsbD (64 * i + (c + j) - (64 * k + 64))) := by
  split
  · next hi =>
    have hlt : 64 * (i - 1) + (c + j) < 64 * k ↔ 64 * i + (c + j) < 64 * k + 64 := by omega
    rw [BitVec.getLsbD_ushiftRight, getLsbD_leftMove x k _ hcj, decide_eq_decide.2 hlt,
      show 64 * (i - 1) + (c + j) - 64 * k = 64 * i + (c + j) - (64 * k + 64) by omega]
  · next hi =>
    have hlt : 64 * i + (c + j) < 64 * k + 64 := by omega
    simp [hlt]

/-- R261: each limb of the residual left shift joins its own bits, moved up, with those the limb below shifts out. -/
theorem getLsbD_leftLimb (x : U256) (n i : Nat) {j : Nat} (hj : j < 64) :
    (leftLimb x n i).getLsbD j = (!decide (64 * i + j < n) && x.getLsbD (64 * i + j - n)) := by
  simp only [leftLimb]
  split
  · next hb => rw [getLsbD_leftMove x _ _ hj, show 64 * (n / 64) = n by omega]
  · next hb =>
    rw [BitVec.getLsbD_or, BitVec.getLsbD_shiftLeft]
    by_cases hown : j < n % 64
    · have hlt : 64 * i + (64 - n % 64 + j) < 64 * (n / 64) + 64 ↔ 64 * i + j < n := by omega
      rw [getLsbD_leftMove_below x _ _ _ (by omega),
        show 64 * i + (64 - n % 64 + j) - (64 * (n / 64) + 64) = 64 * i + j - n by omega]
      simp [hown, hlt]
    · have hlt : 64 * i + (j - n % 64) < 64 * (n / 64) ↔ 64 * i + j < n := by omega
      have hbelow :
          BitVec.getLsbD (if 1 ≤ i then leftMove x (n / 64) (i - 1) >>> (64 - n % 64) else 0) j = false := by
        split
        · exact (BitVec.getLsbD_ushiftRight ..).trans (BitVec.getLsbD_of_ge _ _ (by omega))
        · exact BitVec.getLsbD_zero
      rw [hbelow, getLsbD_leftMove x _ _ (by omega),
        show 64 * i + (j - n % 64) - 64 * (n / 64) = 64 * i + j - n by omega]
      simp [hj, hown, hlt]

/-- Bit `i` of a value with the bit `f` repeated above it: what a right shift reads. -/
def filledBit (x : U256) (f : Bool) (i : Nat) : Bool := if i < 256 then x.getLsbD i else f

/-- Bit `j` of a limb of the whole-limb move of a right shift (R261). -/
theorem getLsbD_rightMove {fill : Word} {f : Bool} (hfill : ∀ j < 64, fill.getLsbD j = f) (x : U256) (k i : Nat)
    {j : Nat} (hj : j < 64) : (rightMove x fill k i).getLsbD j = filledBit x f (64 * (i + k) + j) := by
  rw [rightMove, filledBit]
  split
  · rw [getLsbD_limb, decide_eq_true hj, Bool.true_and, if_pos (by omega)]
  · rw [hfill j hj, if_neg (by omega)]

/-- Above limb 3 the whole-limb move holds fill limbs. -/
theorem rightMove_above (x : U256) (fill : Word) (k i : Nat) :
    (if i < 3 then rightMove x fill k (i + 1) else fill) = rightMove x fill k (i + 1) :=
  ite_eq_left_iff.2 fun hi => (if_neg (by omega)).symm

/-- R261: each limb of the residual right shift joins its own bits, moved down, with those the limb above shifts out. -/
theorem getLsbD_rightLimb {fill : Word} {f : Bool} (hfill : ∀ j < 64, fill.getLsbD j = f) (x : U256) (n i : Nat)
    {j : Nat} (hj : j < 64) : (rightLimb x fill n i).getLsbD j = filledBit x f (n + (64 * i + j)) := by
  simp only [rightLimb, rightMove_above]
  split
  · next hb => rw [getLsbD_rightMove hfill x _ _ hj, show 64 * (i + n / 64) + j = n + (64 * i + j) by omega]
  · next hb =>
    rw [BitVec.getLsbD_or, BitVec.getLsbD_ushiftRight, BitVec.getLsbD_shiftLeft]
    by_cases hown : n % 64 + j < 64
    · rw [getLsbD_rightMove hfill x _ _ hown, show 64 * (i + n / 64) + (n % 64 + j) = n + (64 * i + j) by omega]
      have habove : j < 64 - n % 64 := by omega
      simp [habove]
    · rw [BitVec.getLsbD_of_ge _ _ (Nat.le_of_not_lt hown), getLsbD_rightMove hfill x _ _ (by omega),
        show 64 * (i + 1 + n / 64) + (j - (64 - n % 64)) = n + (64 * i + j) by omega]
      have habove : ¬j < 64 - n % 64 := by omega
      simp [hj, habove]

/-! ## The datapaths -/

/-- R261, R262: the left datapath gives the limbs of the left shift. -/
theorem leftDatapath_eq_limbs (x : U256) {n : Nat} (hn : n < 256) : leftDatapath x n = limbs (shiftLeft x n) := by
  have hlimb (i : Nat) (hi : i < 4) : leftLimb x n i = limb (shiftLeft x n) i := by
    apply BitVec.eq_of_getLsbD_eq
    intro j hj
    have hij : 64 * i + j < 256 := by omega
    rw [getLsbD_leftLimb x n i hj, getLsbD_limb, shiftLeft_of_lt hn, BitVec.getLsbD_shiftLeft]
    simp [hj, hij]
  simp [leftDatapath, limbs, hlimb]

/-- R261: the right datapath gives the limbs of the value whose bits the shift reads. -/
theorem rightDatapath_eq_limbs {x v : U256} {n : Nat} {fill : Word} {f : Bool}
    (hfill : ∀ j < 64, fill.getLsbD j = f) (hv : ∀ i < 256, v.getLsbD i = filledBit x f (n + i)) :
    rightDatapath x fill n = limbs v := by
  have hlimb (i : Nat) (hi : i < 4) : rightLimb x fill n i = limb v i := by
    apply BitVec.eq_of_getLsbD_eq
    intro j hj
    rw [getLsbD_rightLimb hfill x n i hj, getLsbD_limb, hv _ (by omega), decide_eq_true hj, Bool.true_and]
  simp [rightDatapath, limbs, hlimb]

/-- R263: the logical right shift reads 0 above bit 255. -/
theorem getLsbD_shiftRight (x : U256) {n : Nat} (hn : n < 256) (i : Nat) :
    (shiftRight x n).getLsbD i = filledBit x false (n + i) := by
  rw [shiftRight_of_lt hn, BitVec.getLsbD_ushiftRight, filledBit]
  split
  · rfl
  · next h => exact BitVec.getLsbD_of_ge _ _ (Nat.le_of_not_lt h)

/-- R264: the arithmetic right shift reads the sign above bit 255. -/
theorem getLsbD_shiftRightSigned (x : U256) {n i : Nat} (hn : n < 256) (hi : i < 256) :
    (shiftRightSigned x n).getLsbD i = filledBit x (isNeg x) (n + i) := by
  rw [shiftRightSigned_of_lt hn, BitVec.getLsbD_sshiftRight, decide_eq_false (Nat.not_le.2 hi), filledBit, isNeg]
  simp

/-- R261: every bit of the sign fill is the sign. -/
theorem getLsbD_signFill (x : U256) {j : Nat} (hj : j < 64) : (signFill x).getLsbD j = isNeg x := by
  rw [signFill]
  cases isNeg x
  · exact BitVec.getLsbD_zero
  · exact (BitVec.getLsbD_allOnes ..).trans (decide_eq_true hj)

/-- Settles O48: the limb moves and the residual shift read, bit by bit, what the shifts read. -/
theorem shifterDatapathShifts : Obligations.ShifterDatapathShifts := fun x _n hn =>
  ⟨leftDatapath_eq_limbs x hn,
    rightDatapath_eq_limbs (fun _ _ => BitVec.getLsbD_zero) fun i _ => getLsbD_shiftRight x hn i,
    rightDatapath_eq_limbs (fun _ hj => getLsbD_signFill x hj) fun _ hi => getLsbD_shiftRightSigned x hn hi⟩

end Sys2Proof.Machine

/-! # The codec family: PARSED, FMTD and the narrowings -/

namespace Sys2Proof

/-! ## Format DS -/

/-- The must-be-zero bits of format DS are zero in a word that packs two registers (R122). -/
theorem packWord_mask_DS (op : Byte) (rd rs1 : Reg) :
    packWord op rd rs1 0 0 0 &&& Format.DS.mask &&& ~~~(0xFF#64) = 0 := by
  have hlt : (packWord op rd rs1 0 0 0).toNat < 2 ^ 16 := by
    have := op.isLt
    simp only [packWord_toNat, Fin.coe_ofNat_eq_mod, BitVec.ofNat_eq_ofNat, BitVec.toNat_ofNat]
    omega
  rw [BitVec.and_assoc]
  exact and_eq_zero_of_lt hlt (by decide)

/-- R121, R122, R126: in a block with the signed extension the word of a format DS row decodes to the command of the
row. -/
theorem decodesTo_of_rowDS {op : Byte} {signed : Bool} {c : Reg → Reg → Instr}
    (hr : rowDS op signed c ∈ opcodeTable) (rd rs1 : Reg) :
    Machine.DecodesTo op.toNat rd rs1 0 0 0 (c rd rs1) := by
  have hw : Machine.fieldsWord op.toNat rd rs1 0 0 0 = packWord op rd rs1 0 0 0 :=
    fieldsWord_eq_packWord op rd rs1 0 0 0
  rw [Machine.DecodesTo, hw, decode_of_row hr (by simp [rowDS]) (fun _ => rfl) (packWord_mask_DS op rd rs1) nofun nofun]
  simp [rowDS]

end Sys2Proof

namespace Sys2Proof.Machine

/-! ## The narrowings -/

section Narrowing

variable {s : State} {rd rs1 : Reg}

theorem exec_tou64_of_fits (h : (s.getReg rs1).toNat < 2 ^ 64) :
    exec (.tou64 rd rs1) s = complete 1 (s.setReg rd (s.getReg rs1)) :=
  if_neg (Nat.not_le.2 h)

theorem exec_tou64_of_too_large (h : 2 ^ 64 ≤ (s.getReg rs1).toNat) :
    exec (.tou64 rd rs1) s = raise .narrowRange s :=
  if_pos h

theorem exec_toi64_of_fits (hs : s.cfg.hasSigned = true) (hlo : -(2 ^ 63) ≤ (s.getReg rs1).toInt)
    (hhi : (s.getReg rs1).toInt ≤ 2 ^ 63 - 1) :
    exec (.toi64 rd rs1) s = complete 1 (s.setReg rd (s.getReg rs1)) :=
  (signedCommand_of_present hs).trans (if_neg (not_or.2 ⟨Int.not_lt.2 hlo, Int.not_lt.2 hhi⟩))

theorem exec_toi64_of_out_of_range (hs : s.cfg.hasSigned = true)
    (h : (s.getReg rs1).toInt < -(2 ^ 63) ∨ 2 ^ 63 - 1 < (s.getReg rs1).toInt) :
    exec (.toi64 rd rs1) s = raise .narrowRange s :=
  (signedCommand_of_present hs).trans (if_pos h)

end Narrowing

/-- Settles O36: each is a row of format DS, and its range check decides between the copy and the fault. -/
theorem narrowingResults : Obligations.NarrowingResults := by
  have htou64 : rowDS 0x33 false .tou64 ∈ opcodeTable := by simp [opcodeTable, opcodeRowsUnits]
  have htoi64 : rowDS 0x52 true .toi64 ∈ opcodeTable := by simp [opcodeTable, opcodeRowsSigned]
  intro s rd rs1
  exact ⟨decodesTo_of_rowDS htou64 rd rs1, decodesTo_of_rowDS htoi64 rd rs1,
    fun h => completes_of_setReg (exec_tou64_of_fits h), fun h => faultsWith_iff.2 (exec_tou64_of_too_large h),
    fun hs => ⟨fun hlo hhi => completes_of_setReg (exec_toi64_of_fits hs hlo hhi),
      fun h => faultsWith_iff.2 (exec_toi64_of_out_of_range hs h)⟩⟩

/-! ## The order of R285 -/

/-- The range check of R282 on a string stripped of its sign and leading zeros. -/
def exceedsRange (d : List Byte) : Bool := 78 < d.length || (d.length = 78 && lexGreater d maxDec)

theorem stripPlus_ne_nil {str : List Byte} (hne : str ≠ []) (hplus : str ≠ [0x2B]) : stripPlus str ≠ [] := by
  cases str with
  | nil => exact absurd rfl hne
  | cons b bs =>
    rw [stripPlus]
    split
    · next h =>
      rintro rfl
      exact hplus (by rw [h])
    · nofun

theorem parseDec_of_zeros {str : List Byte} (hne : str ≠ []) (hplus : str ≠ [0x2B])
    (hd : stripZeros (stripPlus str) = []) : parseDec str = .ok 0 := by
  rw [parseDec, if_neg hne, if_neg (stripPlus_ne_nil hne hplus)]
  exact if_pos hd

/-- R285: with digits left after stripping, only the range and the digits are checked. -/
theorem parseDec_of_digits {str d : List Byte} (hd : stripZeros (stripPlus str) = d) (hne : d ≠ []) :
    parseDec str =
      if exceedsRange d = true then .error .range
      else if d.all isDigit = true then .ok (BitVec.ofNat 256 (decValue d)) else .error .syntaxError := by
  have hplus : stripPlus str ≠ [] := by
    intro h
    rw [h] at hd
    exact hne hd.symm
  have hstr : str ≠ [] := by
    rintro rfl
    exact hplus rfl
  simp only [parseDec, if_neg hstr, if_neg hplus, hd, if_neg hne, exceedsRange]
  by_cases hlen : 78 < d.length
  · simp [hlen]
  · cases hall : d.all isDigit <;> simp [hlen]

/-! ## Strings of one length, compared (R282) -/

/-- The first byte of a string is the most significant digit of its number. -/
theorem ofDigits_reverse_cons (base : Nat) (f : Byte → Nat) (a : Byte) (as : List Byte) :
    Nat.ofDigits base ((a :: as).reverse.map f) = base ^ as.length * f a + Nat.ofDigits base (as.reverse.map f) := by
  simp [Nat.ofDigits_append, Nat.add_comm]

theorem ofDigits_reverse_lt {base : Nat} {f : Byte → Nat} {as : List Byte} (hb : 1 < base)
    (h : ∀ b ∈ as, f b < base) : Nat.ofDigits base (as.reverse.map f) < base ^ as.length := by
  simpa using Nat.ofDigits_lt_base_pow_length hb (l := as.reverse.map f) (by simpa using h)

/-- Digits below `p` follow the leading ones, so the greater leading digit decides. -/
theorem mul_add_lt_mul_add {p x y u v : Nat} (h : x < y) (hu : u < p) : p * x + u < p * y + v :=
  calc p * x + u < p * (x + 1) := by rw [Nat.mul_succ]; exact Nat.add_lt_add_left hu _
    _ ≤ p * y := Nat.mul_le_mul_left p h
    _ ≤ p * y + v := Nat.le_add_right _ _

/-- The bytes of a string are digits of a positional system whose digit 0 is the byte `low`. -/
def IsDigitString (base low : Nat) (str : List Byte) : Prop := ∀ b ∈ str, low ≤ b.toNat ∧ b.toNat < low + base

/-- R282: strings of one length are ordered as the numbers they are. -/
theorem lexGreater_iff_ofDigits_lt {base low : Nat} (hbase : 1 < base) {as bs : List Byte}
    (hlen : as.length = bs.length) (has : IsDigitString base low as) (hbs : IsDigitString base low bs) :
    lexGreater as bs = true ↔
      Nat.ofDigits base (bs.reverse.map (·.toNat - low)) < Nat.ofDigits base (as.reverse.map (·.toNat - low)) := by
  induction as generalizing bs with
  | nil =>
    obtain rfl := List.length_eq_zero_iff.1 hlen.symm
    simp [lexGreater]
  | cons a as ih =>
    cases bs with
    | nil => cases hlen
    | cons b bs =>
      obtain ⟨ha, has⟩ := List.forall_mem_cons.1 has
      obtain ⟨hb, hbs⟩ := List.forall_mem_cons.1 hbs
      have hlen : as.length = bs.length := Nat.succ.inj hlen
      have hlow {cs : List Byte} (hcs : IsDigitString base low cs) :
          Nat.ofDigits base (cs.reverse.map (·.toNat - low)) < base ^ cs.length :=
        ofDigits_reverse_lt hbase fun c hc => by have := hcs c hc; omega
      rw [ofDigits_reverse_cons, ofDigits_reverse_cons, hlen, lexGreater]
      split
      · next h =>
        rw [ih hlen has hbs, h, Nat.add_lt_add_iff_left]
      · next h =>
        rw [decide_eq_true_iff]
        have hne : a.toNat ≠ b.toNat := fun he => h (BitVec.eq_of_toNat_eq he)
        rcases Nat.lt_or_gt_of_ne hne with hab | hba
        · have hgt := mul_add_lt_mul_add (v := Nat.ofDigits base (bs.reverse.map (·.toNat - low)))
            (show a.toNat - low < b.toNat - low by omega) (hlow has)
          rw [hlen] at hgt
          exact iff_of_false (by omega) (by omega)
        · exact iff_of_true hba (mul_add_lt_mul_add (by omega) (hlow hbs))

/-- R282: strings of one length are ordered as base-256 numbers. -/
theorem lexGreater_iff_bytes {as bs : List Byte} (hlen : as.length = bs.length) : lexGreater as bs = true ↔
    Nat.ofDigits 256 (bs.reverse.map (·.toNat)) < Nat.ofDigits 256 (as.reverse.map (·.toNat)) :=
  lexGreater_iff_ofDigits_lt (low := 0) (by decide) hlen (fun b _ => ⟨Nat.zero_le _, by omega⟩)
    fun b _ => ⟨Nat.zero_le _, by omega⟩

/-- R283: the digit check, in numbers. -/
theorem all_isDigit_iff (d : List Byte) :
    d.all isDigit = true ↔ ∀ b ∈ d, 0x30 ≤ b.toNat ∧ b.toNat ≤ 0x39 := by
  simp [isDigit]

theorem isDigitString_of_all_isDigit {str : List Byte} (h : str.all isDigit = true) : IsDigitString 10 0x30 str := by
  intro b hb
  have := (all_isDigit_iff str).1 h b hb
  omega

/-- R284: strings of digits of one length are ordered as their values. -/
theorem lexGreater_iff_decValue_lt {as bs : List Byte} (hlen : as.length = bs.length) (has : as.all isDigit = true)
    (hbs : bs.all isDigit = true) : lexGreater as bs = true ↔ decValue bs < decValue as := by
  rw [decValue_eq, decValue_eq]
  exact lexGreater_iff_ofDigits_lt (by decide) hlen (isDigitString_of_all_isDigit has)
    (isDigitString_of_all_isDigit hbs)

theorem decValue_lt_pow_length {str : List Byte} (h : str.all isDigit = true) : decValue str < 10 ^ str.length := by
  rw [decValue_eq]
  refine ofDigits_reverse_lt (by decide) fun b hb => ?_
  have := isDigitString_of_all_isDigit h b hb
  rw [digitValue]
  omega

/-! ## The range check as a comparison of values -/

/-- R57: MAXDEC is the canonical numeral of 2^256 - 1. -/
theorem canonicalDecimal_max : canonicalDecimal (2 ^ 256 - 1) = maxDec := by decide +kernel

/-- R282: the range check compares the bytes of a string of 78 with those of MAXDEC. -/
theorem exceedsRange_iff_bytes (d : List Byte) : exceedsRange d = true ↔
    78 < d.length ∨ (d.length = 78 ∧
      Nat.ofDigits 256 (maxDec.reverse.map (·.toNat)) < Nat.ofDigits 256 (d.reverse.map (·.toNat))) := by
  simp only [exceedsRange, Bool.or_eq_true, Bool.and_eq_true, decide_eq_true_eq]
  exact or_congr_right (and_congr_right fun hlen => lexGreater_iff_bytes (hlen.trans maxDec_length.symm))

/-- R283, R284: of at most 78 digits, the range check lets pass exactly those whose value fits in 256 bits. -/
theorem not_exceedsRange_iff {d : List Byte} (hall : d.all isDigit = true) (hlen : d.length ≤ 78) :
    ¬exceedsRange d = true ↔ decValue d < 2 ^ 256 := by
  simp only [exceedsRange, Bool.or_eq_true, Bool.and_eq_true, decide_eq_true_eq, Nat.not_lt.2 hlen, false_or]
  rcases Nat.lt_or_eq_of_le hlen with hlt | heq
  · have hvalue : decValue d < 2 ^ 256 :=
      calc decValue d < 10 ^ d.length := decValue_lt_pow_length hall
        _ ≤ 10 ^ 77 := Nat.pow_le_pow_right (by decide) (by omega)
        _ < 2 ^ 256 := by norm_num
    exact iff_of_true (fun h => hlt.ne h.1) hvalue
  · rw [lexGreater_iff_decValue_lt (heq.trans maxDec_length.symm) hall maxDec_isDigit, decValue_maxDec]
    omega

/-! ## PARSED -/

/-- Settles O30: what is left after stripping is empty or meets the range check and then the digit check, and the
range check compares the bytes with those of MAXDEC. -/
theorem parsedFollowsTheOrder : Obligations.ParsedFollowsTheOrder := by
  intro s rd str ht
  dsimp only
  rw [← stripPlus_eq, ← stripZeros_eq, canonicalDecimal_max]
  generalize hd : stripZeros (stripPlus str) = d
  have hfail {e : PErr} (h : parseDec str = .error e) : ParseFails (.parsed rd) s e := parseFails_of_error rfl ht h
  refine ⟨decodesTo_of_rowD (op := 0x30) (c := .parsed) (by simp [opcodeTable, opcodeRowsUnits]) rd, ?_, ?_, ?_, ?_,
    ?_, ?_⟩
  · rintro rfl
    exact hfail rfl
  · rintro rfl
    exact hfail rfl
  · rintro hne hplus rfl
    exact parseGives_of_ok rfl ht (parseDec_of_zeros hne hplus hd)
  · intro hlarge
    have hne : d ≠ [] := by
      rintro rfl
      simp at hlarge
    exact hfail ((parseDec_of_digits hd hne).trans (if_pos ((exceedsRange_iff_bytes d).2 hlarge)))
  · intro hne hlarge hbad
    rw [← exceedsRange_iff_bytes] at hlarge
    rw [← all_isDigit_iff] at hbad
    exact hfail ((parseDec_of_digits hd hne).trans ((if_neg hlarge).trans (if_neg hbad)))
  · intro hne hlarge hall
    have hlen : d.length ≤ 78 := by omega
    rw [← exceedsRange_iff_bytes] at hlarge
    rw [← all_isDigit_iff] at hall
    have hvalue : Nat.ofDigits 10 (d.reverse.map fun b => b.toNat - 0x30) = decValue d := (decValue_eq d).symm
    rw [hvalue]
    exact ⟨(not_exceedsRange_iff hall hlen).1 hlarge,
      parseGives_of_ok rfl ht ((parseDec_of_digits hd hne).trans ((if_neg hlarge).trans (if_pos hall)))⟩

/-! ## Canonical numerals (R289) -/

theorem canonicalDecimal_of_ne_zero {n : Nat} (h : n ≠ 0) :
    canonicalDecimal n = (Nat.digits 10 n).reverse.map digitByte := if_neg h

/-- The last digit follows the numeral of the digits before it, if there are any. -/
theorem canonicalDecimal_step (n : Nat) :
    canonicalDecimal n = (if n / 10 = 0 then [] else canonicalDecimal (n / 10)) ++ [digitByte (n % 10)] := by
  rcases Nat.eq_zero_or_pos n with rfl | hn
  · rfl
  · rw [canonicalDecimal_of_ne_zero hn.ne', Nat.digits_def' (by decide) hn, List.reverse_cons, List.map_append]
    split
    · next hq => simp [hq]
    · next hq => rw [canonicalDecimal_of_ne_zero hq]; rfl

theorem canonicalDecimal_ne_nil (n : Nat) : canonicalDecimal n ≠ [] := by
  rw [canonicalDecimal_step]
  simp

theorem canonicalDecimal_all_isDigit (n : Nat) : (canonicalDecimal n).all isDigit = true := by
  rcases eq_or_ne n 0 with rfl | hn
  · rfl
  · rw [canonicalDecimal_of_ne_zero hn, List.all_eq_true]
    intro b hb
    obtain ⟨d, hd, rfl⟩ := List.mem_map.1 hb
    exact isDigit_digitByte (Nat.digits_lt_base (by decide) (List.mem_reverse.1 hd))

theorem decValue_canonicalDecimal (n : Nat) : decValue (canonicalDecimal n) = n := by
  rcases eq_or_ne n 0 with rfl | hn
  · rfl
  · have hdigits : ((Nat.digits 10 n).map digitByte).map digitValue = Nat.digits 10 n := by
      rw [List.map_map]
      exact (List.map_congr_left fun d hd => digitValue_digitByte (Nat.digits_lt_base (by decide) hd)).trans
        (List.map_id _)
    rw [decValue_eq, canonicalDecimal_of_ne_zero hn, ← List.map_reverse, List.reverse_reverse,
      hdigits, Nat.ofDigits_digits]

theorem canonicalDecimal_length_le {n k : Nat} (hk : 0 < k) (h : n < 10 ^ k) : (canonicalDecimal n).length ≤ k := by
  rcases eq_or_ne n 0 with rfl | hn
  · exact hk
  · rw [canonicalDecimal_of_ne_zero hn, List.length_map, List.length_reverse]
    exact (Nat.digits_length_le_iff (by decide) n).2 h

/-- R289: a 256-bit value has at most 78 digits. -/
theorem canonicalDecimal_length_le_78 (x : U256) : (canonicalDecimal x.toNat).length ≤ 78 :=
  canonicalDecimal_length_le (by decide) (x.isLt.trans (by norm_num))

/-! ## The formatter (R288) -/

theorem decDigits_eq {fuel n : Nat} (hf : 0 < fuel) (h : n < 10 ^ fuel) (acc : List Byte) :
    decDigits fuel n acc = canonicalDecimal n ++ acc := by
  induction fuel generalizing n acc with
  | zero => exact absurd hf (Nat.lt_irrefl 0)
  | succ fuel ih =>
    have hq : n / 10 < 10 ^ fuel := Nat.div_lt_of_lt_mul (by rwa [Nat.pow_succ'] at h)
    rw [decDigits, canonicalDecimal_step]
    split
    · rfl
    · next hne =>
      have hfuel : 0 < fuel := Nat.pos_of_ne_zero fun h0 => hne (by simpa [h0] using hq)
      rw [ih hfuel hq, List.append_assoc]
      rfl

/-- Padding a numeral with '0' to `k` characters pads its digits with zeros. -/
theorem padded_canonicalDecimal {n k : Nat} (hk : 0 < k) :
    List.replicate (k - (canonicalDecimal n).length) 0x30 ++ canonicalDecimal n =
      (List.replicate (k - (Nat.digits 10 n).length) 0x30 ++ (Nat.digits 10 n).reverse.map digitByte : List Byte) := by
  rcases eq_or_ne n 0 with rfl | hn
  · obtain ⟨k, rfl⟩ := Nat.exists_eq_add_of_lt hk
    simp [canonicalDecimal, List.replicate_succ']
  · rw [canonicalDecimal_of_ne_zero hn, List.length_map, List.length_reverse]

/-- A numeral of more than `k` digits is the numeral of the high part and the low part padded to `k` characters. -/
theorem canonicalDecimal_split {n k : Nat} (hk : 0 < k) (hq : n / 10 ^ k ≠ 0) :
    canonicalDecimal n = canonicalDecimal (n / 10 ^ k) ++
      (List.replicate (k - (canonicalDecimal (n % 10 ^ k)).length) 0x30 ++ canonicalDecimal (n % 10 ^ k)) := by
  have hlen : (Nat.digits 10 (n % 10 ^ k)).length ≤ k :=
    (Nat.digits_length_le_iff (by decide) _).2 (Nat.mod_lt _ (Nat.pow_pos (by decide)))
  have hdigits := Nat.digits_append_zeroes_append_digits (b := 10) (k := k - (Nat.digits 10 (n % 10 ^ k)).length)
    (n := n % 10 ^ k) (by decide) (Nat.pos_of_ne_zero hq)
  rw [Nat.add_sub_cancel' hlen, Nat.mod_add_div] at hdigits
  have hn : n ≠ 0 := by
    rintro rfl
    exact hq (Nat.zero_div _)
  rw [padded_canonicalDecimal hk, canonicalDecimal_of_ne_zero hn, canonicalDecimal_of_ne_zero hq, ← hdigits]
  simp [digitByte]

theorem decChunk_toNat : decChunk.toNat = 10 ^ 19 := rfl

/-- R288: one division by 10^19. -/
theorem udivrem_decChunk (x : U256) : udivrem .zero x decChunk = (x / decChunk, x % decChunk) :=
  udivrem_of_ne (by decide)

theorem decimal_eq {c : U256} (h : c.toNat < 10 ^ 19) : decimal c = canonicalDecimal c.toNat :=
  (decDigits_eq (by decide) h []).trans (List.append_nil _)

theorem decimalPadded_eq {c : U256} (h : c.toNat < 10 ^ 19) : decimalPadded c =
    List.replicate (19 - (canonicalDecimal c.toNat).length) 0x30 ++ canonicalDecimal c.toNat := by
  rw [decimalPadded, decimal_eq h]

/-- R288: the top chunk unpadded and the others padded are the numeral. -/
theorem decChunks_numeral {fuel : Nat} {x : U256} (hf : 0 < fuel) (h : x.toNat < (10 ^ 19) ^ fuel) :
    ∃ top rest, (decChunks fuel x).reverse = top :: rest ∧
      decimal top ++ rest.flatMap decimalPadded = canonicalDecimal x.toNat := by
  induction fuel generalizing x with
  | zero => exact absurd hf (Nat.lt_irrefl 0)
  | succ fuel ih =>
    have hq : (x / decChunk).toNat = x.toNat / 10 ^ 19 := by rw [BitVec.toNat_udiv, decChunk_toNat]
    have hr : (x % decChunk).toNat = x.toNat % 10 ^ 19 := by rw [BitVec.toNat_umod, decChunk_toNat]
    have hr_lt : (x % decChunk).toNat < 10 ^ 19 := hr ▸ Nat.mod_lt _ (by decide)
    have hzero : x / decChunk = 0 ↔ x.toNat / 10 ^ 19 = 0 := by rw [← hq]; exact BitVec.toNat_eq
    simp only [decChunks, udivrem_decChunk]
    split
    · next h0 =>
      have hmod : x.toNat % 10 ^ 19 = x.toNat := Nat.mod_eq_of_lt ((Nat.div_eq_zero_iff_lt (by decide)).1 (hzero.1 h0))
      refine ⟨x % decChunk, [], rfl, ?_⟩
      rw [decimal_eq hr_lt, hr, hmod]
      exact List.append_nil _
    · next h0 =>
      have hne : x.toNat / 10 ^ 19 ≠ 0 := fun he => h0 (hzero.2 he)
      have hlt : x.toNat / 10 ^ 19 < (10 ^ 19) ^ fuel := Nat.div_lt_of_lt_mul (by rwa [Nat.pow_succ'] at h)
      have hfuel : 0 < fuel := Nat.pos_of_ne_zero fun hz => hne (by simpa [hz] using hlt)
      obtain ⟨top, rest, hrev, htext⟩ := ih hfuel (hq ▸ hlt)
      refine ⟨top, rest ++ [x % decChunk], by rw [List.reverse_cons, hrev, List.cons_append], ?_⟩
      rw [List.flatMap_append, ← List.append_assoc, htext, hq, List.flatMap_singleton, decimalPadded_eq hr_lt, hr]
      exact (canonicalDecimal_split (by decide) hne).symm

/-- R288, R289: the formatter writes the canonical numeral. -/
theorem fmtDec_eq (x : U256) : fmtDec x = canonicalDecimal x.toNat := by
  obtain ⟨top, rest, hrev, htext⟩ := decChunks_numeral (fuel := 5) (x := x) (by decide) (x.isLt.trans (by norm_num))
  rw [fmtDec, hrev]
  exact htext

/-! ## FMTD, then PARSED -/

/-- R292: the state after FMTD has written the numeral of its source. -/
theorem exec_fmtd (s : State) (rs1 : Reg) : exec (.fmtd rs1) s =
    complete 1 ((s.setTbuf (s.tbuf.writeBytes 0 (canonicalDecimal (s.getReg rs1).toNat))).setTlen
      (BitVec.ofNat 16 (canonicalDecimal (s.getReg rs1).toNat).length)) := by
  have hfits : 0 + (fmtDec (s.getReg rs1)).length ≤ s.cfg.tbufBytes := by
    have hmin := s.cfg.tbufBytes_ge
    have hlen := canonicalDecimal_length_le_78 (s.getReg rs1)
    rw [fmtDec_eq]
    omega
  rw [exec, execFmtd]
  simp only [State.memWrite_of_fits hfits]
  rw [fmtDec_eq]

/-- When a command has written a string from byte 0, and its length to TLEN, the string is the text. -/
theorem hasText_of_written {s : State} {str : List Byte} (h : str.length ≤ s.cfg.tbufBytes) :
    HasText (((s.setTbuf (s.tbuf.writeBytes 0 str)).setTlen (BitVec.ofNat 16 str.length)).advance 1) str := by
  have hmax := s.cfg.tbufBytes_le
  refine ⟨Nat.mod_eq_of_lt (by omega), h, fun k hk => ?_⟩
  simpa using s.tbuf.read?_writeBytes_in 0 k str hk

theorem stripPlus_of_digits {str : List Byte} (h : str.all isDigit = true) : stripPlus str = str := by
  cases str with
  | nil => rfl
  | cons b bs =>
    refine if_neg ?_
    rintro rfl
    cases h

theorem decValue_stripZeros (str : List Byte) : decValue (stripZeros str) = decValue str := by
  induction str with
  | nil => rfl
  | cons b bs ih =>
    rw [stripZeros]
    split
    · next h =>
      rw [ih, h]
      rfl
    · rfl

theorem stripZeros_sublist (str : List Byte) : (stripZeros str).Sublist str :=
  stripZeros_eq str ▸ List.dropWhile_sublist _

/-- R285: a string of at most 78 digits, leading zeros included, whose value fits parses to its value. -/
theorem parseDec_of_value {str : List Byte} (hne : str ≠ []) (hall : str.all isDigit = true)
    (hlen : str.length ≤ 78) (hvalue : decValue str < 2 ^ 256) :
    parseDec str = .ok (BitVec.ofNat 256 (decValue str)) := by
  have hstrip : stripZeros (stripPlus str) = stripZeros str := by rw [stripPlus_of_digits hall]
  rw [← decValue_stripZeros] at hvalue ⊢
  rcases eq_or_ne (stripZeros str) [] with hnil | hcons
  · have hplus : str ≠ [0x2B] := by
      rintro rfl
      cases hall
    rw [parseDec_of_zeros hne hplus (hstrip.trans hnil), hnil]
    rfl
  · have hsub := stripZeros_sublist str
    have hdigits : (stripZeros str).all isDigit = true :=
      List.all_eq_true.2 fun b hb => List.all_eq_true.1 hall b (hsub.subset hb)
    have hrange := (not_exceedsRange_iff hdigits (hsub.length_le.trans hlen)).2 hvalue
    rw [parseDec_of_digits hstrip hcons, if_neg hrange, if_pos hdigits]

/-- R290: the parse of a canonical numeral is its value. -/
theorem parseDec_canonicalDecimal (x : U256) : parseDec (canonicalDecimal x.toNat) = .ok x := by
  have hvalue := decValue_canonicalDecimal x.toNat
  rw [parseDec_of_value (canonicalDecimal_ne_nil _) (canonicalDecimal_all_isDigit _) (canonicalDecimal_length_le_78 x)
    (hvalue.symm ▸ x.isLt), hvalue, BitVec.ofNat_toNat, BitVec.setWidth_eq]

/-- Settles O34: FMTD leaves the canonical numeral as the text, and its parse is the value. -/
theorem parseOfFormatIsTheValue : Obligations.ParseOfFormatIsTheValue := by
  intro s rs1 rd
  have hfits := (canonicalDecimal_length_le_78 (s.getReg rs1)).trans
    ((by decide : 78 ≤ 80).trans s.cfg.tbufBytes_ge)
  obtain ⟨u, hu, ⟨hreg, -⟩, hperr, -⟩ := parseGives_of_ok (i := .parsed rd) rfl
    (hasText_of_written hfits) (parseDec_canonicalDecimal (s.getReg rs1))
  exact ⟨_, u, exec_fmtd s rs1, hu, (hreg _ (List.mem_singleton_self _)).1, hperr⟩

end Sys2Proof.Machine

/-! # The signed family: sign, magnitude, negation, and the three division families -/

namespace Sys2Proof.Machine

/-! ## Sign, magnitude and negation -/

theorem toInt_eq_zero_iff {v : U256} : v.toInt = 0 ↔ v = 0 := BitVec.toInt_inj (y := 0)

theorem negate_eq_neg (v : U256) : negate v = -v := BitVec.zero_sub v

/-- R333: the magnitude, read unsigned, is exact for every value, MIN included. -/
theorem mag_toNat (v : U256) : (mag v).toNat = v.toInt.natAbs := by
  have hlt := v.isLt
  have hint := v.toInt_eq_toNat_cond
  rw [mag]
  split
  · next h =>
    rw [isNeg_iff] at h
    rw [negate_eq_neg, BitVec.toNat_neg]
    split at hint <;> omega
  · next h =>
    rw [isNeg_iff] at h
    split at hint <;> omega

theorem mag_ne_zero {y : U256} (hy : y ≠ 0) : mag y ≠ 0 := by
  rw [mag, negate_eq_neg]
  split
  · exact mt BitVec.neg_eq_zero_iff.1 hy
  · exact hy

/-- R332: the sign as an integer. -/
theorem signValue_toInt (x : U256) : (signValue x).toInt = x.toInt.sign := by
  rw [signValue]
  split
  · next h =>
    rw [h]
    rfl
  · next h =>
    have hne := mt toInt_eq_zero_iff.1 h
    rcases Int.lt_or_gt_of_ne hne with hneg | hpos
    · rw [if_pos (isNeg_iff.2 hneg), Int.sign_eq_neg_one_of_neg hneg]
      rfl
    · rw [if_neg (mt isNeg_iff.1 (Int.lt_asymm hpos)), Int.sign_eq_one_of_pos hpos]
      rfl

/-- Settles O37: each is a row of format DS that writes one register. -/
theorem signAbsNegResults : Obligations.SignAbsNegResults := by
  have hsign : rowDS 0x40 true .sign ∈ opcodeTable := by simp [opcodeTable, opcodeRowsSigned]
  have habs : rowDS 0x41 true .abs ∈ opcodeTable := by simp [opcodeTable, opcodeRowsSigned]
  have hneg : rowDS 0x42 true .neg ∈ opcodeTable := by simp [opcodeTable, opcodeRowsSigned]
  intro s rd rs1 hs
  exact ⟨decodesTo_of_rowDS hsign rd rs1, decodesTo_of_rowDS habs rd rs1, decodesTo_of_rowDS hneg rd rs1,
    ⟨_, signValue_toInt _, completes_of_setReg (signedCommand_of_present hs)⟩,
    ⟨_, mag_toNat _, completes_of_setReg (signedCommand_of_present hs)⟩,
    _, (congrArg BitVec.toNat (negate_eq_neg _)).trans (BitVec.toNat_neg _),
    completes_of_setReg (signedCommand_of_present hs)⟩

/-! ## The divisor check -/

section DivisionCommands

variable (s : State) (rd rs1 rs2 : Reg)

theorem exec_sdiv : exec (.sdiv rd rs1 rs2) s = signedDivision (fun x y => (tdivrem x y).1) rd rs1 rs2 s := rfl

theorem exec_srem : exec (.srem rd rs1 rs2) s = signedDivision (fun x y => (tdivrem x y).2) rd rs1 rs2 s := rfl

theorem exec_squo : exec (.squo rd rs1 rs2) s = signedDivision fquo rd rs1 rs2 s := rfl

theorem exec_smod : exec (.smod rd rs1 rs2) s = signedDivision (fun x y => (edivmod x y).2) rd rs1 rs2 s := rfl

theorem exec_sdive : exec (.sdive rd rs1 rs2) s = signedDivision (fun x y => (edivmod x y).1) rd rs1 rs2 s := rfl

theorem exec_smode : exec (.smode rd rs1 rs2) s = signedDivision (fun x y => (edivmod x y).2) rd rs1 rs2 s := rfl

end DivisionCommands

section DivisorCheck

variable {f : U256 → U256 → U256} {i : Instr} {rd rs1 rs2 : Reg} {s : State}

/-- R335: a signed division with a zero divisor faults. -/
theorem faultsWith_of_signedDivision (hexec : exec i s = signedDivision f rd rs1 rs2 s) (hs : s.cfg.hasSigned = true)
    (hy : s.getReg rs2 = 0) : FaultsWith i s .divideByZero := by
  rw [faultsWith_iff, hexec, signedDivision, signedCommand_of_present hs, hy, nonzeroDivisor_of_zero]

/-- A signed division with a nonzero divisor writes its result and nothing else. -/
theorem completes_of_signedDivision (hexec : exec i s = signedDivision f rd rs1 rs2 s) (hs : s.cfg.hasSigned = true)
    (hy : s.getReg rs2 ≠ 0) : Completes i s rd (f (s.getReg rs1) (s.getReg rs2)) :=
  completes_of_setReg (hexec.trans (signedDivision_of_ne hs hy))

end DivisorCheck

/-- Settles O38: each of the six commands is a `signedDivision`. -/
theorem signedDivisionByZeroFaults : Obligations.SignedDivisionByZeroFaults := by
  intro s rd rs1 rs2 hs hy
  have hy : s.getReg rs2 = 0 := BitVec.eq_of_toNat_eq hy
  exact ⟨faultsWith_of_signedDivision (exec_sdiv s rd rs1 rs2) hs hy,
    faultsWith_of_signedDivision (exec_srem s rd rs1 rs2) hs hy,
    faultsWith_of_signedDivision (exec_squo s rd rs1 rs2) hs hy,
    faultsWith_of_signedDivision (exec_smod s rd rs1 rs2) hs hy,
    faultsWith_of_signedDivision (exec_sdive s rd rs1 rs2) hs hy,
    faultsWith_of_signedDivision (exec_smode s rd rs1 rs2) hs hy⟩

/-! ## Quotients of integers -/

theorem natAbs_tmod_lt (a : Int) {b : Int} (hb : b ≠ 0) : (a.tmod b).natAbs < b.natAbs :=
  Int.natAbs_tmod a b ▸ Nat.mod_lt _ (Int.natAbs_pos.2 hb)

theorem natAbs_emod_lt (a : Int) {b : Int} (hb : b ≠ 0) : (a % b).natAbs < b.natAbs := by
  have hlow := Int.emod_nonneg a hb
  have hhigh := Int.emod_lt a hb
  omega

theorem natAbs_fmod_lt (a : Int) {b : Int} (hb : b ≠ 0) : (a.fmod b).natAbs < b.natAbs := by
  have hlow := Int.emod_nonneg a hb
  have hhigh := Int.emod_lt a hb
  rw [Int.fmod_eq_emod]
  split
  · omega
  · next h =>
    rw [Int.dvd_iff_emod_eq_zero] at h
    omega

/-- A quotient of 256-bit integers, rounded in any way, is a 256-bit integer but for MIN by -1: the dividend lies
between the products of the divisor with `q - 1` and with `q + 1`, and one of the two is out of range otherwise. -/
theorem quotient_in_range {a b q r : Int} (hlow : -(2 ^ 255) ≤ a) (hhigh : a < 2 ^ 255) (hdiv : q * b + r = a)
    (hr : r.natAbs < b.natAbs) (hmin : ¬(a = -(2 ^ 255) ∧ b = -1)) : -(2 ^ 255) ≤ q ∧ q < 2 ^ 255 := by
  have hbelow : (q - 1) * b = a - r - b := by
    rw [Int.sub_mul]
    omega
  have habove : (q + 1) * b = a - r + b := by
    rw [Int.add_mul]
    omega
  rcases Int.lt_or_le b 0 with hb | hb
  · refine ⟨?_, ?_⟩ <;> by_contra hq
    · have hprod : -(q + 1) ≤ (q + 1) * b := by nlinarith only [hq, hb]
      omega
    · rcases eq_or_ne b (-1) with rfl | hne
      · omega
      · have hprod : (q - 1) * b ≤ -2 * (q - 1) := by nlinarith only [hq, hb, show b ≤ -2 by omega]
        omega
  · refine ⟨?_, ?_⟩ <;> by_contra hq
    · have hprod : (q + 1) * b ≤ q + 1 := by nlinarith only [hq, show 1 ≤ b by omega]
      omega
    · have hprod : q - 1 ≤ (q - 1) * b := by nlinarith only [hq, show 1 ≤ b by omega]
      omega

theorem ofInt_sub (a b : Int) : BitVec.ofInt 256 (a - b) = BitVec.ofInt 256 a - BitVec.ofInt 256 b := by
  rw [Int.sub_eq_add_neg, BitVec.ofInt_add, BitVec.ofInt_neg, BitVec.sub_eq_add_neg]

/-- R336 to R339: the pattern of such a quotient reads as the quotient, and as MIN for MIN by -1. -/
theorem quotient_toInt {x y : U256} {q r : Int} (hdiv : q * y.toInt + r = x.toInt)
    (hr : r.natAbs < y.toInt.natAbs) :
    (¬(x.toInt = -(2 ^ 255) ∧ y.toInt = -1) → (BitVec.ofInt 256 q).toInt = q) ∧
    (x.toInt = -(2 ^ 255) ∧ y.toInt = -1 → (BitVec.ofInt 256 q).toInt = -(2 ^ 255)) := by
  constructor
  · intro hmin
    obtain ⟨hlow, hhigh⟩ := quotient_in_range x.le_toInt x.toInt_lt hdiv hr hmin
    exact BitVec.toInt_ofInt_eq_self (by decide) hlow hhigh
  · rintro ⟨hx, hy⟩
    rw [hx, hy] at hdiv
    obtain rfl : q = 2 ^ 255 := by
      rw [hy] at hr
      omega
    decide

/-- R342, R348: the division law modulo 2^256. -/
theorem quotient_identity_mod {x y : U256} {q r : Int} (hdiv : q * y.toInt + r = x.toInt) :
    ((BitVec.ofInt 256 q).toNat * y.toNat + (BitVec.ofInt 256 r).toNat) % 2 ^ 256 = x.toNat := by
  have hpattern : BitVec.ofInt 256 q * y + BitVec.ofInt 256 r = x := by
    rw [← y.ofInt_toInt, ← BitVec.ofInt_mul, ← BitVec.ofInt_add, hdiv, BitVec.ofInt_toInt]
  rw [← hpattern, BitVec.toNat_add, BitVec.toNat_mul, Nat.mod_add_mod]

/-! ## The truncated core -/

theorem tdivrem_of_ne {x y : U256} (hy : y ≠ 0) : tdivrem x y =
    (applySign (isNeg x != isNeg y) (mag x / mag y), applySign (isNeg x) (mag x % mag y)) := by
  simp only [tdivrem, udivrem_of_ne (mag_ne_zero hy)]

/-- R336: the truncated core is the signed division and remainder of bit vectors. -/
theorem tdivrem_eq_sdiv_srem {x y : U256} (hy : y ≠ 0) : tdivrem x y = (x.sdiv y, x.srem y) := by
  simp only [tdivrem_of_ne hy, mag, applySign, isNeg, negate_eq_neg, BitVec.sdiv_eq, BitVec.srem_eq]
  cases x.msb <;> cases y.msb <;> rfl

/-- R340, R341: the pair is the truncated integer quotient and remainder modulo 2^256. -/
theorem tdivrem_eq_ofInt {x y : U256} (hy : y ≠ 0) : tdivrem x y =
    (BitVec.ofInt 256 (x.toInt.tdiv y.toInt), BitVec.ofInt 256 (x.toInt.tmod y.toInt)) := by
  rw [tdivrem_eq_sdiv_srem hy, ← BitVec.toInt_srem, BitVec.ofInt_toInt]
  refine Prod.ext (BitVec.eq_of_toInt_eq ?_) rfl
  rw [BitVec.toInt_sdiv, BitVec.toInt_ofInt]

/-- R341: the truncated remainder always fits the signed reading. -/
theorem toInt_ofInt_tmod (x y : U256) :
    (BitVec.ofInt 256 (x.toInt.tmod y.toInt)).toInt = x.toInt.tmod y.toInt := by
  rw [← BitVec.toInt_srem, BitVec.ofInt_toInt]

/-- R340, R341: SDIV and SREM write the patterns of the truncated quotient and remainder. -/
theorem completes_sdiv_srem {s : State} {rd rs1 rs2 : Reg} (hs : s.cfg.hasSigned = true) (hy : s.getReg rs2 ≠ 0) :
    Completes (.sdiv rd rs1 rs2) s rd (BitVec.ofInt 256 ((s.getReg rs1).toInt.tdiv (s.getReg rs2).toInt)) ∧
    Completes (.srem rd rs1 rs2) s rd (BitVec.ofInt 256 ((s.getReg rs1).toInt.tmod (s.getReg rs2).toInt)) := by
  have hq := completes_of_signedDivision (exec_sdiv s rd rs1 rs2) hs hy
  have hr := completes_of_signedDivision (exec_srem s rd rs1 rs2) hs hy
  rw [tdivrem_eq_ofInt hy] at hq hr
  exact ⟨hq, hr⟩

/-- Settles O39: the quotient is representable but for MIN by -1, and the remainder always. -/
theorem truncatedDivisionResults : Obligations.TruncatedDivisionResults := by
  have hsdiv : rowDSS 0x48 true .sdiv ∈ opcodeTable := by simp [opcodeTable, opcodeRowsSigned]
  have hsrem : rowDSS 0x49 true .srem ∈ opcodeTable := by simp [opcodeTable, opcodeRowsSigned]
  intro s rd rs1 rs2 hs
  refine ⟨decodesTo_of_rowDSS hsdiv rd rs1 rs2, decodesTo_of_rowDSS hsrem rd rs1 rs2, fun hzero => ?_, fun hne => ?_⟩
  · have hy := toInt_eq_zero_iff.1 hzero
    exact ⟨faultsWith_of_signedDivision (exec_sdiv s rd rs1 rs2) hs hy,
      faultsWith_of_signedDivision (exec_srem s rd rs1 rs2) hs hy⟩
  · obtain ⟨hq, hr⟩ := completes_sdiv_srem (rd := rd) (rs1 := rs1) hs (mt toInt_eq_zero_iff.2 hne)
    exact ⟨_, _, hq, hr, toInt_ofInt_tmod _ _,
      quotient_toInt (Int.tdiv_mul_add_tmod _ _) (natAbs_tmod_lt _ hne)⟩

/-! ## The Euclidean core -/

/-- R338: the correction of a negative truncated remainder gives the Euclidean quotient and remainder. -/
theorem edivmod_eq_ofInt {x y : U256} (hy : y ≠ 0) : edivmod x y =
    (BitVec.ofInt 256 (x.toInt / y.toInt), BitVec.ofInt 256 (x.toInt % y.toInt)) := by
  have hlow := Int.emod_nonneg x.toInt (mt toInt_eq_zero_iff.1 hy)
  have hhigh := Int.emod_lt x.toInt (mt toInt_eq_zero_iff.1 hy)
  have hquot : x.toInt.tdiv y.toInt = _ := Int.tdiv_eq_ediv
  have hrem : x.toInt.tmod y.toInt = _ := Int.tmod_eq_emod
  simp only [edivmod, tdivrem_eq_ofInt hy, isNeg_iff, toInt_ofInt_tmod]
  by_cases h : 0 ≤ x.toInt ∨ y.toInt ∣ x.toInt
  · rw [if_pos h] at hquot hrem
    rw [if_neg (by omega), hquot, hrem, Int.add_zero, Int.natCast_zero, Int.sub_zero]
  · rw [if_neg h] at hquot hrem
    rw [if_pos (by omega)]
    split
    · next hneg =>
      rw [Int.sign_eq_neg_one_of_neg hneg] at hquot
      have hq : x.toInt / y.toInt = x.toInt.tdiv y.toInt + 1 := by omega
      have hr : x.toInt % y.toInt = x.toInt.tmod y.toInt - y.toInt := by omega
      rw [hq, hr, BitVec.ofInt_add, ofInt_sub, BitVec.ofInt_toInt]
      rfl
    · next hneg =>
      rw [Int.sign_eq_one_of_pos (by omega)] at hquot
      have hq : x.toInt / y.toInt = x.toInt.tdiv y.toInt - 1 := by omega
      have hr : x.toInt % y.toInt = x.toInt.tmod y.toInt + y.toInt := by omega
      rw [hq, hr, ofInt_sub, BitVec.ofInt_add, BitVec.ofInt_toInt]
      rfl

/-- R344, R346, R347: SDIVE writes the pattern of the Euclidean quotient, SMODE and SMOD that of the remainder. -/
theorem completes_sdive_smode_smod {s : State} {rd rs1 rs2 : Reg} (hs : s.cfg.hasSigned = true)
    (hy : s.getReg rs2 ≠ 0) :
    Completes (.sdive rd rs1 rs2) s rd (BitVec.ofInt 256 ((s.getReg rs1).toInt / (s.getReg rs2).toInt)) ∧
    Completes (.smode rd rs1 rs2) s rd (BitVec.ofInt 256 ((s.getReg rs1).toInt % (s.getReg rs2).toInt)) ∧
    Completes (.smod rd rs1 rs2) s rd (BitVec.ofInt 256 ((s.getReg rs1).toInt % (s.getReg rs2).toInt)) := by
  have hq := completes_of_signedDivision (exec_sdive s rd rs1 rs2) hs hy
  have hr := completes_of_signedDivision (exec_smode s rd rs1 rs2) hs hy
  have hmod := completes_of_signedDivision (exec_smod s rd rs1 rs2) hs hy
  rw [edivmod_eq_ofInt hy] at hq hr hmod
  exact ⟨hq, hr, hmod⟩

/-- R347: the Euclidean remainder always fits the unsigned reading. -/
theorem toNat_ofInt_emod (x : U256) {y : U256} (hne : y.toInt ≠ 0) :
    ((BitVec.ofInt 256 (x.toInt % y.toInt)).toNat : Int) = x.toInt % y.toInt := by
  have hlow := Int.emod_nonneg x.toInt hne
  have hhigh := Int.emod_lt x.toInt hne
  have hymin := y.le_toInt
  have hymax := y.toInt_lt
  rw [BitVec.toNat_ofInt]
  omega

theorem toNat_ofInt_emod_lt (x : U256) {y : U256} (hne : y.toInt ≠ 0) :
    (BitVec.ofInt 256 (x.toInt % y.toInt)).toNat < y.toInt.natAbs := by
  have hvalue := toNat_ofInt_emod x hne
  have hhigh := Int.emod_lt x.toInt hne
  omega

/-- Settles O40: the quotient is representable but for MIN by -1, and the remainder, read unsigned, always. -/
theorem euclideanDivisionResults : Obligations.EuclideanDivisionResults := by
  have hsmod : rowDSS 0x4B true .smod ∈ opcodeTable := by simp [opcodeTable, opcodeRowsSigned]
  have hsdive : rowDSS 0x4C true .sdive ∈ opcodeTable := by simp [opcodeTable, opcodeRowsSigned]
  have hsmode : rowDSS 0x4D true .smode ∈ opcodeTable := by simp [opcodeTable, opcodeRowsSigned]
  intro s rd rs1 rs2 hs
  refine ⟨decodesTo_of_rowDSS hsmod rd rs1 rs2, decodesTo_of_rowDSS hsdive rd rs1 rs2,
    decodesTo_of_rowDSS hsmode rd rs1 rs2, fun hzero => ?_, fun hne => ?_⟩
  · have hy := toInt_eq_zero_iff.1 hzero
    exact ⟨faultsWith_of_signedDivision (exec_smod s rd rs1 rs2) hs hy,
      faultsWith_of_signedDivision (exec_sdive s rd rs1 rs2) hs hy,
      faultsWith_of_signedDivision (exec_smode s rd rs1 rs2) hs hy⟩
  · obtain ⟨hq, hr, hmod⟩ := completes_sdive_smode_smod (rd := rd) (rs1 := rs1) hs (mt toInt_eq_zero_iff.2 hne)
    exact ⟨_, _, hq, hr, hmod, toNat_ofInt_emod _ hne, toNat_ofInt_emod_lt _ hne,
      quotient_toInt (Int.ediv_mul_add_emod _ _) (natAbs_emod_lt _ hne)⟩

/-- Settles O41: both pairs obey the division law of the integers, which the patterns keep. -/
theorem signedDivisionIdentities : Obligations.SignedDivisionIdentities := by
  intro s rd rs1 rs2 hs hnat
  have hy : s.getReg rs2 ≠ 0 := fun h0 => hnat (congrArg BitVec.toNat h0)
  have hne := mt toInt_eq_zero_iff.1 hy
  have htruncated := Int.tdiv_mul_add_tmod (s.getReg rs1).toInt (s.getReg rs2).toInt
  have heuclidean := Int.ediv_mul_add_emod (s.getReg rs1).toInt (s.getReg rs2).toInt
  obtain ⟨hq, hr⟩ := completes_sdiv_srem (rd := rd) (rs1 := rs1) hs hy
  obtain ⟨hqe, hre, -⟩ := completes_sdive_smode_smod (rd := rd) (rs1 := rs1) hs hy
  refine ⟨_, _, _, _, hq, hr, hqe, hre, quotient_identity_mod htruncated, quotient_identity_mod heuclidean,
    toNat_ofInt_emod_lt _ hne, fun hmin => ⟨?_, ?_⟩⟩
  · rw [(quotient_toInt htruncated (natAbs_tmod_lt _ hne)).1 hmin, toInt_ofInt_tmod, htruncated]
  · rw [(quotient_toInt heuclidean (natAbs_emod_lt _ hne)).1 hmin, toNat_ofInt_emod _ hne, heuclidean]

/-! ## The floored quotient -/

theorem applySign_eq_zero_iff {b : Bool} {m : U256} : applySign b m = 0 ↔ m = 0 := by
  cases b
  · rfl
  · rw [applySign, if_pos rfl, negate_eq_neg]
    exact BitVec.neg_eq_zero_iff

/-- R337: the floored quotient is one below the truncated one where the signs differ and the division is not exact. -/
theorem fquo_eq_tdivrem {x y : U256} (hy : y ≠ 0) : fquo x y =
    if isNeg x ≠ isNeg y ∧ (tdivrem x y).2 ≠ 0 then (tdivrem x y).1 - 1 else (tdivrem x y).1 := by
  simp only [fquo, udivrem_of_ne (mag_ne_zero hy), tdivrem_of_ne hy, Bool.and_eq_true, bne_iff_ne, ne_eq,
    applySign_eq_zero_iff]
  split
  · next h =>
    simp only [applySign, bne_iff_ne.2 h.1, if_true, negate_eq_neg]
    ring
  · rfl

theorem fdiv_eq_tdiv_of_signs (a : Int) {b : Int} (hb : b ≠ 0) : a.fdiv b =
    if ¬(a < 0 ↔ b < 0) ∧ a.tmod b ≠ 0 then a.tdiv b - 1 else a.tdiv b := by
  simp only [Int.fdiv_eq_tdiv, ne_eq, ← Int.dvd_iff_tmod_eq_zero]
  rcases Int.lt_or_gt_of_ne hb with hneg | hpos
  · rw [Int.sign_eq_neg_one_of_neg hneg]
    split_ifs <;> omega
  · rw [Int.sign_eq_one_of_pos hpos]
    split_ifs <;> omega

/-- R343: the floored quotient is the floor of the integer quotient modulo 2^256. -/
theorem fquo_eq_ofInt {x y : U256} (hy : y ≠ 0) : fquo x y = BitVec.ofInt 256 (x.toInt.fdiv y.toInt) := by
  have hsigns : isNeg x = isNeg y ↔ (x.toInt < 0 ↔ y.toInt < 0) := by
    rw [Bool.eq_iff_iff, isNeg_iff, isNeg_iff]
  simp only [fquo_eq_tdivrem hy, tdivrem_eq_ofInt hy, fdiv_eq_tdiv_of_signs _ (mt toInt_eq_zero_iff.1 hy), ne_eq,
    hsigns, ← toInt_eq_zero_iff, toInt_ofInt_tmod, apply_ite (BitVec.ofInt 256), ofInt_sub]
  rfl

/-- Settles O42: the floor of the quotient is representable but for MIN by -1. -/
theorem flooredQuotientResults : Obligations.FlooredQuotientResults := by
  have hsquo : rowDSS 0x4A true .squo ∈ opcodeTable := by simp [opcodeTable, opcodeRowsSigned]
  intro s rd rs1 rs2 hs
  refine ⟨decodesTo_of_rowDSS hsquo rd rs1 rs2, fun hzero => ?_, fun hne => ?_⟩
  · exact faultsWith_of_signedDivision (exec_squo s rd rs1 rs2) hs (toInt_eq_zero_iff.1 hzero)
  · have hy := mt toInt_eq_zero_iff.2 hne
    have hq := completes_of_signedDivision (exec_squo s rd rs1 rs2) hs hy
    rw [fquo_eq_ofInt hy] at hq
    exact ⟨_, hq, quotient_toInt (Int.fdiv_mul_add_fmod _ _) (natAbs_fmod_lt _ hne)⟩

end Sys2Proof.Machine

/-! # The exceptions family: fault entry, the fault table, and PERR -/

namespace Sys2Proof

/-- R127: the two conditions on a legal command. -/
theorem Instr.wellFormed_iff {i : Instr} {hasSigned : Bool} :
    i.wellFormed hasSigned = true ↔ (i.signed = true → hasSigned = true) ∧ i.distinctDests = true := by
  rw [Instr.wellFormed, Bool.and_eq_true, Bool.or_eq_true, Bool.not_eq_true', ← Bool.not_eq_true, imp_iff_not_or]

end Sys2Proof

namespace Sys2Proof.Machine

variable {s t : State} {i : Instr} {c : FCause}

/-! ## Fault entry -/

/-- R384, R47: a command that goes on has entered a fault, or has completed and left the fault registers alone. -/
theorem exec_next_cases (h : exec i s = .next t) :
    (∃ c, c ≠ .none ∧ t = s.enterFault c) ∨ (SameControl s t ∧ t.pc = s.pc + BitVec.ofNat 32 i.length) := by
  rcases exec_shape i s with ⟨c, hc, hx⟩ | ⟨u, hx, hu, hpc⟩ | ⟨f, hx⟩ <;> rw [hx] at h
  · exact .inl ⟨c, hc, (raise_eq_next.1 h).symm⟩
  · obtain rfl := complete_eq_next.1 h
    exact .inr ⟨hu, by rw [State.advance_pc, hpc]⟩
  · cases h

/-- R86, R127, R131: a core that is not halted takes a word as an illegal word, the first word of an LDU64, or the
last word of a command. -/
theorem acceptWord_cases (w : Word) (hf : s.fault = false) :
    acceptWord w s = .done (raise .illegalCommand s) ∨
    (∃ rd, acceptWord w s = .done (.next (s.setWait2 (some rd)))) ∨ ∃ i, acceptWord w s = .run i s.setBusy := by
  rw [acceptWord, if_neg (by simp [hf])]
  cases s.wait2 with
  | some rd => exact .inr (.inr ⟨_, rfl⟩)
  | none =>
    simp only [acceptFirst]
    split
    · exact .inr (.inr ⟨_, rfl⟩)
    · exact .inr (.inl ⟨_, rfl⟩)
    · exact .inl rfl

/-- R384: accepting a word leaves FPC alone, or it enters a fault from a core that was not halted. -/
theorem fpc_of_acceptWord {w : Word} (h : (acceptWord w s).result = .next t) :
    t.fpc = s.fpc ∨ (s.fault = false ∧ t.fault = true ∧ t.fpc = s.pc ∧ t.pc = s.pc) := by
  cases hf : s.fault with
  | true =>
    rw [acceptWord_of_halted hf] at h
    cases h
    exact .inl rfl
  | false =>
    rcases acceptWord_cases w hf with hw | ⟨rd, hw⟩ | ⟨i, hw⟩ <;> rw [hw] at h
    · cases h
      exact .inr ⟨rfl, rfl, rfl, rfl⟩
    · cases h
      exact .inl rfl
    · rcases exec_next_cases h with ⟨c, -, rfl⟩ | ⟨⟨-, -, hfpc, -⟩, -⟩
      · exact .inr ⟨rfl, rfl, rfl, rfl⟩
      · exact .inl hfpc

/-- Settles O10: of the accesses a step takes, a reset apart, only a word that enters a fault writes FPC. -/
theorem fpcWrittenOnlyByFaultEntry : Obligations.FpcWrittenOnlyByFaultEntry := by
  intro s t h hne
  rcases step_cases h with rfl | ⟨a, rest, hh, ⟨rfl, -⟩ | ⟨w, -, -, hw⟩ | ⟨-, -, -, hk⟩⟩
  · exact absurd rfl hne
  · exact .inl ⟨rest, hh⟩
  · exact .inr ((fpc_of_acceptWord hw).resolve_left hne)
  · exact absurd hk.fpc hne

/-- Settles O13: a command that completes leaves FAULT at 0, so one that sets it has entered a fault. -/
theorem faultWritesOnlyFaultEntry : Obligations.FaultWritesOnlyFaultEntry := by
  intro i s t hs h ht
  rcases exec_next_cases h with ⟨c, hc, rfl⟩ | ⟨⟨hfault, -⟩, -⟩
  · exact ⟨hc, h⟩
  · rw [hfault, hs] at ht
    cases ht

/-! ## The fault table (R381) -/

/-- R384: a command ends with FAULT = 1 and cause `c` exactly when it does what fault entry does. -/
theorem exec_faults_iff (hs : s.fault = false) :
    (∃ t, exec i s = .next t ∧ t.fault = true ∧ t.fcause = c) ↔ FaultsWith i s c := by
  constructor
  · rintro ⟨t, h, ht, rfl⟩
    exact (faultWritesOnlyFaultEntry i s t hs h ht).2
  · intro h
    exact ⟨_, h, rfl, rfl⟩

section Raises

variable {u : State} {len : Nat} {d : FCause}

theorem raise_eq_raise_iff : raise d s = raise c s ↔ c = d := by
  constructor
  · intro h
    exact (congrArg State.fcause (raise_eq_next.1 h)).symm
  · rintro rfl
    rfl

theorem complete_ne_raise (hu : u.fault = false) : complete len u ≠ raise c s := by
  intro h
  have hfault : u.fault = true := congrArg State.fault (complete_eq_next.1 h)
  rw [hu] at hfault
  cases hfault

theorem not_faultsWith_of_complete (h : exec i s = complete len u) (hu : u.fault = false) : ¬FaultsWith i s c := by
  rw [faultsWith_iff, h]
  exact complete_ne_raise hu

/-- A command with one check raises its fault exactly when the check fails. -/
theorem faultsWith_iff_of_check {p q : Prop} [Decidable q]
    (h : exec i s = if q then raise d s else complete len u) (hu : u.fault = false) (hq : q ↔ p) :
    FaultsWith i s c ↔ c = d ∧ p := by
  rw [faultsWith_iff, h, ← hq]
  by_cases hcheck : q
  · rw [if_pos hcheck, raise_eq_raise_iff, and_iff_left hcheck]
  · rw [if_neg hcheck]
    exact iff_of_false (complete_ne_raise hu) fun hc => hcheck hc.2

end Raises

/-- R397: a parse command raises no fault, whatever its text. -/
theorem parseCommand_ne_raise (hs : s.fault = false) (parse : List Byte → Except PErr U256) (rd : Reg) :
    parseCommand parse rd s ≠ raise c s := by
  rw [parseCommand]
  cases s.text with
  | error f => nofun
  | ok str =>
    obtain ⟨⟨hfault, -⟩, -⟩ := State.writeParse_control (s := s) rd (parse str)
    exact complete_ne_raise (hfault.trans hs)

/-- R335: a signed division checks its divisor and nothing else. -/
theorem faultsWith_iff_of_signedDivision {f : U256 → U256 → U256} {rd rs1 rs2 : Reg}
    (hexec : exec i s = signedDivision f rd rs1 rs2 s) (hs : s.fault = false) (hsigned : s.cfg.hasSigned = true) :
    FaultsWith i s c ↔ c = .divideByZero ∧ (s.getReg rs2).toNat = 0 := by
  have hcheck : exec i s = if s.getReg rs2 = 0 then raise .divideByZero s
      else complete 1 (s.setReg rd (f (s.getReg rs1) (s.getReg rs2))) :=
    hexec.trans (signedCommand_of_present hsigned)
  exact faultsWith_iff_of_check hcheck hs BitVec.toNat_inj.symm

/-- R352: in a block with the extension ADDD makes the range check of the signed delta. -/
theorem exec_addd_of_present {rd rs1 rs2 : Reg} (hsigned : s.cfg.hasSigned = true) : exec (.addd rd rs1 rs2) s =
    if (addDelta (s.getReg rs1) (s.getReg rs2)).bad then raise (addDelta (s.getReg rs1) (s.getReg rs2)).kind s
    else complete 1 (s.setReg rd (addDelta (s.getReg rs1) (s.getReg rs2)).z) :=
  signedCommand_of_present hsigned

/-- R349: the range check of the signed delta and its fault, over the integers. -/
theorem addDelta_fault_iff (base delta : U256) :
    (c = (addDelta base delta).kind ∧ (addDelta base delta).bad = true) ↔
      (c = .overflow ∧ 0 ≤ delta.toInt ∧ 2 ^ 256 ≤ (base.toNat : Int) + delta.toInt) ∨
      (c = .underflow ∧ delta.toInt < 0 ∧ base.toNat < delta.toInt.natAbs) := by
  rw [addDelta]
  split
  · rename_i hneg
    have hlt := isNeg_iff.1 hneg
    have hrange : subBorrow base (mag delta) = true ↔ base.toNat < delta.toInt.natAbs := by
      rw [subBorrow, mag_toNat, decide_eq_true_iff]
    simp [hrange, hlt, Int.not_le.2 hlt]
  · rename_i hneg
    have hge : 0 ≤ delta.toInt := Int.not_lt.1 (mt isNeg_iff.2 hneg)
    have hval : delta.toInt = delta.toNat := BitVec.toInt_eq_toNat_of_msb (Bool.not_eq_true _ ▸ hneg)
    have hrange : addCarry base delta = true ↔ 2 ^ 256 ≤ (base.toNat : Int) + delta.toInt := by
      rw [addCarry, decide_eq_true_iff, hval]
      omega
    simp [hrange, hge, Int.not_lt.2 hge]

/-- R381: a legal command raises exactly the faults of its row of the table. -/
theorem faultsWith_iff_faultCondition (hs : s.fault = false) (hwf : i.wellFormed s.cfg.hasSigned = true) :
    FaultsWith i s c ↔ FaultCondition s c i := by
  obtain ⟨hsigned, hdests⟩ := Instr.wellFormed_iff.1 hwf
  cases i with
  | zero | one | ldu64 | eq | lt | cmp | addo | subo | subu | mulo | divu | remu | lsh | rsh | srsh =>
    exact iff_of_false (not_faultsWith_of_complete rfl hs) id
  | mulw => exact iff_of_false (not_faultsWith_of_complete (exec_mulw_of_ne (bne_iff_ne.1 hdests)) hs) id
  | divremu => exact iff_of_false (not_faultsWith_of_complete (exec_divremu_of_ne (bne_iff_ne.1 hdests)) hs) id
  | parsed rd => exact iff_of_false (parseCommand_ne_raise hs parseDec rd) id
  | parseh rd => exact iff_of_false (parseCommand_ne_raise hs parseHex rd) id
  | fmtd rs1 => exact iff_of_false (not_faultsWith_of_complete (exec_fmtd s rs1) hs) id
  | add | sub | mul => exact faultsWith_iff_of_check rfl hs decide_eq_true_iff
  | tou64 => exact faultsWith_iff_of_check rfl hs Iff.rfl
  | sign | abs | neg | adddo =>
    exact iff_of_false (not_faultsWith_of_complete (signedCommand_of_present (hsigned rfl)) hs) id
  | sdiv => exact faultsWith_iff_of_signedDivision (exec_sdiv ..) hs (hsigned rfl)
  | srem => exact faultsWith_iff_of_signedDivision (exec_srem ..) hs (hsigned rfl)
  | squo => exact faultsWith_iff_of_signedDivision (exec_squo ..) hs (hsigned rfl)
  | smod => exact faultsWith_iff_of_signedDivision (exec_smod ..) hs (hsigned rfl)
  | sdive => exact faultsWith_iff_of_signedDivision (exec_sdive ..) hs (hsigned rfl)
  | smode => exact faultsWith_iff_of_signedDivision (exec_smode ..) hs (hsigned rfl)
  | addd =>
    exact (faultsWith_iff_of_check (exec_addd_of_present (hsigned rfl)) hs Iff.rfl).trans (addDelta_fault_iff _ _)
  | toi64 =>
    exact faultsWith_iff_of_check (signedCommand_of_present (hsigned rfl)) hs (or_congr_right Int.sub_one_lt_iff)

/-- R128: a command of the extension is illegal in a block without it. -/
theorem faultsWith_of_signed_absent (hi : i.signed = true) (h : s.cfg.hasSigned = false) :
    FaultsWith i s .illegalCommand := by
  cases i with
  | sign | abs | neg | sdiv | srem | squo | smod | sdive | smode | addd | adddo | toi64 =>
    exact signedCommand_of_absent h
  | _ => cases hi

/-- R130: a command that names one destination twice is illegal. -/
theorem faultsWith_of_not_distinctDests (h : i.distinctDests = false) : FaultsWith i s .illegalCommand := by
  cases i with
  | mulw => exact exec_mulw_of_same (bne_eq_false_iff_eq.1 h)
  | divremu => exact exec_divremu_of_same (bne_eq_false_iff_eq.1 h)
  | _ => cases h

/-- R127, R381: a term that is no legal command raises ILLEGAL_COMMAND. -/
theorem faultsWith_of_not_wellFormed (h : i.wellFormed s.cfg.hasSigned = false) :
    FaultsWith i s .illegalCommand := by
  rw [← Bool.not_eq_true, Instr.wellFormed_iff, not_and_or, Classical.not_imp, Bool.not_eq_true,
    Bool.not_eq_true] at h
  obtain ⟨hi, habsent⟩ | hdests := h
  · exact faultsWith_of_signed_absent hi habsent
  · exact faultsWith_of_not_distinctDests hdests

/-- Settles O14: the check each command makes is the condition of its row, an ill-formed term fails the check made
before it, and a word that fits no row is not legal. -/
theorem faultsAreThoseOfTheTable : Obligations.FaultsAreThoseOfTheTable := by
  refine ⟨fun i s c hs hwf => (exec_faults_iff hs).trans (faultsWith_iff_faultCondition hs hwf),
    fun i s h => faultsWith_of_not_wellFormed h, fun s w rest hs hh hno => ?_⟩
  refine haltsIllegal_of_not_legal hs hh fun r hok => hno ?_
  obtain ⟨hmem, hop, hsigned, hmask, hdests⟩ := decodeFirst_eq_ok_iff.1 hok
  exact ⟨r, hmem, hsigned, hop, hmask, hdests⟩

/-! ## PERR (R397) -/

/-- Wherever the outcome goes on, PERR is as in `s`. -/
def LeavesPerr (s : State) (r : Result) : Prop := ∀ t, r = .next t → t.perr = s.perr

theorem leavesPerr_raise : LeavesPerr s (raise c s) := by
  intro t h
  rw [← raise_eq_next.1 h, State.enterFault_perr]

theorem leavesPerr_complete {u : State} {len : Nat} (hu : u.perr = s.perr) : LeavesPerr s (complete len u) := by
  intro t h
  rw [← complete_eq_next.1 h, State.advance_perr, hu]

/-- A check before an outcome: the fault it raises leaves PERR. -/
theorem leavesPerr_check {p : Prop} [Decidable p] {r : Result} (h : LeavesPerr s r) :
    LeavesPerr s (if p then raise c s else r) := by
  split
  · exact leavesPerr_raise
  · exact h

theorem leavesPerr_signedCommand {r : Result} (h : LeavesPerr s r) : LeavesPerr s (signedCommand s r) := by
  rw [signedCommand]
  split
  · exact h
  · exact leavesPerr_raise

theorem exec_leavesPerr (h : isParse i = false) (s : State) : LeavesPerr s (exec i s) := by
  cases i with
  | parsed | parseh => cases h
  | fmtd rs1 =>
    rw [exec_fmtd]
    exact leavesPerr_complete rfl
  | zero | one | ldu64 | eq | lt | cmp | addo | subo | subu | mulo | divu | remu | lsh | rsh | srsh =>
    exact leavesPerr_complete rfl
  | add | sub | mul | mulw | divremu | tou64 => exact leavesPerr_check (leavesPerr_complete rfl)
  | sign | abs | neg | adddo => exact leavesPerr_signedCommand (leavesPerr_complete rfl)
  | sdiv | srem | squo | smod | sdive | smode | addd | toi64 =>
    exact leavesPerr_signedCommand (leavesPerr_check (leavesPerr_complete rfl))

/-- R286, R302: a parse command is `parseCommand` of a parse that has no error of code OK. -/
theorem exec_of_isParse (h : isParse i = true) : ∃ parse rd, (∀ s, exec i s = parseCommand parse rd s) ∧
    i.dests = [rd] ∧ ∀ str, parse str ≠ .error .ok := by
  cases i with
  | parsed rd => exact ⟨parseDec, rd, fun _ => rfl, rfl, fun str he => by simpa using parseDec_error he⟩
  | parseh rd => exact ⟨parseHex, rd, fun _ => rfl, rfl, fun str he => by simpa using parseHex_error he⟩
  | _ => cases h

/-- A parse command that goes on has read its text. -/
theorem parseCommand_eq_next {parse : List Byte → Except PErr U256} {rd : Reg} :
    parseCommand parse rd s = .next t ↔
      ∃ str, s.text = .ok str ∧ (s.writeParse rd (parse str)).advance 1 = t := by
  rw [parseCommand]
  cases s.text with
  | error f => simp
  | ok str => simp

/-- A parse overwrites PERR whatever it was. -/
theorem State.writeParse_setPerr (s : State) (e : PErr) (rd : Reg) (r : Except PErr U256) :
    (s.setPerr e).writeParse rd r = s.writeParse rd r := by
  cases r <;> rfl

/-- Settles O16: every command but a parse leaves PERR, and a parse of a readable text writes its code over PERR, with
its register exactly when the code is OK. -/
theorem perrWrittenOnlyByParse : Obligations.PerrWrittenOnlyByParse := by
  refine ⟨fun i s t h hi => exec_leavesPerr hi s t h, fun i s t hi h => ?_⟩
  obtain ⟨parse, rd, hexec, hdests, hok⟩ := exec_of_isParse hi
  rw [hexec] at h
  obtain ⟨str, htext, rfl⟩ := parseCommand_eq_next.1 h
  refine ⟨fun e => ?_, ?_⟩
  · rw [hexec, parseCommand_eq_next]
    exact ⟨str, htext, congrArg (State.advance · 1) (s.writeParse_setPerr e rd (parse str))⟩
  · rw [hdests]
    cases hp : parse str with
    | error e =>
      refine ⟨rfl, rfl, fun _ r => ⟨rfl, rfl⟩, fun (he : e = .ok) => ?_⟩
      rw [he] at hp
      exact absurd hp (hok str)
    | ok v =>
      refine ⟨rfl, rfl, fun hne => absurd rfl hne, fun _ r hr => ?_⟩
      rw [List.mem_singleton.1 hr]
      exact State.regWritten_setReg_self _ rd v

end Sys2Proof.Machine

/-! # The reset family: the state after reset -/

namespace Sys2Proof.Machine

/-- R420: a reset takes effect at once, from any state, BUSY = 1 included (R90, R391). -/
theorem step_reset {s : State} {rest : List HostAccess} (h : s.host = .reset :: rest) :
    step s = .next (s.setHost rest).afterReset := by
  simp [step_eq_result, fetch, h, takeAccess, Fetched.result]

/-- R421: reset leaves every limb unwritten. -/
@[simp] theorem State.limbWritten_afterReset (s : State) (r : Reg) (j : Nat) :
    s.afterReset.limbWritten r j = false := by
  simp [State.limbWritten]

/-- An empty text buffer holds no written byte. -/
@[simp] theorem Memory.read?_nil (k : Nat) : Memory.read? [] k = none := rfl

/-- Settles O57: a reset step leads to `State.afterReset` whatever the state was, and the fields of that state are
the ones claimed. -/
theorem resetSetsTheControlState : Obligations.ResetSetsTheControlState := by
  refine ⟨fun s rest h => ⟨_, step_reset h, ?_⟩, by decide, rfl, rfl, rfl⟩
  simp

end Sys2Proof.Machine


/-! # The encoding family, both directions: every word of a command, and every command of a word -/

namespace Sys2Proof

variable {hasSigned : Bool} {w : Word} {r : OpRow}

/-! ## The decoder, said once -/

/-- R127, R131, R132: words decode exactly when the first selects a row; the command is the one the row builds, and a
row of format L takes a second word, whatever its bits. -/
theorem decode_eq_ok_iff {ws rest : List Word} {i : Instr} :
    decode hasSigned ws = .ok (i, rest) ↔ ∃ w r, SelectsRow hasSigned w r ∧
      ((r.fmt ≠ .L ∧ ws = w :: rest ∧ i = r.build w 0) ∨
        (r.fmt = .L ∧ ∃ w1, ws = w :: w1 :: rest ∧ i = r.build w w1)) := by
  constructor
  · intro h
    match ws, h with
    | w :: ws, h =>
      cases hd : decodeFirst hasSigned w with
      | error e => simp [decode, hd] at h
      | ok r =>
        refine ⟨w, r, decodeFirst_eq_ok_iff.1 hd, ?_⟩
        by_cases hL : r.fmt = .L
        · match ws, h with
          | [], h => simp [decode, hd, hL] at h
          | w1 :: ws, h =>
            simp only [decode, hd, if_pos hL, Except.ok.injEq, Prod.mk.injEq] at h
            obtain ⟨rfl, rfl⟩ := h
            exact .inr ⟨hL, w1, rfl, rfl⟩
        · simp only [decode, hd, if_neg hL, Except.ok.injEq, Prod.mk.injEq] at h
          obtain ⟨rfl, rfl⟩ := h
          exact .inl ⟨hL, rfl, rfl⟩
  · rintro ⟨w, r, hrow, ⟨hL, rfl, rfl⟩ | ⟨hL, w1, rfl, rfl⟩⟩
    · simp only [decode, decodeFirst_eq_ok_iff.2 hrow, if_neg hL]
    · simp only [decode, decodeFirst_eq_ok_iff.2 hrow, if_pos hL]

/-- The words of a row of a one-word format decode to the command the row builds. -/
theorem decode_of_selectsRow (h : SelectsRow hasSigned w r) (hL : r.fmt ≠ .L) {i : Instr} (hi : r.build w 0 = i)
    (rest : List Word) : decode hasSigned ([w] ++ rest) = .ok (i, rest) :=
  decode_eq_ok_iff.2 ⟨w, r, h, .inl ⟨hL, rfl, hi.symm⟩⟩

/-! ## From the command to its words -/

/-- The must-be-zero bits of format S are zero in a word that packs rs1 alone (R122): the word is below `2 ^ 16`, and
its low twelve bits, with no rd, are a number below `2 ^ 8`. -/
theorem packWord_mask_S (op : Byte) (rs1 : Reg) :
    packWord op 0 rs1 0 0 0 &&& Format.S.mask &&& ~~~(0xFF#64) = 0 := by
  have hop := op.isLt
  have hvalue : (packWord op 0 rs1 0 0 0).toNat = op.toNat + 2 ^ 12 * rs1 := by simp [packWord_toNat]
  have hlow : (packWord op 0 rs1 0 0 0 &&& 0xFFF#64).toNat < 2 ^ 8 := by
    rw [BitVec.toNat_and, show (0xFFF#64).toNat = 2 ^ 12 - 1 from rfl, Nat.and_two_pow_sub_one_eq_mod, hvalue]
    omega
  have hmask : Format.S.mask &&& ~~~(0xFF#64) = 0xFFF#64 &&& 0xF00#64 ||| 0xFFFFFFFFFFFF0000#64 := by decide
  have hhigh : packWord op 0 rs1 0 0 0 &&& 0xFFFFFFFFFFFF0000#64 = 0 :=
    and_eq_zero_of_lt (k := 16) (by omega) (by decide)
  rw [BitVec.and_assoc, hmask, BitVec.and_or_distrib_left, hhigh, ← BitVec.and_assoc,
    and_eq_zero_of_lt hlow (by decide)]
  rfl

section Formats

variable {op : Byte} {signed : Bool} (rest : List Word)

theorem decode_packWord_D {c : Reg → Instr} (hr : rowD op c ∈ opcodeTable) (rd : Reg) :
    decode hasSigned ([packWord op rd 0 0 0 0] ++ rest) = .ok (c rd, rest) :=
  decode_of_selectsRow ⟨hr, by simp [rowD], nofun, packWord_mask_D op rd, nofun⟩ nofun (by simp [rowD]) rest

theorem decode_packWord_S {c : Reg → Instr} (hr : rowS op c ∈ opcodeTable) (rs1 : Reg) :
    decode hasSigned ([packWord op 0 rs1 0 0 0] ++ rest) = .ok (c rs1, rest) :=
  decode_of_selectsRow ⟨hr, by simp [rowS], nofun, packWord_mask_S op rs1, nofun⟩ nofun (by simp [rowS]) rest

theorem decode_packWord_DS {c : Reg → Reg → Instr} (hr : rowDS op signed c ∈ opcodeTable)
    (hs : signed = true → hasSigned = true) (rd rs1 : Reg) :
    decode hasSigned ([packWord op rd rs1 0 0 0] ++ rest) = .ok (c rd rs1, rest) :=
  decode_of_selectsRow ⟨hr, by simp [rowDS], hs, packWord_mask_DS op rd rs1, nofun⟩ nofun (by simp [rowDS]) rest

theorem decode_packWord_DSS {c : Reg → Reg → Reg → Instr} (hr : rowDSS op signed c ∈ opcodeTable)
    (hs : signed = true → hasSigned = true) (rd rs1 rs2 : Reg) :
    decode hasSigned ([packWord op rd rs1 rs2 0 0] ++ rest) = .ok (c rd rs1 rs2, rest) :=
  decode_of_selectsRow ⟨hr, by simp [rowDSS], hs, packWord_mask_DSS op rd rs1 rs2, nofun⟩ nofun (by simp [rowDSS]) rest

theorem decode_packWord_DDSS {c : Reg → Reg → Reg → Reg → Instr} (hr : rowDDSS op c ∈ opcodeTable) {rd rd2 : Reg}
    (hne : rd ≠ rd2) (rs1 rs2 : Reg) :
    decode hasSigned ([packWord op rd rs1 rs2 rd2 0] ++ rest) = .ok (c rd rd2 rs1 rs2, rest) :=
  decode_of_selectsRow ⟨hr, by simp [rowDDSS], nofun, packWord_mask_DDSS op rd rs1 rs2 rd2, by simpa using fun _ => hne⟩
    nofun (by simp [rowDDSS]) rest

theorem decode_packWord_DSI {c : Reg → Reg → BitVec 32 → Instr} (hr : rowDSI op c ∈ opcodeTable) (rd rs1 : Reg)
    (n : BitVec 32) : decode hasSigned ([packWord op rd rs1 0 0 n] ++ rest) = .ok (c rd rs1 n, rest) :=
  decode_of_selectsRow ⟨hr, by simp [rowDSI], nofun, packWord_mask_DSI op rd rs1 n, nofun⟩ nofun (by simp [rowDSI]) rest

theorem decode_packWord_L {c : Reg → Word → Instr} (hr : rowL op c ∈ opcodeTable) (rd : Reg) (imm64 : Word) :
    decode hasSigned ([packWord op rd 0 0 0 0, imm64] ++ rest) = .ok (c rd imm64, rest) :=
  decode_eq_ok_iff.2 ⟨_, _, ⟨hr, by simp [rowL], nofun, packWord_mask_D op rd, nofun⟩,
    .inr ⟨rfl, imm64, rfl, by simp [rowL]⟩⟩

end Formats

/-- Settles O1: each command packs the fields of the row of its opcode, and a row reads back what its format packs. -/
theorem decodeOfEncodeIsTheCommand : Obligations.DecodeOfEncodeIsTheCommand := by
  intro hasSigned i rest hwf
  obtain ⟨hsigned, hdests⟩ := Instr.wellFormed_iff.1 hwf
  cases i with
  | zero | one => exact decode_packWord_D rest (by simp [opcodeTable, opcodeRowsBase]) _
  | parsed | parseh => exact decode_packWord_D rest (by simp [opcodeTable, opcodeRowsUnits]) _
  | ldu64 => exact decode_packWord_L rest (by simp [opcodeTable, opcodeRowsBase]) _ _
  | fmtd => exact decode_packWord_S rest (by simp [opcodeTable, opcodeRowsUnits]) _
  | eq | lt | cmp | add | addo | sub | subo | subu | mul | mulo =>
    exact decode_packWord_DSS rest (by simp [opcodeTable, opcodeRowsBase, Instr.signed]) hsigned _ _ _
  | divu | remu => exact decode_packWord_DSS rest (by simp [opcodeTable, opcodeRowsUnits, Instr.signed]) hsigned _ _ _
  | sdiv | srem | squo | smod | sdive | smode | addd | adddo =>
    exact decode_packWord_DSS rest (by simp [opcodeTable, opcodeRowsSigned, Instr.signed]) hsigned _ _ _
  | mulw => exact decode_packWord_DDSS rest (by simp [opcodeTable, opcodeRowsBase]) (bne_iff_ne.1 hdests) _ _
  | divremu => exact decode_packWord_DDSS rest (by simp [opcodeTable, opcodeRowsUnits]) (bne_iff_ne.1 hdests) _ _
  | lsh | rsh | srsh => exact decode_packWord_DSI rest (by simp [opcodeTable, opcodeRowsUnits]) _ _ _
  | tou64 => exact decode_packWord_DS rest (by simp [opcodeTable, opcodeRowsUnits, Instr.signed]) hsigned _ _
  | sign | abs | neg | toi64 =>
    exact decode_packWord_DS rest (by simp [opcodeTable, opcodeRowsSigned, Instr.signed]) hsigned _ _


/-! ## From the words to the command -/

/-- A word with bits 31:24 clear packs its own fields (R121). -/
theorem packWord_fields (h : w.extractLsb' 24 8 = 0) :
    packWord (opField w) (rdField w) (rs1Field w) (rs2Field w) (rd2Field w) (imm32Field w) = w := by
  have hgap : w.toNat / 2 ^ 24 % 2 ^ 8 = 0 := by
    simpa [Nat.shiftRight_eq_div_pow] using congrArg BitVec.toNat h
  have hw := w.isLt
  apply BitVec.eq_of_toNat_eq
  rw [packWord_toNat, opField_toNat, rdField_val, rs1Field_val, rs2Field_val, rd2Field_val, imm32Field_toNat]
  omega

/-- A field that a mask covers is 0 where the mask finds no bit. -/
theorem extractLsb'_eq_zero_of_and {m : Word} {k len : Nat} (h : w &&& m = 0)
    (hm : m.extractLsb' k len = BitVec.allOnes len) : w.extractLsb' k len = 0 := by
  have hf := congrArg (BitVec.extractLsb' k len) h
  rwa [BitVec.extractLsb'_and, hm, BitVec.and_allOnes, BitVec.ofNat_eq_ofNat, BitVec.extractLsb'_zero] at hf

/-- The must-be-zero bits of the format are clear (R122, R129). -/
def CleanFor (fmt : Format) (w : Word) : Prop := w &&& fmt.mask &&& ~~~(0xFF#64) = 0

/-- A field that the mask of the format covers is 0 in a word whose must-be-zero bits are clear. -/
theorem CleanFor.extractLsb'_eq_zero {fmt : Format} (h : CleanFor fmt w) {k len : Nat}
    (hm : (fmt.mask &&& ~~~(0xFF#64)).extractLsb' k len = BitVec.allOnes len) : w.extractLsb' k len = 0 :=
  extractLsb'_eq_zero_of_and (BitVec.and_assoc .. ▸ h) hm

section Fields

variable {fmt : Format} (h : CleanFor fmt w)
include h

theorem CleanFor.packWord_fields (hm : (fmt.mask &&& ~~~(0xFF#64)).extractLsb' 24 8 = BitVec.allOnes 8) :
    packWord (opField w) (rdField w) (rs1Field w) (rs2Field w) (rd2Field w) (imm32Field w) = w :=
  Sys2Proof.packWord_fields (h.extractLsb'_eq_zero hm)

theorem CleanFor.rdField_eq (hm : (fmt.mask &&& ~~~(0xFF#64)).extractLsb' 8 4 = BitVec.allOnes 4) : rdField w = 0 :=
  congrArg BitVec.toFin (h.extractLsb'_eq_zero hm)

theorem CleanFor.rs1Field_eq (hm : (fmt.mask &&& ~~~(0xFF#64)).extractLsb' 12 4 = BitVec.allOnes 4) :
    rs1Field w = 0 :=
  congrArg BitVec.toFin (h.extractLsb'_eq_zero hm)

theorem CleanFor.rs2Field_eq (hm : (fmt.mask &&& ~~~(0xFF#64)).extractLsb' 16 4 = BitVec.allOnes 4) :
    rs2Field w = 0 :=
  congrArg BitVec.toFin (h.extractLsb'_eq_zero hm)

theorem CleanFor.rd2Field_eq (hm : (fmt.mask &&& ~~~(0xFF#64)).extractLsb' 20 4 = BitVec.allOnes 4) :
    rd2Field w = 0 :=
  congrArg BitVec.toFin (h.extractLsb'_eq_zero hm)

theorem CleanFor.imm32Field_eq (hm : (fmt.mask &&& ~~~(0xFF#64)).extractLsb' 32 32 = BitVec.allOnes 32) :
    imm32Field w = 0 :=
  h.extractLsb'_eq_zero hm

end Fields

/-- The word with opcode `op` and the fields of the format read from `w`, all else 0 (R122; for L, word 0). -/
def Format.packFields (op : Byte) (w : Word) : Format → Word
  | .D | .L => packWord op (rdField w) 0 0 0 0
  | .S => packWord op 0 (rs1Field w) 0 0 0
  | .DS => packWord op (rdField w) (rs1Field w) 0 0 0
  | .DSS => packWord op (rdField w) (rs1Field w) (rs2Field w) 0 0
  | .DDSS => packWord op (rdField w) (rs1Field w) (rs2Field w) (rd2Field w) 0
  | .DSI => packWord op (rdField w) (rs1Field w) 0 0 (imm32Field w)

/-- R122: a word whose must-be-zero bits are clear holds its opcode and the fields of its format, and nothing else. -/
theorem CleanFor.packFields_eq {fmt : Format} (h : CleanFor fmt w) : fmt.packFields (opField w) w = w := by
  refine Eq.trans ?_ (h.packWord_fields (by cases fmt <;> decide))
  cases fmt with
  | D | L =>
    rw [h.rs1Field_eq (by decide), h.rs2Field_eq (by decide), h.rd2Field_eq (by decide), h.imm32Field_eq (by decide)]
    rfl
  | S =>
    rw [h.rdField_eq (by decide), h.rs2Field_eq (by decide), h.rd2Field_eq (by decide), h.imm32Field_eq (by decide)]
    rfl
  | DS =>
    rw [h.rs2Field_eq (by decide), h.rd2Field_eq (by decide), h.imm32Field_eq (by decide)]
    rfl
  | DSS =>
    rw [h.rd2Field_eq (by decide), h.imm32Field_eq (by decide)]
    rfl
  | DDSS =>
    rw [h.imm32Field_eq (by decide)]
    rfl
  | DSI =>
    rw [h.rs2Field_eq (by decide), h.rd2Field_eq (by decide)]
    rfl

/-- R126: what a row builds has the S mark of the row, names its destinations as the word does, and is encoded by the
fields of the row's format (for format L, with the second word after them). -/
def BuildsItsWords (r : OpRow) : Prop :=
  ∀ w w1, (r.build w w1).signed = r.signed ∧
    (r.build w w1).distinctDests = (r.fmt != .DDSS || rdField w != rd2Field w) ∧
    encode (r.build w w1) = r.fmt.packFields r.op w :: if r.fmt = .L then [w1] else []

theorem buildsItsWords_of_mem : ∀ r ∈ opcodeTable, BuildsItsWords r := by
  intro r hr
  fin_cases hr <;> exact fun _ _ => ⟨rfl, rfl, rfl⟩

/-- A row that a word selects builds a legal command, and the command's words are the word (and the second word). -/
theorem SelectsRow.build_spec (h : SelectsRow hasSigned w r) (w1 : Word) :
    (r.build w w1).wellFormed hasSigned = true ∧
      encode (r.build w w1) = w :: if r.fmt = .L then [w1] else [] := by
  obtain ⟨hmem, hop, hsigned, hmask, hdests⟩ := h
  obtain ⟨hs, hd, hwords⟩ := buildsItsWords_of_mem r hmem w w1
  refine ⟨Instr.wellFormed_iff.2 ⟨hs ▸ hsigned, ?_⟩, ?_⟩
  · rw [hd, Bool.or_eq_true, bne_iff_ne, bne_iff_ne]
    exact imp_iff_not_or.1 hdests
  · rw [hwords, hop, CleanFor.packFields_eq hmask]

/-- Settles O2: the row a word selects builds a legal command whose encoding is that word. -/
theorem encodeOfDecodeIsTheWords : Obligations.EncodeOfDecodeIsTheWords := by
  intro hasSigned ws rest i h
  obtain ⟨w, r, hrow, ⟨hL, rfl, rfl⟩ | ⟨hL, w1, rfl, rfl⟩⟩ := decode_eq_ok_iff.1 h
  · obtain ⟨hwf, hwords⟩ := hrow.build_spec 0
    exact ⟨hwf, by rw [hwords, if_neg hL]; rfl⟩
  · obtain ⟨hwf, hwords⟩ := hrow.build_spec w1
    exact ⟨hwf, by rw [hwords, if_pos hL]; rfl⟩

/-! ## The masks -/

@[simp] theorem opField_setWidth (op : Byte) : opField (op.setWidth 64) = op := by
  have := op.isLt
  apply BitVec.eq_of_toNat_eq
  rw [opField_toNat, BitVec.toNat_setWidth]
  omega

/-- A mask of a format holds the opcode bits (R122). -/
theorem opField_and_mask (fmt : Format) (w : Word) : opField (w &&& fmt.mask) = opField w := by
  have hm : fmt.mask.extractLsb' 0 8 = BitVec.allOnes 8 := by cases fmt <;> decide
  rw [opField, BitVec.extractLsb'_and, hm, BitVec.and_allOnes, opField]

/-- Only the opcode bits of a word are set exactly when the word is its opcode. -/
theorem and_not_opcode_eq_zero_iff {x : Word} : x &&& ~~~(0xFF#64) = 0 ↔ x = (opField x).setWidth 64 := by
  constructor
  · intro h
    have hsplit : x &&& 0xFF#64 ||| x &&& ~~~(0xFF#64) = x := by
      rw [← BitVec.and_or_distrib_left, show 0xFF#64 ||| ~~~(0xFF#64) = BitVec.allOnes 64 by decide,
        BitVec.and_allOnes]
    have hlow : x.toNat % 2 ^ 8 = x.toNat := by
      rw [h, BitVec.ofNat_eq_ofNat, BitVec.or_zero] at hsplit
      rw [← Nat.and_two_pow_sub_one_eq_mod, ← show (0xFF#64).toNat = 2 ^ 8 - 1 from rfl, ← BitVec.toNat_and, hsplit]
    apply BitVec.eq_of_toNat_eq
    rw [BitVec.toNat_setWidth, opField_toNat, hlow, Nat.mod_eq_of_lt x.isLt]
  · intro h
    have hlt : x.toNat < 2 ^ 8 := by
      have := (opField x).isLt
      rw [h, BitVec.toNat_setWidth]
      omega
    exact and_eq_zero_of_lt hlt (by decide)

/-- R122: a masked word is an opcode alone exactly when it has that opcode and its must-be-zero bits are clear. -/
theorem and_mask_eq_opcode_iff (fmt : Format) (w : Word) (op : Byte) :
    w &&& fmt.mask = op.setWidth 64 ↔ op = opField w ∧ CleanFor fmt w := by
  rw [CleanFor, and_not_opcode_eq_zero_iff, opField_and_mask]
  constructor
  · intro h
    have hop := congrArg opField h
    rw [opField_and_mask, opField_setWidth] at hop
    exact ⟨hop.symm, hop ▸ h⟩
  · rintro ⟨rfl, h⟩
    exact h

/-- Settles O3: the mask of a row checks the opcode and the must-be-zero bits at once. -/
theorem firstWordLegalIffMaskMatches : Obligations.FirstWordLegalIffMaskMatches := by
  intro hasSigned w
  simp only [and_mask_eq_opcode_iff, decodeFirst_eq_ok_iff]
  constructor
  · rintro ⟨r, hmem, hop, hsigned, hmask, hdests⟩
    exact ⟨r, hmem, hsigned, ⟨hop, hmask⟩, hdests⟩
  · rintro ⟨r, hmem, hsigned, ⟨hop, hmask⟩, hdests⟩
    exact ⟨r, hmem, hop, hsigned, hmask, hdests⟩

/-- Settles O4: the decoder, run on the words of R136. -/
theorem workedEncodingsDecode : Obligations.WorkedEncodingsDecode := by
  refine ⟨?_, ?_, ?_, ?_⟩ <;> rfl

end Sys2Proof


/-! # The step family: what a command can do, in one state and in two -/

namespace Sys2Proof.Machine

variable {i : Instr} {s t : State}

/-! ## The effect of a command -/

/-- What a command does once its operands and its text are read. -/
inductive Effect where
  /-- It raises a fault (R384). -/
  | fault (c : FCause)
  /-- It stops on its text (R50, R84). -/
  | stop (f : Fault)
  /-- It writes one register. -/
  | write (rd : Reg) (v : U256)
  /-- It writes one register and OVF (R45). -/
  | report (rd : Reg) (v : U256) (ovf : Bool)
  /-- It writes two registers (R122, format DDSS). -/
  | writePair (rd rd2 : Reg) (v v2 : U256)
  /-- It writes one register and clears WAIT2 (R131). -/
  | load (rd : Reg) (v : U256)
  /-- It writes what a parse gives (R397). -/
  | parse (rd : Reg) (r : Except PErr U256)
  /-- It writes a string and its length to the text buffer (R292). -/
  | format (str : List Byte)

/-- The outcome of an effect in a state. -/
def Effect.run (e : Effect) (s : State) : Result :=
  match e with
  | .fault c => raise c s
  | .stop f => .fault f
  | .write rd v => complete 1 (s.setReg rd v)
  | .report rd v ovf => complete 1 ((s.setReg rd v).setOvf ovf)
  | .writePair rd rd2 v v2 => complete 1 ((s.setReg rd v).setReg rd2 v2)
  | .load rd v => complete 2 ((s.setWait2 none).setReg rd v)
  | .parse rd r => complete 1 (s.writeParse rd r)
  | .format str => complete 1 ((s.setTbuf (s.tbuf.writeBytes 0 str)).setTlen (BitVec.ofNat 16 str.length))

/-- The effects a command may have: its faults have a cause, it writes the destinations of its format, only the LDU64
clears WAIT2, only a parse stops, and only FMTD writes the text, with a string that fits every text buffer (R8, R122,
R131, R289, R291). -/
def Effect.Of (i : Instr) : Effect → Prop
  | .fault c => c ≠ .none
  | .stop _ => isParse i = true
  | .write rd _ | .report rd _ _ => i.dests = [rd]
  | .load rd _ => i.dests = [rd] ∧ i.length = 2
  | .writePair rd rd2 _ _ => i.dests = [rd, rd2]
  | .parse rd r => i.dests = [rd] ∧ r ≠ .error .invalidBase ∧ r ≠ .error .invalidBitsize
  | .format str => isFormat i = true ∧ str.length ≤ 78

/-- Two outcomes of command `i`, in two states, are one effect. -/
def SameEffect (i : Instr) (s t : State) (r r' : Result) : Prop := ∃ e : Effect, e.Of i ∧ r = e.run s ∧ r' = e.run t

theorem sameEffect_raise {c : FCause} (hc : c ≠ .none) : SameEffect i s t (raise c s) (raise c t) :=
  ⟨.fault c, hc, rfl, rfl⟩

theorem sameEffect_setReg {rd : Reg} {v : U256} (h : i.dests = [rd]) :
    SameEffect i s t (complete 1 (s.setReg rd v)) (complete 1 (t.setReg rd v)) := ⟨.write rd v, h, rfl, rfl⟩

theorem sameEffect_setOvf {rd : Reg} {v : U256} {b : Bool} (h : i.dests = [rd]) :
    SameEffect i s t (complete 1 ((s.setReg rd v).setOvf b)) (complete 1 ((t.setReg rd v).setOvf b)) :=
  ⟨.report rd v b, h, rfl, rfl⟩

theorem sameEffect_setReg₂ {rd rd2 : Reg} {v v2 : U256} (h : i.dests = [rd, rd2]) :
    SameEffect i s t (complete 1 ((s.setReg rd v).setReg rd2 v2)) (complete 1 ((t.setReg rd v).setReg rd2 v2)) :=
  ⟨.writePair rd rd2 v v2, h, rfl, rfl⟩

/-- A check with one result in both states, before outcomes that are one effect. -/
theorem sameEffect_ite {p : Prop} [Decidable p] {r r' u u' : Result} (h : SameEffect i s t r r')
    (hu : SameEffect i s t u u') : SameEffect i s t (if p then r else u) (if p then r' else u') := by
  split <;> assumption

theorem sameEffect_check {p : Prop} [Decidable p] {c : FCause} {r r' : Result} (hc : c ≠ .none)
    (h : SameEffect i s t r r') : SameEffect i s t (if p then raise c s else r) (if p then raise c t else r') :=
  sameEffect_ite (sameEffect_raise hc) h

/-- What command `i` reads is the same in both states: its source registers, the text and the parameters. -/
structure SameReads (i : Instr) (s t : State) : Prop where
  cfg : t.cfg = s.cfg
  text : t.text = s.text
  sources : ∀ r ∈ i.sources, t.getReg r = s.getReg r

theorem sameReads_refl : SameReads i s s := ⟨rfl, rfl, fun _ _ => rfl⟩

theorem SameReads.unary {rs1 : Reg} (h : SameReads i s t) (hi : i.sources = [rs1]) : t.getReg rs1 = s.getReg rs1 :=
  h.sources rs1 (by simp [hi])

theorem SameReads.binary {rs1 rs2 : Reg} (h : SameReads i s t) (hi : i.sources = [rs1, rs2]) :
    t.getReg rs1 = s.getReg rs1 ∧ t.getReg rs2 = s.getReg rs2 :=
  ⟨h.sources rs1 (by simp [hi]), h.sources rs2 (by simp [hi])⟩

theorem sameEffect_signedCommand {r r' : Result} (h : SameReads i s t) (hr : SameEffect i s t r r') :
    SameEffect i s t (signedCommand s r) (signedCommand t r') := by
  rw [signedCommand, signedCommand, h.cfg]
  exact sameEffect_ite hr (sameEffect_raise nofun)

/-- A parse never reports one of the reserved codes (R396). -/
theorem parseDec_codes (str : List Byte) :
    parseDec str ≠ .error .invalidBase ∧ parseDec str ≠ .error .invalidBitsize :=
  ⟨fun h => by simpa using parseDec_error h, fun h => by simpa using parseDec_error h⟩

theorem parseHex_codes (str : List Byte) :
    parseHex str ≠ .error .invalidBase ∧ parseHex str ≠ .error .invalidBitsize :=
  ⟨fun h => by simpa using parseHex_error h, fun h => by simpa using parseHex_error h⟩

theorem sameEffect_parseCommand {parse : List Byte → Except PErr U256} {rd : Reg} (h : SameReads i s t)
    (hp : isParse i = true) (hd : i.dests = [rd])
    (hcode : ∀ str, parse str ≠ .error .invalidBase ∧ parse str ≠ .error .invalidBitsize) :
    SameEffect i s t (parseCommand parse rd s) (parseCommand parse rd t) := by
  rw [parseCommand, parseCommand, h.text]
  cases s.text with
  | error f => exact ⟨.stop f, hp, rfl, rfl⟩
  | ok str => exact ⟨.parse rd (parse str), ⟨hd, hcode str⟩, rfl, rfl⟩

theorem sameEffect_signedDivision {f : U256 → U256 → U256} {rd rs1 rs2 : Reg} (h : SameReads i s t)
    (hi : i.sources = [rs1, rs2]) (hd : i.dests = [rd]) :
    SameEffect i s t (signedDivision f rd rs1 rs2 s) (signedDivision f rd rs1 rs2 t) := by
  obtain ⟨h1, h2⟩ := h.binary hi
  rw [signedDivision, signedDivision, h1, h2]
  exact sameEffect_signedCommand h (sameEffect_check nofun (sameEffect_setReg hd))

/-- R14: a command has one effect in all states that agree on what it reads. -/
theorem exec_sameEffect (h : SameReads i s t) : SameEffect i s t (exec i s) (exec i t) := by
  cases i with
  | zero | one => exact sameEffect_setReg rfl
  | ldu64 rd imm64 => exact ⟨.load rd (zextImm64 imm64), ⟨rfl, rfl⟩, rfl, rfl⟩
  | parsed rd => exact sameEffect_parseCommand h rfl rfl parseDec_codes
  | parseh rd => exact sameEffect_parseCommand h rfl rfl parseHex_codes
  | fmtd rs1 =>
    rw [exec_fmtd, exec_fmtd, h.unary rfl]
    exact ⟨.format _, ⟨rfl, canonicalDecimal_length_le_78 _⟩, rfl, rfl⟩
  | eq | lt | cmp | subu =>
    obtain ⟨h1, h2⟩ := h.binary rfl
    simp only [exec, execEq, execLt, execCmp, execSubu, h1, h2]
    exact sameEffect_setReg rfl
  | divu | remu =>
    obtain ⟨h1, h2⟩ := h.binary rfl
    simp only [exec, execDivu, execRemu, h1, h2, h.cfg]
    exact sameEffect_setReg rfl
  | lsh | rsh | srsh =>
    simp only [exec, execLsh, execRsh, execSrsh, h.unary rfl]
    exact sameEffect_setReg rfl
  | addo | subo | mulo =>
    obtain ⟨h1, h2⟩ := h.binary rfl
    simp only [exec, execAddo, execSubo, execMulo, h1, h2]
    exact sameEffect_setOvf rfl
  | add | sub | mul =>
    obtain ⟨h1, h2⟩ := h.binary rfl
    simp only [exec, execAdd, execSub, execMul, h1, h2]
    exact sameEffect_check nofun (sameEffect_setReg rfl)
  | mulw | divremu =>
    obtain ⟨h1, h2⟩ := h.binary rfl
    simp only [exec, execMulw, execDivremu, h1, h2, h.cfg]
    exact sameEffect_check nofun (sameEffect_setReg₂ rfl)
  | tou64 =>
    simp only [exec, execTou64, h.unary rfl]
    exact sameEffect_check nofun (sameEffect_setReg rfl)
  | sign | abs | neg =>
    simp only [exec, execSign, execAbs, execNeg, h.unary rfl]
    exact sameEffect_signedCommand h (sameEffect_setReg rfl)
  | sdiv | srem | squo | smod | sdive | smode =>
    simp only [exec_sdiv, exec_srem, exec_squo, exec_smod, exec_sdive, exec_smode]
    exact sameEffect_signedDivision h rfl rfl
  | addd =>
    obtain ⟨h1, h2⟩ := h.binary rfl
    simp only [exec, execAddd, h1, h2]
    exact sameEffect_signedCommand h (sameEffect_check (addDelta_kind _ _) (sameEffect_setReg rfl))
  | adddo =>
    obtain ⟨h1, h2⟩ := h.binary rfl
    simp only [exec, execAdddo, h1, h2]
    exact sameEffect_signedCommand h (sameEffect_setOvf rfl)
  | toi64 =>
    simp only [exec, execToi64, h.unary rfl]
    exact sameEffect_signedCommand h (sameEffect_check nofun (sameEffect_setReg rfl))

/-- In one state, a command has one of the effects its format allows. -/
theorem exec_effect (i : Instr) (s : State) : ∃ e : Effect, e.Of i ∧ exec i s = e.run s := by
  obtain ⟨e, he, hexec, -⟩ := exec_sameEffect (i := i) (s := s) sameReads_refl
  exact ⟨e, he, hexec⟩

/-! ## What every effect leaves alone -/

section Frames

variable {e : Effect}

theorem setReg_of_not_dest {rd r : Reg} (s : State) (v : U256) (hd : i.dests = [rd]) (hr : r ∉ i.dests) :
    (s.setReg rd v).getReg r = s.getReg r ∧ (s.setReg rd v).written[r] = s.written[r] :=
  (writesRegs_setReg rd v).2 r (by rwa [hd] at hr)

/-- R122: an effect writes no register but the destinations of the command. -/
theorem Effect.getReg_of_not_dest (he : e.Of i) (h : e.run s = .next t) {r : Reg} (hr : r ∉ i.dests) :
    t.getReg r = s.getReg r ∧ t.written[r] = s.written[r] := by
  cases e with
  | stop => cases h
  | fault =>
    cases h
    exact ⟨rfl, rfl⟩
  | format =>
    cases h
    exact ⟨rfl, rfl⟩
  | write rd v =>
    cases h
    exact setReg_of_not_dest s v he hr
  | report rd v =>
    cases h
    exact setReg_of_not_dest s v he hr
  | load rd v =>
    obtain ⟨hd, -⟩ := he
    cases h
    exact setReg_of_not_dest (s.setWait2 none) v hd hr
  | writePair rd rd2 v v2 =>
    cases h
    rw [he, List.mem_cons, List.mem_singleton, not_or] at hr
    have hfirst := (writesRegs_setReg (s := s) rd v).2 r (by simpa using hr.1)
    have hsecond := (writesRegs_setReg (s := s.setReg rd v) rd2 v2).2 r (by simpa using hr.2)
    exact ⟨hsecond.1.trans hfirst.1, hsecond.2.trans hfirst.2⟩
  | parse rd r' =>
    obtain ⟨hd, -⟩ := he
    cases r' with
    | error =>
      cases h
      exact ⟨rfl, rfl⟩
    | ok v =>
      cases h
      exact setReg_of_not_dest (s.setPerr .ok) v hd hr

/-- What no command touches: the parameters, the pending accesses, the read data and the count of resets; and BUSY
ends at 0 (R51). -/
structure KeepsHost (s t : State) : Prop where
  cfg : t.cfg = s.cfg
  host : t.host = s.host
  hostData : t.hostData = s.hostData
  epoch : t.epoch = s.epoch
  busy : t.busy = false

theorem Effect.keepsHost (h : e.run s = .next t) : KeepsHost s t := by
  cases e with
  | stop => cases h
  | parse rd r =>
    cases r <;>
    · cases h
      constructor <;> rfl
  | fault | write | report | writePair | load | format =>
    cases h
    constructor <;> rfl

/-- R49, R50: only FMTD writes the text buffer and TLEN. -/
theorem Effect.text_of_not_format (he : e.Of i) (hi : isFormat i = false) (h : e.run s = .next t) :
    t.tbuf = s.tbuf ∧ t.tlen = s.tlen := by
  cases e with
  | stop => cases h
  | format =>
    obtain ⟨hf, -⟩ := he
    rw [hi] at hf
    cases hf
  | parse rd r =>
    cases r <;>
    · cases h
      exact ⟨rfl, rfl⟩
  | fault | write | report | writePair | load =>
    cases h
    exact ⟨rfl, rfl⟩

/-- R131: a command of one word leaves WAIT2. -/
theorem Effect.wait2_of_length (he : e.Of i) (hi : i.length = 1) (h : e.run s = .next t) : t.wait2 = s.wait2 := by
  cases e with
  | stop => cases h
  | load =>
    obtain ⟨-, hlen⟩ := he
    exact absurd (hi.symm.trans hlen) (by decide)
  | parse rd r =>
    cases r <;>
    · cases h
      rfl
  | fault | write | report | writePair | format =>
    cases h
    rfl

end Frames

theorem exec_keepsHost (h : exec i s = .next t) : KeepsHost s t := by
  obtain ⟨e, -, hexec⟩ := exec_effect i s
  exact Effect.keepsHost (hexec ▸ h)

theorem exec_wait2 (hi : i.length = 1) (h : exec i s = .next t) : t.wait2 = s.wait2 := by
  obtain ⟨e, he, hexec⟩ := exec_effect i s
  exact Effect.wait2_of_length he hi (hexec ▸ h)

/-- Settles O18: each effect a command may have writes only its destinations, and only FMTD's writes the text. -/
theorem onlyDestinationsChange : Obligations.OnlyDestinationsChange := by
  intro i s t h
  obtain ⟨hcfg, hhost, hdata, hepoch, hbusy⟩ := exec_keepsHost h
  obtain ⟨e, he, hexec⟩ := exec_effect i s
  rw [hexec] at h
  exact ⟨fun r hr => Effect.getReg_of_not_dest he h hr, fun hi => Effect.text_of_not_format he hi h, hcfg, hhost, hdata,
    hepoch, hbusy⟩

/-- Settles O17: a command that goes on has entered a fault, which leaves PC, or has completed, which leaves FAULT. -/
theorem pcAdvancesByLengthOrStays : Obligations.PcAdvancesByLengthOrStays := by
  intro i s t hs h
  rcases exec_next_cases h with ⟨c, -, rfl⟩ | ⟨⟨hfault, -⟩, hpc⟩
  · exact .inr ⟨rfl, rfl⟩
  · exact .inl ⟨hfault.trans hs, hpc⟩

/-- Settles O19: no effect but that of a parse stops, and a parse stops on the fault of its text. -/
theorem onlyUnreadableTextStops : Obligations.OnlyUnreadableTextStops := by
  intro i s
  cases hi : isParse i with
  | true =>
    obtain ⟨parse, rd, hexec, -⟩ := exec_of_isParse hi
    rw [hexec, parseCommand]
    cases s.text with
    | error f => exact .inr ⟨rfl, f, rfl, rfl⟩
    | ok str => exact .inl ⟨_, rfl⟩
  | false =>
    obtain ⟨e, he, hexec⟩ := exec_effect i s
    rw [hexec]
    cases e with
    | stop => exact absurd (hi.symm.trans he) nofun
    | fault | write | report | writePair | load | parse | format => exact .inl ⟨_, rfl⟩

end Sys2Proof.Machine


namespace Sys2Proof.Machine

variable {i : Instr} {s t : State} {a : HostAccess} {w : Word}

/-! ## Steps -/

theorem encode_length (i : Instr) : (encode i).length = i.length := by
  cases i <;> rfl

theorem Instr.length_pos (i : Instr) : 0 < i.length := by
  cases i <;> exact Nat.succ_pos _

/-- R132: one word decodes to a command of one word alone. -/
theorem length_eq_one_of_decode {hasSigned : Bool} {rest : List Word} (h : decode hasSigned [w] = .ok (i, rest)) :
    i.length = 1 := by
  obtain ⟨-, hwords⟩ := encodeOfDecodeIsTheWords _ _ _ _ h
  have hlen := congrArg List.length hwords
  rw [List.length_append, encode_length, List.length_singleton] at hlen
  have := Instr.length_pos i
  omega

/-- R127: a first word is an illegal word, the first word of an LDU64, or a command of one word. -/
theorem acceptFirst_cases (w : Word) (s : State) :
    acceptFirst w s = .done (raise .illegalCommand s) ∨
    (∃ rd, acceptFirst w s = .done (.next (s.setWait2 (some rd)))) ∨
    ∃ i, i.length = 1 ∧ acceptFirst w s = .run i s.setBusy := by
  rw [acceptFirst]
  split
  · next i ws hd => exact .inr (.inr ⟨i, length_eq_one_of_decode hd, rfl⟩)
  · exact .inr (.inl ⟨_, rfl⟩)
  · exact .inl rfl

/-- R86, R131: a core that is not halted takes a word as the second word of the LDU64 it waits for, or, waiting for
none, as a first word. -/
theorem acceptWord_spec (w : Word) (hf : s.fault = false) :
    (∃ rd, s.wait2 = some rd ∧ acceptWord w s = .run (.ldu64 rd w) s.setBusy) ∨
    (s.wait2 = none ∧ (acceptWord w s = .done (raise .illegalCommand s) ∨
      (∃ rd, acceptWord w s = .done (.next (s.setWait2 (some rd)))) ∨
      ∃ i, i.length = 1 ∧ acceptWord w s = .run i s.setBusy)) := by
  cases hw : s.wait2 with
  | some rd => exact .inl ⟨rd, rfl, by simp [acceptWord, hf, hw]⟩
  | none =>
    rw [acceptWord_of_ready hf hw]
    exact .inr ⟨rfl, acceptFirst_cases w s⟩

/-- Between the accesses of the host: the parameters and the accesses still pending are those of `s`, and an idle core
is idle again. -/
structure TakesNoMore (s t : State) : Prop where
  cfg : t.cfg = s.cfg
  host : t.host = s.host
  busy : s.busy = false → t.busy = false

theorem acceptWord_takesNoMore (h : (acceptWord w s).result = .next t) : TakesNoMore s t := by
  cases hf : s.fault with
  | true =>
    rw [acceptWord_of_halted hf] at h
    cases h
    exact ⟨rfl, rfl, id⟩
  | false =>
    rcases acceptWord_cases w hf with hw | ⟨rd, hw⟩ | ⟨i, hw⟩ <;> rw [hw] at h
    · cases h
      exact ⟨rfl, rfl, fun _ => rfl⟩
    · cases h
      exact ⟨rfl, rfl, id⟩
    · have hk : KeepsHost s.setBusy t := exec_keepsHost h
      exact ⟨hk.cfg, hk.host, fun _ => hk.busy⟩

/-- R98: taking an access takes no further one. -/
theorem takeAccess_takesNoMore (h : (takeAccess a s).result = .next t) : TakesNoMore s t := by
  rcases takeAccess_cases a s with ⟨-, ht⟩ | ⟨w, -, ht⟩ | ⟨-, -, r, ht, hk⟩ <;> rw [ht] at h
  · cases h
    exact ⟨rfl, rfl, fun _ => rfl⟩
  · exact acceptWord_takesNoMore h
  · have hkeeps : KeepsStatus s t := hk t h
    exact ⟨hkeeps.cfg, hkeeps.host, hkeeps.busy.trans⟩

theorem step_of_nil (h : s.host = []) : step s = .next s := by
  rw [step_eq_result, fetch_of_nil h]
  rfl

/-- R90: while BUSY = 1 every access but a reset is held. -/
theorem step_of_busy {rest : List HostAccess} (hb : s.busy = true) (h : s.host = a :: rest) (ha : a ≠ .reset) :
    step s = .next s := by
  simp [step_eq_result, fetch, h, hb, ha, Fetched.result]

/-- Settles O11: an idle core takes the access at the head, and taking it touches neither the later ones nor the
parameters. -/
theorem stepTakesOneAccess : Obligations.StepTakesOneAccess := by
  refine ⟨fun s t a rest hb hh h => ?_, fun s t h => ?_, fun s => step_of_nil, fun s a rest => step_of_busy⟩
  · rw [step_of_idle hb hh] at h
    exact (takeAccess_takesNoMore h).host
  · rcases step_cases h with rfl | ⟨a, rest, -, ⟨-, rfl⟩ | ⟨w, -, -, hw⟩ | ⟨-, -, -, hk⟩⟩
    · rfl
    · rfl
    · exact (acceptWord_takesNoMore hw).cfg
    · exact hk.cfg

/-- R127: a ready core runs the command a pushed word decodes to, with BUSY at 1. -/
theorem step_of_decodes {ws : List Word} {l : List HostAccess} (hs : s.ready) (hh : s.host = pushWord w :: l)
    (h : decode s.cfg.hasSigned [w] = .ok (i, ws)) : step s = exec i (s.setHost l).setBusy := by
  have haccept : acceptFirst w (s.setHost l) = .run i (s.setHost l).setBusy := by
    simp only [acceptFirst, State.setHost_cfg, h]
  rw [step_of_ready hs hh, haccept]
  rfl

/-- Settles O7: a first word that decodes runs its command, and that of an LDU64 waits for the word that completes
it. -/
theorem stepRunsDecodedCommand : Obligations.StepRunsDecodedCommand := by
  intro s w rest hs hh
  refine ⟨fun i ws h => step_of_decodes hs hh h, fun rd w1 rest' h hrest => ?_⟩
  obtain ⟨-, hwords⟩ := encodeOfDecodeIsTheWords _ _ _ _ h
  obtain rfl : w = packWord 0x03 rd 0 0 0 0 := (List.cons.inj hwords).1
  have ⟨hbusy, hfault, _⟩ := hs
  refine ⟨?_, step_of_waiting (s := (s.setHost rest).setWait2 (some rd)) hbusy hfault rfl hrest⟩
  rw [step_of_ready hs hh, acceptFirst_ldu64]
  rfl

/-! ## The invariant -/

/-- The state after reset meets the invariant, whatever is pending and however often it was reset. -/
theorem resetOf_inv (c : Config) : (State.resetOf c).Inv :=
  ⟨rfl, ⟨iff_of_true rfl rfl, nofun, fun _ => rfl, nofun, nofun⟩, Memory.wf_reset c, nofun, Nat.zero_le _⟩

/-- Settles O58: every clause is about a field that reset sets. -/
theorem resetMeetsTheInvariant : Obligations.ResetMeetsTheInvariant := resetOf_inv

theorem textInv_of_eq (h : s.TextInv) (hcfg : t.cfg = s.cfg) (htbuf : t.tbuf = s.tbuf) (htlen : t.tlen = s.tlen) :
    t.TextInv := by
  simpa only [State.TextInv, hcfg, htbuf, htlen] using h

/-- FMTD writes a string that fits, and its length. -/
theorem textInv_of_format {str : List Byte} (h : s.TextInv) (hlen : str.length ≤ 78) :
    ((s.setTbuf (s.tbuf.writeBytes 0 str)).setTlen (BitVec.ofNat 16 str.length)).TextInv := by
  obtain ⟨hwf, hin, -⟩ := h
  have hmin := s.cfg.tbufBytes_ge
  refine ⟨Memory.wf_writeBytes hwf 0 str, fun c hc => ?_, ?_⟩
  · rcases Memory.mem_writeBytes hc with ⟨-, hlt⟩ | hc
    · simp only [State.setTlen_cfg, State.setTbuf_cfg]
      omega
    · exact hin c hc
  · simp only [State.setTlen_tlen, State.setTlen_cfg, State.setTbuf_cfg, BitVec.toNat_ofNat]
    omega

/-- R49, R50: a command leaves the text buffer canonical and TLEN legal. -/
theorem exec_textInv (hs : s.TextInv) (h : exec i s = .next t) : t.TextInv := by
  obtain ⟨e, he, hexec⟩ := exec_effect i s
  rw [hexec] at h
  cases e with
  | stop => cases h
  | format str =>
    obtain ⟨-, hlen⟩ := he
    cases h
    exact textInv_of_format hs hlen
  | parse rd r =>
    cases r <;>
    · cases h
      exact hs
  | fault | write | report | writePair | load =>
    cases h
    exact hs

/-- PERR is none of the two codes that are never raised (R396). -/
def State.PerrInv (s : State) : Prop := s.perr ≠ .invalidBase ∧ s.perr ≠ .invalidBitsize

theorem exec_perrInv (hs : s.PerrInv) (h : exec i s = .next t) : t.PerrInv := by
  obtain ⟨e, he, hexec⟩ := exec_effect i s
  rw [hexec] at h
  cases e with
  | stop => cases h
  | parse rd r =>
    obtain ⟨-, hbase, hsize⟩ := he
    cases r with
    | ok =>
      cases h
      exact ⟨nofun, nofun⟩
    | error e =>
      cases h
      exact ⟨fun he => hbase (congrArg Except.error he), fun he => hsize (congrArg Except.error he)⟩
  | fault | write | report | writePair | load | format =>
    cases h
    exact hs

/-- R384, R388: fault entry from a core that awaits no second word. -/
theorem statusInv_enterFault {c : FCause} (hc : c ≠ .none) (hw : s.wait2 = none) (hp : s.PerrInv) :
    (s.enterFault c).StatusInv :=
  ⟨iff_of_false nofun hc, fun _ => ⟨hw, rfl⟩, nofun, hp⟩

/-- A command that completes leaves the fault registers of a core that is not halted. -/
theorem statusInv_of_sameControl (hs : s.StatusInv) (hf : s.fault = false) (h : SameControl s t) (hp : t.PerrInv) :
    t.StatusInv := by
  obtain ⟨hcause, -, hfpc, -⟩ := hs
  obtain ⟨hfault', hcause', hfpc', -⟩ := h
  refine ⟨?_, ?_, fun _ => hfpc'.trans (hfpc hf), hp⟩
  · rwa [hfault', hcause']
  · rw [hfault', hf]
    nofun

/-- A command keeps the status invariant where it awaits no second word, which an LDU64 never needs: it does not
fault. -/
theorem exec_statusInv (hs : s.StatusInv) (hf : s.fault = false) (hw : s.wait2 = none ∨ i.length = 2)
    (h : exec i s = .next t) : t.StatusInv := by
  have ⟨_, _, _, hp⟩ := hs
  rcases exec_next_cases h with ⟨c, hc, rfl⟩ | ⟨hcontrol, -⟩
  · refine statusInv_enterFault hc (hw.resolve_right fun hlen => ?_) hp
    obtain ⟨rd, imm64, rfl⟩ := Instr.length_eq_two_iff.1 hlen
    rw [exec_ldu64] at h
    have hfault : s.fault = true := congrArg State.fault (Host.Outcome.next.inj h)
    rw [hf] at hfault
    cases hfault
  · exact statusInv_of_sameControl hs hf hcontrol (exec_perrInv hp h)

theorem exec_inv (hs : s.Inv) (hf : s.fault = false) (hw : s.wait2 = none ∨ i.length = 2)
    (h : exec i s.setBusy = .next t) : t.Inv := by
  obtain ⟨-, hstatus, htext⟩ := hs
  exact ⟨(exec_keepsHost h).busy, exec_statusInv (s := s.setBusy) hstatus hf hw h,
    exec_textInv (s := s.setBusy) htext h⟩

/-- R86: taking a word keeps the invariant. -/
theorem acceptWord_inv (hs : s.Inv) (h : (acceptWord w s).result = .next t) : t.Inv := by
  cases hf : s.fault with
  | true =>
    rw [acceptWord_of_halted hf] at h
    cases h
    exact hs
  | false =>
    rcases acceptWord_spec w hf with ⟨rd, -, ha⟩ | ⟨hwait, ha | ⟨rd, ha⟩ | ⟨i, -, ha⟩⟩ <;> rw [ha] at h
    · exact exec_inv (i := .ldu64 rd w) hs hf (.inr rfl) h
    · obtain ⟨-, ⟨-, -, -, hp⟩, htext⟩ := hs
      cases h
      exact ⟨rfl, statusInv_enterFault nofun hwait hp, htext⟩
    · obtain ⟨hbusy, ⟨hcause, -, hfpc, hp⟩, htext⟩ := hs
      cases h
      exact ⟨hbusy, ⟨hcause, fun ht => absurd (hf.symm.trans ht) nofun, hfpc, hp⟩, htext⟩
    · exact exec_inv hs hf (.inl hwait) h

/-- A host write that is no push has the outcome of a target other than CMD, or is refused (R82, R83, R85, R88). -/
theorem takeAccess_write_cases {offset bytes : Nat} (h : (HostAccess.write offset bytes w).commandWord? = none) :
    (∀ s, takeAccess (.write offset bytes w) s = .done (hostWriteTarget s w (portTarget s.cfg offset))) ∨
    ∀ s, takeAccess (.write offset bytes w) s = .done (.refused (.hostAccessShape offset bytes)) := by
  by_cases hadm : admitted offset bytes = true
  · have hne : offset ≠ 0x200 := by
      rintro rfl
      have hb : bytes = 8 := by simpa [admitted] using hadm
      simp [HostAccess.commandWord?, hb] at h
    exact .inl (takeAccess_write hadm hne w)
  · exact .inr (takeAccess_write_refused hadm w)

/-- R85, R91: a host write keeps the text buffer canonical and TLEN legal. -/
theorem hostWriteTarget_textInv {p : PortTarget} (hs : s.TextInv) (h : hostWriteTarget s w p = .next t) :
    t.TextInv := by
  cases p with
  | tlen =>
    simp only [hostWriteTarget, hostWriteTlen] at h
    split at h
    · next hle =>
      obtain ⟨hwf, hin, -⟩ := hs
      cases h
      exact ⟨hwf, hin, (Nat.mod_le _ _).trans hle⟩
    · cases h
  | tbufWord m =>
    obtain ⟨hwf, hin, hlen⟩ := hs
    cases h
    exact ⟨wf_writeLanes hwf, fun c hc => (mem_writeLanes hc).elim id (hin c), hlen⟩
  | limb | cmd | status | pc | fpc | id | reserved =>
    cases h
    exact hs

/-- An access that is no push keeps the text invariant; a reset empties the buffer. -/
theorem takeAccess_textInv (hs : s.TextInv) (ha : a.commandWord? = none) (h : (takeAccess a s).result = .next t) :
    t.TextInv := by
  cases a with
  | reset =>
    cases h
    have ⟨_, _, htext⟩ := resetOf_inv s.cfg
    exact htext
  | read offset bytes =>
    simp only [takeAccess, Fetched.result, hostRead] at h
    split at h
    · cases h
      exact hs
    · cases h
  | write offset bytes w =>
    rcases takeAccess_write_cases ha with hw | hw <;> rw [hw] at h
    · exact hostWriteTarget_textInv hs h
    · cases h

/-- An access that leaves every status field alone keeps the status invariant. -/
theorem KeepsStatus.statusInv (h : KeepsStatus s t) (hs : s.StatusInv) : t.StatusInv := by
  simpa only [State.StatusInv, h.fault, h.fcause, h.wait2, h.fpc, h.pc, h.perr] using hs

theorem takeAccess_inv (hs : s.Inv) (h : (takeAccess a s).result = .next t) : t.Inv := by
  rcases takeAccess_cases a s with ⟨-, ht⟩ | ⟨w, -, ht⟩ | ⟨-, ha, r, ht, hk⟩
  · rw [ht] at h
    cases h
    exact resetOf_inv s.cfg
  · exact acceptWord_inv hs (ht ▸ h)
  · obtain ⟨hbusy, hstatus, htext⟩ := hs
    have hkeeps : KeepsStatus s t := hk t (by rwa [ht] at h)
    exact ⟨hkeeps.busy.trans hbusy, hkeeps.statusInv hstatus, takeAccess_textInv htext ha h⟩

/-- Settles O59: a step holds the state or takes one access, which keeps the invariant. -/
theorem stepKeepsTheInvariant : Obligations.StepKeepsTheInvariant := by
  intro s t hs h
  cases hh : s.host with
  | nil =>
    rw [step_of_nil hh] at h
    cases h
    exact hs
  | cons a rest =>
    rw [step_of_idle hs.1 hh] at h
    exact takeAccess_inv (s := s.setHost rest) hs h

end Sys2Proof.Machine


/-! # Unwritten limbs -/

namespace Sys2Proof.Machine

variable {i : Instr} {s t : State} {a : HostAccess} {w : Word}

/-- A state that differs from `s` at most in unwritten limbs is `s` with other registers. -/
theorem SameButUnwritten.exists_regs (h : SameButUnwritten s t) : ∃ regs, t = { s with regs := regs } := ⟨t.regs, h.1⟩

section Fields

variable (h : SameButUnwritten s t)
include h

theorem SameButUnwritten.cfg : t.cfg = s.cfg := by
  obtain ⟨regs, rfl⟩ := h.exists_regs
  rfl

theorem SameButUnwritten.host : t.host = s.host := by
  obtain ⟨regs, rfl⟩ := h.exists_regs
  rfl

theorem SameButUnwritten.busy : t.busy = s.busy := by
  obtain ⟨regs, rfl⟩ := h.exists_regs
  rfl

theorem SameButUnwritten.fault : t.fault = s.fault := by
  obtain ⟨regs, rfl⟩ := h.exists_regs
  rfl

theorem SameButUnwritten.wait2 : t.wait2 = s.wait2 := by
  obtain ⟨regs, rfl⟩ := h.exists_regs
  rfl

end Fields

/-- An update that neither reads nor writes the registers or their marks, made in both states. -/
theorem SameButUnwritten.map (h : SameButUnwritten s t) (f : State → State)
    (hf : ∀ s regs, f { s with regs := regs } = { f s with regs := regs }) (hregs : ∀ s, (f s).regs = s.regs)
    (hmarks : ∀ s, (f s).written = s.written) : SameButUnwritten (f s) (f t) := by
  obtain ⟨ht, hlimbs⟩ := h
  refine ⟨?_, fun r j hj hw => ?_⟩
  · rw [hregs t, ← hf, ← ht]
  · simp only [State.limbWritten, State.getReg, hmarks, hregs] at hw ⊢
    exact hlimbs r j hj hw

theorem SameButUnwritten.setReg (h : SameButUnwritten s t) (rd : Reg) (v : U256) :
    SameButUnwritten (s.setReg rd v) (t.setReg rd v) := by
  obtain ⟨regs, rfl⟩ := h.exists_regs
  obtain ⟨-, hlimbs⟩ := h
  refine ⟨rfl, fun r j hj hw => ?_⟩
  rw [State.limbWritten_setReg _ _ _ _ _ hj] at hw
  rw [State.getReg_setReg, State.getReg_setReg]
  split
  · rfl
  · next hne => exact hlimbs r j hj (by simpa [hne] using hw)

/-- R82: the same limb, written in both states. -/
theorem SameButUnwritten.setRegLimb (h : SameButUnwritten s t) (rd : Reg) (k : Nat) (w : Word) :
    SameButUnwritten (s.setRegLimb rd k w) (t.setRegLimb rd k w) := by
  obtain ⟨regs, rfl⟩ := h.exists_regs
  obtain ⟨-, hlimbs⟩ := h
  refine ⟨rfl, fun r j hj hw => ?_⟩
  rw [State.limbWritten_setRegLimb _ _ _ _ _ _ hj] at hw
  rw [State.getReg_setRegLimb, State.getReg_setRegLimb]
  split
  · next heq =>
    subst heq
    rw [limb_setLimb _ _ _ _ hj, limb_setLimb _ _ _ _ hj]
    split
    · rfl
    · next hne => exact hlimbs r j hj (by simpa [hne] using hw)
  · next hne => exact hlimbs r j hj (by simpa [hne] using hw)

theorem SameButUnwritten.advance (h : SameButUnwritten s t) (len : Nat) :
    SameOutcome (complete len s) (complete len t) :=
  h.map (·.advance len) (fun _ _ => rfl) (fun _ => rfl) fun _ => rfl

/-- R384: fault entry reads no register. -/
theorem SameButUnwritten.raise (h : SameButUnwritten s t) (c : FCause) : SameOutcome (raise c s) (raise c t) :=
  h.map (·.enterFault c) (fun _ _ => rfl) (fun _ => rfl) fun _ => rfl

/-- One effect in both states has the same outcome, but for unwritten limbs. -/
theorem Effect.run_sameOutcome (e : Effect) (h : SameButUnwritten s t) : SameOutcome (e.run s) (e.run t) := by
  cases e with
  | fault c => exact h.raise c
  | stop => rfl
  | write rd v => exact (h.setReg rd v).advance 1
  | writePair rd rd2 v v2 => exact ((h.setReg rd v).setReg rd2 v2).advance 1
  | report rd v b =>
    exact ((h.setReg rd v).map (·.setOvf b) (fun _ _ => rfl) (fun _ => rfl) fun _ => rfl).advance 1
  | load rd v =>
    exact ((h.map (·.setWait2 none) (fun _ _ => rfl) (fun _ => rfl) fun _ => rfl).setReg rd v).advance 2
  | parse rd r =>
    cases r with
    | error e => exact (h.map (·.setPerr e) (fun _ _ => rfl) (fun _ => rfl) fun _ => rfl).advance 1
    | ok v => exact ((h.map (·.setPerr .ok) (fun _ _ => rfl) (fun _ => rfl) fun _ => rfl).setReg rd v).advance 1
  | format str =>
    exact (h.map (fun u => (u.setTbuf (u.tbuf.writeBytes 0 str)).setTlen (BitVec.ofNat 16 str.length))
      (fun _ _ => rfl) (fun _ => rfl) fun _ => rfl).advance 1

/-- R425: a register all of whose limbs are written has one value in both states. -/
theorem SameButUnwritten.getReg_eq (h : SameButUnwritten s t) {r : Reg} (hr : s.regWritten r = true) :
    t.getReg r = s.getReg r :=
  eq_of_limbs fun j hj => (h.2 r j hj ((s.regWritten_iff r).1 hr j hj)).symm

/-- R425: a command that reads only written registers reads the same in both states. -/
theorem SameButUnwritten.sameReads (h : SameButUnwritten s t) (hread : readsWritten i s) : SameReads i s t := by
  have hsources : ∀ r ∈ i.sources, t.getReg r = s.getReg r := fun r hr => h.getReg_eq (hread r hr)
  obtain ⟨regs, rfl⟩ := h.exists_regs
  exact ⟨rfl, rfl, hsources⟩

theorem SameButUnwritten.exec (h : SameButUnwritten s t) (hread : readsWritten i s) :
    SameOutcome (exec i s) (exec i t) := by
  obtain ⟨e, -, hs, ht⟩ := exec_sameEffect (h.sameReads hread)
  rw [hs, ht]
  exact e.run_sameOutcome h

/-! ## Host accesses -/

/-- R82, R421: the host reads a written limb, the same in both states, or a free value. -/
theorem SameButUnwritten.hostLimb_eq (h : SameButUnwritten s t) (r : Reg) (j : Nat) :
    t.hostLimb r j = s.hostLimb r j := by
  have hlimbs := h.2 r j
  obtain ⟨regs, rfl⟩ := h.exists_regs
  rw [State.hostLimb, State.hostLimb]
  by_cases hw : s.limbWritten r j = true
  · have hj : j < 4 := BitVec.lt_of_getLsbD hw
    rw [if_pos hw, hlimbs hj hw]
    exact if_pos hw
  · rw [if_neg hw]
    exact if_neg hw

theorem SameButUnwritten.hostValue_eq (h : SameButUnwritten s t) (offset : Nat) :
    t.hostValue offset = s.hostValue offset := by
  have hlimb := h.hostLimb_eq
  obtain ⟨regs, rfl⟩ := h.exists_regs
  simp only [State.hostValue, hlimb]
  rfl

theorem SameButUnwritten.hostRead (h : SameButUnwritten s t) (offset bytes : Nat) :
    SameOutcome (hostRead s offset bytes) (hostRead t offset bytes) := by
  rw [Machine.hostRead, Machine.hostRead, h.hostValue_eq]
  split
  · exact h.map (·.setHostData _) (fun _ _ => rfl) (fun _ => rfl) fun _ => rfl
  · rfl

theorem SameButUnwritten.hostWriteTarget (h : SameButUnwritten s t) (w : Word) (p : PortTarget) :
    SameOutcome (hostWriteTarget s w p) (hostWriteTarget t w p) := by
  cases p with
  | limb r j => exact h.setRegLimb r j w
  | tbufWord m => exact h.map (·.hostWriteTbufWord m w) (fun _ _ => rfl) (fun _ => rfl) fun _ => rfl
  | tlen =>
    obtain ⟨regs, rfl⟩ := h.exists_regs
    simp only [Machine.hostWriteTarget, hostWriteTlen]
    split
    · exact h.map (·.setTlen _) (fun _ _ => rfl) (fun _ => rfl) fun _ => rfl
    · rfl
  | cmd | status | pc | fpc | id | reserved => exact h

theorem SameButUnwritten.setBusy (h : SameButUnwritten s t) : SameButUnwritten s.setBusy t.setBusy :=
  h.map (·.setBusy) (fun _ _ => rfl) (fun _ => rfl) fun _ => rfl

/-- R127: the decoder reads the word and HAS_SIGNED alone. -/
theorem SameButUnwritten.acceptFirst (h : SameButUnwritten s t)
    (hsafe : ∀ i s', acceptFirst w s = .run i s' → readsWritten i s') :
    SameOutcome (acceptFirst w s).result (acceptFirst w t).result := by
  simp only [Machine.acceptFirst, h.cfg] at hsafe ⊢
  cases hd : decode s.cfg.hasSigned [w] with
  | ok p =>
    simp only [hd] at hsafe
    exact h.setBusy.exec (hsafe _ _ rfl)
  | error e =>
    cases e with
    | secondWordMissing rd => exact h.map (·.setWait2 (some rd)) (fun _ _ => rfl) (fun _ => rfl) fun _ => rfl
    | noWord | unassignedOpcode | signedAbsent | reservedBits | sameDestination => exact h.raise .illegalCommand

/-- R86: taking a word, where the command it completes keeps the duty of R425. -/
theorem SameButUnwritten.acceptWord (h : SameButUnwritten s t)
    (hsafe : ∀ i s', acceptWord w s = .run i s' → readsWritten i s') :
    SameOutcome (acceptWord w s).result (acceptWord w t).result := by
  rw [Machine.acceptWord] at hsafe
  rw [Machine.acceptWord, Machine.acceptWord, h.fault, h.wait2]
  split
  · exact h
  · next hf =>
    rw [if_neg hf] at hsafe
    cases hw : s.wait2 with
    | some rd => exact h.setBusy.exec (i := .ldu64 rd w) fun _ hr => absurd hr List.not_mem_nil
    | none =>
      rw [hw] at hsafe
      exact h.acceptFirst hsafe

/-- R98: taking one access, where the command it completes keeps the duty of R425. -/
theorem SameButUnwritten.takeAccess (h : SameButUnwritten s t)
    (hsafe : ∀ i s', takeAccess a s = .run i s' → readsWritten i s') :
    SameOutcome (takeAccess a s).result (takeAccess a t).result := by
  cases hw : a.commandWord? with
  | some w =>
    obtain rfl := eq_pushWord_of_commandWord? hw
    exact h.acceptWord hsafe
  | none =>
    cases a with
    | reset =>
      obtain ⟨regs, rfl⟩ := h.exists_regs
      exact ⟨rfl, fun _ _ _ _ => rfl⟩
    | read offset bytes => exact h.hostRead offset bytes
    | write offset bytes w =>
      rcases takeAccess_write_cases hw with hw | hw <;> rw [hw, hw]
      · obtain ⟨regs, rfl⟩ := h.exists_regs
        exact h.hostWriteTarget w (portTarget s.cfg offset)
      · rfl

/-- Settles O60: both states take the same access, and each of its effects is the same but for unwritten limbs. -/
theorem unwrittenLimbsNeverMatter : Obligations.UnwrittenLimbsNeverMatter := by
  intro s t h hsafe
  rw [State.safeNext, fetch] at hsafe
  rw [step_eq_result, step_eq_result, fetch, fetch, h.host, h.busy]
  cases hh : s.host with
  | nil => exact h
  | cons a rest =>
    rw [hh] at hsafe
    simp only at hsafe ⊢
    split
    · exact h
    · next hidle =>
      rw [if_neg hidle] at hsafe
      exact (h.map (·.setHost rest) (fun _ _ => rfl) (fun _ => rfl) fun _ => rfl).takeAccess hsafe

end Sys2Proof.Machine


/-! # Runs (R430) -/

namespace Sys2Proof.Machine

variable {i : Instr} {s t u v : State} {a : HostAccess} {w : Word} {l rest : List HostAccess}

/-! ## Running step by step -/

theorem run_succ_eq_next {k : Nat} :
    Sys2Proof.core.run (k + 1) s = .next t ↔ ∃ u : State, step s = .next u ∧ Sys2Proof.core.run k u = .next t := by
  simp only [Host.Core.run, show Sys2Proof.core.step s = step s from rfl]
  cases step s <;> simp

/-- A run is the run of its first steps and then that of the others. -/
theorem run_add_eq_next {m k : Nat} : Sys2Proof.core.run (m + k) s = .next t ↔
    ∃ u : State, Sys2Proof.core.run m s = .next u ∧ Sys2Proof.core.run k u = .next t := by
  induction m generalizing s with
  | zero =>
    rw [Nat.zero_add]
    exact ⟨fun h => ⟨s, rfl, h⟩, fun ⟨u, hs, hu⟩ => by cases hs; exact hu⟩
  | succ m ih =>
    rw [Nat.succ_add, run_succ_eq_next]
    simp only [ih, run_succ_eq_next]
    exact ⟨fun ⟨x, hx, y, hy, ht⟩ => ⟨y, ⟨x, hx, hy⟩, ht⟩, fun ⟨y, ⟨x, hx, hy⟩, ht⟩ => ⟨x, hx, y, hy, ht⟩⟩

/-- The core is idle, with `l` and then `rest` pending, and no reset is in `l`. -/
structure Pending (s : State) (l rest : List HostAccess) : Prop where
  busy : s.busy = false
  host : s.host = l ++ rest
  noReset : .reset ∉ l

theorem Pending.step_eq (h : Pending s (a :: l) rest) : step s = (takeAccess a (s.setHost (l ++ rest))).result :=
  step_of_idle h.busy h.host

/-- An idle core takes the first of the pending accesses. -/
theorem Pending.step_next (h : Pending s (a :: l) rest) (hstep : step s = .next u) : Pending u l rest := by
  rw [h.step_eq] at hstep
  have hk := takeAccess_takesNoMore hstep
  exact ⟨hk.busy h.busy, hk.host, fun hr => h.noReset (List.mem_cons_of_mem _ hr)⟩

theorem Pending.ne_reset (h : Pending s (a :: l) rest) : a ≠ .reset := fun ha => h.noReset (ha ▸ List.mem_cons_self)

/-- A run takes its accesses, and leaves the core idle before the ones after them. -/
theorem Pending.run_next (h : Pending s l rest) (hrun : Sys2Proof.core.run l.length s = .next t) :
    Pending t [] rest := by
  induction l generalizing s with
  | nil =>
    cases hrun
    exact h
  | cons a l ih =>
    obtain ⟨u, hstep, hu⟩ := run_succ_eq_next.1 hrun
    exact ih (h.step_next hstep) hu

/-! ## A halted core -/

/-- `t` is halted as `s` is: FAULT, FCAUSE, FPC and PC are those of `s`. -/
structure SameHalt (s t : State) : Prop where
  fault : t.fault = s.fault
  fcause : t.fcause = s.fcause
  fpc : t.fpc = s.fpc
  pc : t.pc = s.pc

/-- R46, R388: no access but a reset changes the fault registers or PC of a halted core. -/
theorem Pending.step_halted (h : Pending s (a :: l) rest) (hf : s.fault = true) (hstep : step s = .next u) :
    SameHalt s u := by
  rw [h.step_eq] at hstep
  rcases takeAccess_cases a (s.setHost (l ++ rest)) with ⟨hr, -⟩ | ⟨w, -, ht⟩ | ⟨-, -, r, ht, hk⟩
  · exact absurd hr h.ne_reset
  · rw [ht, acceptWord_of_halted (by exact hf)] at hstep
    cases hstep
    constructor <;> rfl
  · rw [ht] at hstep
    have hkeeps : KeepsStatus _ u := hk u hstep
    exact ⟨hkeeps.fault, hkeeps.fcause, hkeeps.fpc, hkeeps.pc⟩

theorem Pending.run_halted (h : Pending s l rest) (hf : s.fault = true)
    (hrun : Sys2Proof.core.run l.length s = .next t) : SameHalt s t := by
  induction l generalizing s with
  | nil =>
    cases hrun
    constructor <;> rfl
  | cons a l ih =>
    obtain ⟨u, hstep, hu⟩ := run_succ_eq_next.1 hrun
    have hsu := h.step_halted hf hstep
    have hut := ih (h.step_next hstep) (hsu.fault.trans hf) hu
    exact ⟨hut.fault.trans hsu.fault, hut.fcause.trans hsu.fcause, hut.fpc.trans hsu.fpc, hut.pc.trans hsu.pc⟩

/-- The accesses that push no word. -/
abbrev notPushes (l : List HostAccess) : List HostAccess := l.filter fun a => a.commandWord?.isNone

/-- An access that is no push does the same whatever accesses are pending after it. -/
theorem takeAccess_setHost (ha : a.commandWord? = none) (s : State) (h : List HostAccess) :
    (takeAccess a (s.setHost h)).result = onNext (·.setHost h) (takeAccess a s).result := by
  cases a with
  | reset => rfl
  | read offset bytes => exact ite_onNext rfl rfl
  | write offset bytes w =>
    rcases takeAccess_write_cases ha with hw | hw <;> rw [hw, hw]
    · simp only [State.setHost_cfg, Fetched.result]
      cases portTarget s.cfg offset with
      | tlen => exact ite_onNext rfl rfl
      | limb | tbufWord | cmd | status | pc | fpc | id | reserved => rfl
    · rfl

/-- R388: a halted core discards every word, so the other accesses alone lead to the same state. -/
theorem Pending.run_halted_notPushes (h : Pending s l rest) (hf : s.fault = true)
    (hrun : Sys2Proof.core.run l.length s = .next t) :
    Sys2Proof.core.run (notPushes l).length (s.setHost (notPushes l ++ rest)) = .next t := by
  induction l generalizing s with
  | nil =>
    have hhost : s.setHost rest = s := by
      rw [← List.nil_append rest, ← h.host]
      rfl
    exact hhost ▸ hrun
  | cons a l ih =>
    obtain ⟨u, hstep, hu⟩ := run_succ_eq_next.1 hrun
    have hnext := ih (h.step_next hstep) ((h.step_halted hf hstep).fault.trans hf) hu
    rw [h.step_eq] at hstep
    cases ha : a.commandWord? with
    | some w =>
      obtain rfl := eq_pushWord_of_commandWord? ha
      rw [show takeAccess (pushWord w) (s.setHost (l ++ rest)) = acceptWord w (s.setHost (l ++ rest)) from rfl,
        acceptWord_of_halted (by exact hf)] at hstep
      cases hstep
      have hfilter : notPushes (pushWord w :: l) = notPushes l := by simp [notPushes]
      rw [hfilter]
      exact hnext
    | none =>
      have hfilter : notPushes (a :: l) = a :: notPushes l := by simp [notPushes, ha]
      rw [hfilter, List.length_cons, run_succ_eq_next]
      refine ⟨u.setHost (notPushes l ++ rest), ?_, hnext⟩
      rw [step_of_idle (s := s.setHost (a :: notPushes l ++ rest)) h.busy rfl]
      have hother := takeAccess_setHost ha (s.setHost (l ++ rest)) (notPushes l ++ rest)
      rw [hstep] at hother
      exact hother

/-! ## A core that is not halted -/

/-- The command words taken since reset, modulo 2^32: those PC counts, and the first word of an LDU64 that waits for
its second (R47, R131). -/
def State.consumed (s : State) : BitVec 32 := s.pc + if s.wait2.isSome then 1 else 0

theorem State.consumed_of_wait2_none (h : s.wait2 = none) : s.consumed = s.pc := by simp [State.consumed, h]

theorem State.consumed_of_wait2_some {rd : Reg} (h : s.wait2 = some rd) : s.consumed = s.pc + 1 := by
  simp [State.consumed, h]

/-- R47, R127, R131: a core that is not halted counts the word it takes, or enters a fault at a first word. -/
theorem acceptWord_running (hf : s.fault = false) (h : (acceptWord w s).result = .next u) :
    (u.fault = false ∧ u.consumed = s.consumed + 1) ∨
    (s.wait2 = none ∧ ∃ c, c ≠ .none ∧ u = s.enterFault c) := by
  rcases acceptWord_spec w hf with ⟨rd, hwait, ha⟩ | ⟨hwait, ha | ⟨rd, ha⟩ | ⟨i, hlen, ha⟩⟩ <;> rw [ha] at h
  · cases h
    rw [State.consumed_of_wait2_some hwait, State.consumed_of_wait2_none (by rfl), BitVec.add_assoc]
    exact .inl ⟨hf, rfl⟩
  · cases h
    exact .inr ⟨hwait, .illegalCommand, nofun, rfl⟩
  · cases h
    rw [State.consumed_of_wait2_none hwait, State.consumed_of_wait2_some (rd := rd) (by rfl)]
    exact .inl ⟨hf, rfl⟩
  · have hexec : exec i s.setBusy = .next u := h
    have hwait' : u.wait2 = none := (exec_wait2 hlen hexec).trans hwait
    rcases exec_next_cases hexec with ⟨c, hc, rfl⟩ | ⟨⟨hfault, -⟩, hpc⟩
    · exact .inr ⟨hwait, c, hc, rfl⟩
    · rw [State.consumed_of_wait2_none hwait, State.consumed_of_wait2_none hwait', hpc, hlen]
      exact .inl ⟨hfault.trans hf, rfl⟩

/-- The state after fault entry with cause `c` at the word just taken, with `pending` left (R384). -/
def State.haltedAt (s : State) (pending : List HostAccess) (c : FCause) : State :=
  { s with host := pending, fault := true, fcause := c, fpc := s.pc }

theorem State.enterFault_eq_haltedAt {pending : List HostAccess} {c : FCause} (hb : s.busy = false) :
    (s.setHost pending).enterFault c = s.haltedAt pending c := by
  simp only [State.enterFault, State.setHost, State.haltedAt, hb]

theorem Pending.step_running (h : Pending s (a :: l) rest) (hf : s.fault = false) (hstep : step s = .next u) :
    (u.fault = false ∧ u.consumed = s.consumed + BitVec.ofNat 32 (runWords [a]).length) ∨
    ∃ w c, a = pushWord w ∧ s.ready ∧ c ≠ .none ∧ u = s.haltedAt (l ++ rest) c := by
  rw [h.step_eq] at hstep
  rcases takeAccess_cases a (s.setHost (l ++ rest)) with ⟨hr, -⟩ | ⟨w, rfl, ht⟩ | ⟨hr, hw, r, ht, hk⟩
  · exact absurd hr h.ne_reset
  · rw [ht] at hstep
    rcases acceptWord_running (by exact hf) hstep with hcount | ⟨hwait, c, hc, hu⟩
    · exact .inl hcount
    · exact .inr ⟨w, c, rfl, ⟨h.busy, hf, hwait⟩, hc, hu.trans (State.enterFault_eq_haltedAt h.busy)⟩
  · rw [ht] at hstep
    have hkeeps : KeepsStatus _ u := hk u hstep
    refine .inl ⟨hkeeps.fault.trans hf, ?_⟩
    rw [runWords_cons_of_none hr hw, State.consumed, hkeeps.pc, hkeeps.wait2]
    exact (BitVec.add_zero _).symm

/-- The run of `l` from `s` enters a fault: it takes `before` with no fault, then in `u` the word `w` with cause `c`,
and then `after`, which leads to `t`. -/
structure EntersFault (s t : State) (l rest before : List HostAccess) (w : Word) (after : List HostAccess) (u : State)
    (c : FCause) : Prop where
  split : l = before ++ pushWord w :: after
  run : Sys2Proof.core.run before.length s = .next u
  pending : Pending u (pushWord w :: after) rest
  ready : u.ready
  count : u.pc = s.consumed + BitVec.ofNat 32 (runWords before).length
  cause : c ≠ .none
  entry : step u = .next (u.haltedAt (after ++ rest) c)
  discard : Sys2Proof.core.run after.length (u.haltedAt (after ++ rest) c) = .next t

/-- The words of a list are those of its first access and of the others, counted modulo 2^32. -/
theorem add_runWords_cons (x : BitVec 32) (ha : a ≠ .reset) :
    x + BitVec.ofNat 32 (runWords (a :: l)).length =
      x + BitVec.ofNat 32 (runWords [a]).length + BitVec.ofNat 32 (runWords l).length := by
  rw [← List.singleton_append, runWords_append (by simpa using Ne.symm ha), List.length_append, BitVec.ofNat_add,
    BitVec.add_assoc]

/-- R430: a run from a core that is not halted counts every word and ends with no fault, or enters a fault. -/
theorem Pending.run_running (h : Pending s l rest) (hf : s.fault = false)
    (hrun : Sys2Proof.core.run l.length s = .next t) :
    (t.fault = false ∧ t.consumed = s.consumed + BitVec.ofNat 32 (runWords l).length) ∨
    ∃ before w after u c, EntersFault s t l rest before w after u c := by
  induction l generalizing s with
  | nil =>
    cases hrun
    exact .inl ⟨hf, (BitVec.add_zero _).symm⟩
  | cons a l ih =>
    obtain ⟨v, hstep, hv⟩ := run_succ_eq_next.1 hrun
    rcases h.step_running hf hstep with ⟨hfault, hcount⟩ | ⟨w, c, rfl, hready, hc, rfl⟩
    · rcases ih (h.step_next hstep) hfault hv with ⟨htf, htc⟩ | ⟨before, w, after, u, c, he⟩
      · exact .inl ⟨htf, by rw [add_runWords_cons _ h.ne_reset, ← hcount, htc]⟩
      · refine .inr ⟨a :: before, w, after, u, c, ?_, run_succ_eq_next.2 ⟨v, hstep, he.run⟩, he.pending, he.ready, ?_,
          he.cause, he.entry, he.discard⟩
        · rw [he.split, List.cons_append]
        · rw [add_runWords_cons _ h.ne_reset, ← hcount, he.count]
    · exact .inr ⟨[], w, l, s, c, rfl, rfl, h, hready, by
        rw [State.consumed_of_wait2_none hready.2.2]; exact (BitVec.add_zero _).symm, hc, hstep, hv⟩

/-- R46: a run that ends with no fault was halted at no point of it. -/
theorem Pending.run_never_halted {l₁ l₂ : List HostAccess} (h : Pending s (l₁ ++ l₂) rest)
    (hrun : Sys2Proof.core.run (l₁ ++ l₂).length s = .next t) (ht : t.fault = false) :
    ∃ u : State, Sys2Proof.core.run l₁.length s = .next u ∧ u.fault = false := by
  rw [List.length_append, run_add_eq_next] at hrun
  obtain ⟨u, hu, hut⟩ := hrun
  have hstart : Pending s l₁ (l₂ ++ rest) :=
    ⟨h.busy, h.host.trans (List.append_assoc ..), fun hr => h.noReset (List.mem_append_left _ hr)⟩
  have hmid := hstart.run_next hu
  have hrest : Pending u l₂ rest := ⟨hmid.busy, hmid.host, fun hr => h.noReset (List.mem_append_right _ hr)⟩
  refine ⟨u, hu, Bool.eq_false_iff.2 fun hf => ?_⟩
  have hhalt := (hrest.run_halted hf hut).fault
  rw [ht, hf] at hhalt
  cases hhalt

/-- R388: after fault entry the core stays halted as it was. -/
theorem EntersFault.sameHalt {before after : List HostAccess} {c : FCause}
    (h : EntersFault s t l rest before w after u c) : SameHalt (u.haltedAt (after ++ rest) c) t :=
  (h.pending.step_next h.entry).run_halted rfl h.discard

/-- Settles O12: the words of a run are counted until a fault, and a halted core discards the others. -/
theorem runConsumesEveryWord : Obligations.RunConsumesEveryWord := by
  intro l rest s t hs hh hr hrun
  obtain ⟨hbusy, hfault, hwait⟩ := id hs
  have h : Pending s l rest := ⟨hbusy, hh, hr⟩
  obtain ⟨htbusy, hthost, -⟩ := h.run_next hrun
  refine ⟨hthost, ?_, fun hsucc => ?_, fun c p hout => ?_⟩
  · rw [State.outcome_eq_none, State.ended, hthost, List.nil_append, Option.isSome_iff_ne_none]
    tauto
  · obtain ⟨⟨-, -, htwait⟩, htf⟩ := State.succeeded_iff.1 hsucc
    refine ⟨?_, fun l₁ l₂ hl => ?_⟩
    · rcases h.run_running hfault hrun with ⟨-, hcount⟩ | ⟨before, w, after, u, c, he⟩
      · rwa [State.consumed_of_wait2_none htwait, State.consumed_of_wait2_none hwait] at hcount
      · exact absurd (htf.symm.trans he.sameHalt.fault) nofun
    · subst hl
      exact h.run_never_halted hrun htf
  · obtain ⟨-, htf, rfl, rfl⟩ := State.outcome_eq_fault.1 hout
    rcases h.run_running hfault hrun with ⟨hnone, -⟩ | ⟨before, w, after, u, c, he⟩
    · exact absurd (htf.symm.trans hnone) nofun
    · obtain ⟨-, hcause, hfpc, hpc⟩ := he.sameHalt
      have hstart : s.consumed = s.pc := State.consumed_of_wait2_none hwait
      have hcount := he.count
      have hentry := he.pending.step_next he.entry
      rw [hcause, hfpc]
      refine ⟨he.cause, hpc, before, w, after, u, u.haltedAt (after ++ rest) c, he.split, he.run, he.ready, rfl,
        hstart ▸ hcount, he.entry, rfl, hentry.run_halted_notPushes rfl he.discard⟩

end Sys2Proof.Machine


/-! # Results of commands that the spec derives, and the codecs -/

namespace Sys2Proof.Machine

variable {s t : State}

/-! ## Subtraction laws (R187, R189) -/

/-- R189: one command that writes `f x y` and then one that writes `g z y` undo each other where `g (f x y) y = x`. -/
theorem second_undoes_first {i k : Instr} {f g : U256 → U256 → U256} {rd rs1 rs2 : Reg} (hne : rd ≠ rs2)
    (hi : ∃ t, exec i s = .next t ∧ WritesRegs s t [(rd, f (s.getReg rs1) (s.getReg rs2))])
    (hk : ∀ t, ∃ u, exec k t = .next u ∧ WritesRegs t u [(rd, g (t.getReg rd) (t.getReg rs2))])
    (hundo : ∀ x y, g (f x y) y = x) :
    ∃ t u, exec i s = .next t ∧ exec k t = .next u ∧ u.getReg rd = s.getReg rs1 := by
  obtain ⟨t, ht, hwt, hframe⟩ := hi
  obtain ⟨u, hu, hwu, -⟩ := hk t
  refine ⟨t, u, ht, hu, ?_⟩
  rw [(hwu _ (List.mem_singleton_self _)).1, (hwt _ (List.mem_singleton_self _)).1,
    (hframe rs2 (by simpa using hne.symm)).1, hundo]

theorem addo_writes (s : State) (rd rs1 rs2 : Reg) : ∃ t, exec (.addo rd rs1 rs2) s = .next t ∧
    WritesRegs s t [(rd, s.getReg rs1 + s.getReg rs2)] := ⟨_, rfl, writesRegs_setReg rd _⟩

theorem subu_writes (s : State) (rd rs1 rs2 : Reg) : ∃ t, exec (.subu rd rs1 rs2) s = .next t ∧
    WritesRegs s t [(rd, s.getReg rs1 - s.getReg rs2)] := ⟨_, rfl, writesRegs_setReg rd _⟩

/-- Settles O24: SUBO writes the wrapped difference and the borrow, and addition and subtraction of one operand undo
each other modulo 2^256. -/
theorem suboResultsAndSubtractionLaws : Obligations.SuboResultsAndSubtractionLaws := by
  have hsubo : rowDSS 0x15 false .subo ∈ opcodeTable := by simp [opcodeTable, opcodeRowsBase]
  intro s rd rs1 rs2
  refine ⟨decodesTo_of_rowDSS hsubo rd rs1 rs2, ⟨_, toNat_sub_eq_emod _ _, completesWith_of_setReg_setOvf rfl⟩,
    fun hne => ?_, fun hne => ?_, fun hle => exec_sub_of_le hle⟩
  · exact second_undoes_first hne (addo_writes s rd rs1 rs2) (fun t => subu_writes t rd rd rs2) BitVec.add_sub_cancel
  · exact second_undoes_first hne (subu_writes s rd rs1 rs2) (fun t => addo_writes t rd rd rs2) BitVec.sub_add_cancel

/-! ## Shift laws (R265) -/

/-- A left shift that loses no bit is undone by the right shift. -/
theorem shiftRight_shiftLeft {x : U256} {n : Nat} (hn : n ≤ 255) (hx : x.toNat < 2 ^ (256 - n)) :
    shiftRight (shiftLeft x n) n = x := by
  have hpow : 2 ^ (256 - n) * 2 ^ n = 2 ^ 256 := by rw [← Nat.pow_add, Nat.sub_add_cancel (by omega)]
  have hfits : x.toNat * 2 ^ n < 2 ^ 256 := hpow ▸ Nat.mul_lt_mul_of_pos_right hx (Nat.two_pow_pos n)
  apply BitVec.eq_of_toNat_eq
  rw [shiftRight_toNat, shiftLeft_toNat, if_neg (by omega), if_neg (by omega), Nat.mod_eq_of_lt hfits,
    Nat.mul_div_cancel _ (Nat.two_pow_pos n)]

theorem shiftRightSigned_of_nonneg {x : U256} (hx : x.toNat < 2 ^ 255) (n : Nat) :
    shiftRightSigned x n = shiftRight x n :=
  if_neg (by rw [isNeg, BitVec.msb_eq_decide]; simpa using hx)

/-- A left shift below 256 is a multiplication by a power of two, modulo 2^256. -/
theorem shiftLeft_eq_productLow {x y : U256} {n : Nat} (hn : n < 256) (hy : y.toNat = 2 ^ n) :
    shiftLeft x n = productLow x y := by
  apply BitVec.eq_of_toNat_eq
  rw [shiftLeft_toNat, if_neg (Nat.not_le.2 hn), productLow_toNat, hy]

/-- Settles O29: each law is one of the shift values. -/
theorem shiftLawsHold : Obligations.ShiftLawsHold := by
  intro s rd rs1 n
  refine ⟨fun hn hx => ⟨_, _, rfl, rfl, ?_⟩, fun hx => ?_, fun rs2 hn hy => ⟨_, _, rfl, exec_mulo s rd rs1 rs2, ?_⟩⟩
  · simp only [State.getReg_advance, State.getReg_setReg_self, shiftAmount]
    exact shiftRight_shiftLeft hn hx
  · simp only [exec, execRsh, execSrsh, shiftRightSigned_of_nonneg hx]
  · simp only [State.getReg_advance, State.getReg_setOvf, State.getReg_setReg_self, shiftAmount]
    exact shiftLeft_eq_productLow hn hy

/-! ## Texts -/

/-- Settles O32: both parse commands read the text before anything else. -/
theorem parseOfUnwrittenByteStops : Obligations.ParseOfUnwrittenByteStops := by
  intro s rd k hk hlen hwritten hunwritten
  have htext := State.text_of_unwritten hk hlen hwritten hunwritten
  constructor
  · simp only [exec, execParsed, parseCommand, htext]
  · simp only [exec, execParseh, parseCommand, htext]

/-- R121, R122, R126: the word of the format S row decodes to the command of the row. -/
theorem decodesTo_of_rowS {op : Byte} {c : Reg → Instr} (hr : rowS op c ∈ opcodeTable) (rs1 : Reg) :
    DecodesTo op.toNat 0 rs1 0 0 0 (c rs1) := by
  have hw : fieldsWord op.toNat 0 rs1 0 0 0 = packWord op 0 rs1 0 0 0 := fieldsWord_eq_packWord op 0 rs1 0 0 0
  rw [DecodesTo, hw]
  exact decode_packWord_S [] hr rs1

/-- Settles O33: FMTD writes the canonical numeral from byte 0 and its length, and no other field but PC and BUSY. -/
theorem fmtdWritesCanonicalDecimal : Obligations.FmtdWritesCanonicalDecimal := by
  intro s rs1
  have hfmtd : rowS 0x31 .fmtd ∈ opcodeTable := by simp [opcodeTable, opcodeRowsUnits]
  have hlen := canonicalDecimal_length_le_78 (s.getReg rs1)
  have hpos := List.length_pos_iff.2 (canonicalDecimal_ne_nil (s.getReg rs1).toNat)
  refine ⟨decodesTo_of_rowS hfmtd rs1, hpos, hlen, _, exec_fmtd s rs1, Nat.mod_eq_of_lt (by omega), fun k hk => ?_,
    fun k hk => ?_, ⟨nofun, fun _ _ => ⟨rfl, rfl⟩⟩, rfl, rfl, sameControl_refl, rfl, rfl, rfl⟩
  · simpa using s.tbuf.read?_writeBytes_in 0 k _ hk
  · exact s.tbuf.read?_writeBytes_out 0 k _ (.inr (by omega))

end Sys2Proof.Machine


namespace Sys2Proof.Machine

variable {s t : State}

/-! ## Hex texts (R303) -/

/-- R300: a parse of a text with the hex mark that succeeds has digits, unpadded and at most 64, and gives their
value. -/
theorem parseHex_eq_ok {c0 c1 : Byte} {d : List Byte} {v : U256} (h : HexPrefix c0 c1)
    (hv : parseHex (c0 :: c1 :: d) = .ok v) : d ≠ [] ∧ ¬HexPadded d ∧ d.length ≤ 64 ∧
      (∀ b ∈ d, (nib b).isSome = true) ∧ v = BitVec.ofNat 256 (hexValue d) := by
  rw [parseHex_of_hexPrefix h] at hv
  split_ifs at hv with hd hp hl hall
  exact ⟨hd, hp, Nat.le_of_not_lt hl, by simpa [Option.isSome_iff_ne_none] using hall, (Except.ok.inj hv).symm⟩

/-- Bytes that are in NIB have digit values (R56). -/
theorem exists_nibbles {d : List Byte} (h : ∀ b ∈ d, (nib b).isSome = true) : ∃ ns, List.Forall₂ IsNibble d ns := by
  induction d with
  | nil => exact ⟨[], .nil⟩
  | cons b d ih =>
    obtain ⟨n, hn⟩ := Option.isSome_iff_exists.1 (h b List.mem_cons_self)
    obtain ⟨ns, hns⟩ := ih fun b' hb' => h b' (List.mem_cons_of_mem _ hb')
    exact ⟨n :: ns, .cons (nib_eq_some_iff.1 hn) hns⟩

/-- R300: an unpadded digit section has an unpadded list of digit values. -/
theorem not_padded_nibbles {d : List Byte} {ns : List Nat} (h : List.Forall₂ IsNibble d ns) (hp : ¬HexPadded d) :
    ¬(1 < ns.length ∧ ns.head? = some 0) := by
  rintro ⟨hlen, hzero⟩
  refine hp ⟨h.length_eq ▸ hlen, ?_⟩
  cases h with
  | nil => cases hzero
  | cons hb _ =>
    cases hzero
    have hbyte := hb.resolve_right (by omega)
    exact congrArg some (BitVec.eq_of_toNat_eq hbyte.2)

/-- A nonempty list of digits with no padding is fixed by its number. -/
theorem digits_unique {ns : List Nat} (hne : ns ≠ []) (hdigit : ∀ n ∈ ns, n < 16)
    (hp : ¬(1 < ns.length ∧ ns.head? = some 0)) : ns =
      if Nat.ofDigits 16 ns.reverse = 0 then [0] else (Nat.digits 16 (Nat.ofDigits 16 ns.reverse)).reverse := by
  match ns, hne with
  | n :: ns, _ =>
    by_cases hn : n = 0
    · subst hn
      have hnil : ns = [] := by simpa using hp
      subst hnil
      rfl
    · have hdigits : Nat.digits 16 (Nat.ofDigits 16 (n :: ns).reverse) = (n :: ns).reverse :=
        Nat.digits_ofDigits 16 (by decide) _ (fun m hm => hdigit m (List.mem_reverse.1 hm)) (by simpa using hn)
      have hpos : Nat.ofDigits 16 (n :: ns).reverse ≠ 0 := by
        intro hz
        rw [hz] at hdigits
        simp at hdigits
      rw [if_neg hpos, hdigits, List.reverse_reverse]

/-- An accepted hex text: what a parse command leaves in its register is the value of its digits. -/
theorem exec_parseh_accepted {rd : Reg} {x : Byte} {d : List Byte} (hx : x = 0x78 ∨ x = 0x58)
    (htext : HasText s (0x30 :: x :: d)) (h : exec (.parseh rd) s = .next t) (hok : t.perr = .ok) :
    ∃ ns, List.Forall₂ IsNibble d ns ∧ ns ≠ [] ∧ ¬(1 < ns.length ∧ ns.head? = some 0) ∧ d.length ≤ 64 ∧
      t.getReg rd = BitVec.ofNat 256 (Nat.ofDigits 16 ns.reverse) := by
  have hexec : exec (.parseh rd) s = complete 1 (s.writeParse rd (parseHex (0x30 :: x :: d))) :=
    parseCommand_of_hasText htext
  rw [hexec, complete_eq_next] at h
  subst h
  cases hp : parseHex (0x30 :: x :: d) with
  | error e =>
    rw [hp] at hok
    obtain rfl : e = .ok := hok
    exact absurd (parseHex_error hp) (by simp)
  | ok v =>
    obtain ⟨hd, hpad, hlen, hall, rfl⟩ := parseHex_eq_ok ⟨rfl, hx⟩ hp
    obtain ⟨ns, hns⟩ := exists_nibbles hall
    refine ⟨ns, hns, ?_, not_padded_nibbles hns hpad, hlen, ?_⟩
    · rintro rfl
      cases hns
      exact hd rfl
    · rw [← hexValue_of_forall₂ hns]
      exact State.getReg_setReg_self ..

/-- Settles O35: both texts have unpadded digits, which their value fixes. -/
theorem hexParseIsInjective : Obligations.HexParseIsInjective := by
  intro s t u v rd x y d e hx hy hs ht hu hv huok hvok
  obtain ⟨ns, hns, hns0, hnsp, hdlen, hureg⟩ := exec_parseh_accepted hx hs hu huok
  obtain ⟨ms, hms, hms0, hmsp, helen, hvreg⟩ := exec_parseh_accepted hy ht hv hvok
  rw [hureg, hvreg]
  constructor
  · intro heq
    have hvalue : Nat.ofDigits 16 ns.reverse = Nat.ofDigits 16 ms.reverse := by
      have h := congrArg BitVec.toNat heq
      rwa [BitVec.toNat_ofNat, BitVec.toNat_ofNat, Nat.mod_eq_of_lt (ofDigits_nibbles_lt hns hdlen),
        Nat.mod_eq_of_lt (ofDigits_nibbles_lt hms helen)] at h
    have hsame : ns = ms := by
      rw [digits_unique hns0 (nibbles_valid hns).2 hnsp, digits_unique hms0 (nibbles_valid hms).2 hmsp, hvalue]
    exact ⟨ns, hns, hsame ▸ hms⟩
  · rintro ⟨ks, hdk, hek⟩
    rw [← hexValue_of_forall₂ hns, ← hexValue_of_forall₂ hms, hexValue_of_forall₂ hdk, hexValue_of_forall₂ hek]

/-! ## Signed division: two rules derived from the others -/

theorem toInt_ofInt_emod {x y : U256} (hy : 0 < y.toInt) :
    (BitVec.ofInt 256 (x.toInt % y.toInt)).toInt = x.toInt % y.toInt := by
  have hlow := Int.emod_nonneg x.toInt hy.ne'
  have hhigh := Int.emod_lt_of_pos x.toInt hy
  have hmax := y.toInt_lt
  exact BitVec.toInt_ofInt_eq_self (by decide) (by omega) (by omega)

/-- R343: SQUO writes the pattern of the floored quotient. -/
theorem completes_squo {rd rs1 rs2 : Reg} (hs : s.cfg.hasSigned = true) (hy : s.getReg rs2 ≠ 0) :
    Completes (.squo rd rs1 rs2) s rd (BitVec.ofInt 256 ((s.getReg rs1).toInt.fdiv (s.getReg rs2).toInt)) := by
  rw [← fquo_eq_ofInt hy]
  exact completes_of_signedDivision (exec_squo s rd rs1 rs2) hs hy

/-- Settles O43: the integer identity of the floored quotient, and the quotients and remainders of MIN by -1. -/
theorem flooredCaveatAndMinByMinusOne : Obligations.FlooredCaveatAndMinByMinusOne := by
  refine ⟨fun s rd rs1 rs2 hs hpos => ?_, fun s rd rs1 rs2 hs hx hy => ?_, fun s rd rs1 rs2 hs hx hy => ?_⟩
  · have hne := mt toInt_eq_zero_iff.2 hpos.ne'
    obtain ⟨-, -, hr⟩ := completes_sdive_smode_smod (rd := rd) (rs1 := rs1) hs hne
    refine ⟨_, _, completes_squo hs hne, hr, ?_⟩
    have hq := (quotient_toInt (Int.fdiv_mul_add_fmod (s.getReg rs1).toInt _) (natAbs_fmod_lt _ hpos.ne')).1 (by omega)
    rw [hq, toInt_ofInt_emod hpos, Int.fdiv_eq_ediv_of_nonneg _ hpos.le, Int.ediv_mul_add_emod]
  · have hne : s.getReg rs2 ≠ 0 := fun h0 => by simp [h0] at hy
    obtain ⟨-, -, hr⟩ := completes_sdive_smode_smod (rd := rd) (rs1 := rs1) hs hne
    have hq := completes_squo (rd := rd) (rs1 := rs1) hs hne
    rw [hx, hy] at hq hr
    exact ⟨_, _, by decide, by decide, hq, hr⟩
  · have hne : s.getReg rs2 ≠ 0 := fun h0 => by simp [h0] at hy
    have hmin : s.getReg rs1 = BitVec.ofInt 256 (2 ^ 255) := by
      rw [← BitVec.ofInt_toInt (x := s.getReg rs1), hx]
      decide
    obtain ⟨hq, hr⟩ := completes_sdiv_srem (rd := rd) (rs1 := rs1) hs hne
    obtain ⟨hqe, hre, hmod⟩ := completes_sdive_smode_smod (rd := rd) (rs1 := rs1) hs hne
    have hquo := completes_squo (rd := rd) (rs1 := rs1) hs hne
    rw [hx, hy] at hq hr hqe hre hmod hquo
    rw [hmin]
    exact ⟨hq, hquo, hqe, hr, hmod, hre⟩

end Sys2Proof.Machine


namespace Sys2Proof.Machine

variable {s t : State}

/-! ## Signed delta (R349) -/

theorem addDelta_z (base delta : U256) : (addDelta base delta).z = base + delta := by
  rw [addDelta]
  split <;> rfl

/-- The pattern of the sum of a base and a signed delta. -/
theorem addDelta_z_toNat (base delta : U256) :
    ((addDelta base delta).z.toNat : Int) = ((base.toNat : Int) + delta.toInt) % 2 ^ 256 := by
  rw [addDelta_z, BitVec.toNat_add, BitVec.toInt_eq_toNat_cond]
  split <;> omega

/-- R349: the fault of the sum is OVERFLOW above the unsigned range and UNDERFLOW below it. -/
theorem addDelta_fault_iff_sum (base delta : U256) (c : FCause) :
    (c = (addDelta base delta).kind ∧ (addDelta base delta).bad = true) ↔
      (c = .overflow ∧ 2 ^ 256 ≤ (base.toNat : Int) + delta.toInt) ∨
      (c = .underflow ∧ (base.toNat : Int) + delta.toInt < 0) := by
  have hbase := base.isLt
  have hover : (0 ≤ delta.toInt ∧ 2 ^ 256 ≤ (base.toNat : Int) + delta.toInt) ↔
      2 ^ 256 ≤ (base.toNat : Int) + delta.toInt := and_iff_right_of_imp (by omega)
  have hunder : (delta.toInt < 0 ∧ base.toNat < delta.toInt.natAbs) ↔ (base.toNat : Int) + delta.toInt < 0 := by
    omega
  rw [addDelta_fault_iff, hover, hunder]

/-- The sum left the unsigned range. -/
theorem addDelta_bad_iff (base delta : U256) : (addDelta base delta).bad = true ↔
    (base.toNat : Int) + delta.toInt < 0 ∨ 2 ^ 256 ≤ (base.toNat : Int) + delta.toInt := by
  constructor
  · intro h
    rcases (addDelta_fault_iff_sum base delta _).1 ⟨rfl, h⟩ with ⟨-, h⟩ | ⟨-, h⟩
    · exact .inr h
    · exact .inl h
  · rintro (h | h)
    · exact ((addDelta_fault_iff_sum base delta .underflow).2 (.inr ⟨rfl, h⟩)).2
    · exact ((addDelta_fault_iff_sum base delta .overflow).2 (.inl ⟨rfl, h⟩)).2

/-- R352: ADDD raises the fault of its sum. -/
theorem faultsWith_addd {rd rs1 rs2 : Reg} {c : FCause} (hs : s.cfg.hasSigned = true)
    (h : c = (addDelta (s.getReg rs1) (s.getReg rs2)).kind ∧ (addDelta (s.getReg rs1) (s.getReg rs2)).bad = true) :
    FaultsWith (.addd rd rs1 rs2) s c := by
  obtain ⟨rfl, hbad⟩ := h
  rw [faultsWith_iff, exec_addd_of_present hs, if_pos hbad]

/-- Settles O44: the sum is in range, above it or below it, and ADDDO writes its pattern in every case. -/
theorem signedDeltaResults : Obligations.SignedDeltaResults := by
  have haddd : rowDSS 0x50 true .addd ∈ opcodeTable := by simp [opcodeTable, opcodeRowsSigned]
  have hadddo : rowDSS 0x51 true .adddo ∈ opcodeTable := by simp [opcodeTable, opcodeRowsSigned]
  intro s rd rs1 rs2 hs sum
  have hz := addDelta_z_toNat (s.getReg rs1) (s.getReg rs2)
  have hbad := addDelta_bad_iff (s.getReg rs1) (s.getReg rs2)
  have hfault := addDelta_fault_iff_sum (s.getReg rs1) (s.getReg rs2)
  refine ⟨decodesTo_of_rowDSS haddd rd rs1 rs2, decodesTo_of_rowDSS hadddo rd rs1 rs2, fun hlow hhigh => ?_,
    fun hover => faultsWith_addd hs ((hfault _).2 (.inl ⟨rfl, hover⟩)),
    fun hunder => faultsWith_addd hs ((hfault _).2 (.inr ⟨rfl, hunder⟩)), _, hz, ?_⟩
  · have hfits : ¬(addDelta (s.getReg rs1) (s.getReg rs2)).bad = true := by
      rw [hbad]
      omega
    refine ⟨_, hz.trans (Int.emod_eq_of_lt hlow hhigh), completes_of_setReg ?_⟩
    rw [exec_addd_of_present hs, if_neg hfits]
  · have hflag : decide (sum < 0 ∨ 2 ^ 256 ≤ sum) = (addDelta (s.getReg rs1) (s.getReg rs2)).bad := by
      rw [Bool.eq_iff_iff, decide_eq_true_iff, hbad]
    rw [hflag]
    exact completesWith_of_setReg_setOvf (signedCommand_of_present hs)

/-! ## Codec windows (R284, R301) -/

/-- R55: POW19 holds the powers of 10^19, and 1 for window 0. -/
theorem pow19_toNat {k : Nat} (hk : k ≤ 4) : (pow19 k).toNat = 10 ^ (19 * k) := by
  interval_cases k <;> rfl

/-- A number is that of its lowest `k` digits and that of the others. -/
theorem ofDigits_take_add_drop (base k : Nat) (ds : List Nat) :
    Nat.ofDigits base ds = Nat.ofDigits base (ds.take k) + base ^ k * Nat.ofDigits base (ds.drop k) := by
  rcases Nat.lt_or_ge ds.length k with hlt | hge
  · rw [List.take_of_length_le hlt.le, List.drop_of_length_le hlt.le, Nat.ofDigits_nil, Nat.mul_zero, Nat.add_zero]
  · conv_lhs => rw [← List.take_append_drop k ds, Nat.ofDigits_append, List.length_take_of_le hge]

/-- A window of digits given last first, read as a string. -/
theorem decValue_window (r : List Byte) (k : Nat) :
    decValue (r.take k).reverse = Nat.ofDigits 10 ((r.map digitValue).take k) := by
  rw [decValue_eq, List.reverse_reverse, List.map_take]

theorem hexValue_window (r : List Byte) (k : Nat) :
    hexValue (r.take k).reverse = Nat.ofDigits 16 ((r.map nibValue).take k) := by
  rw [hexValue_eq, List.reverse_reverse, List.map_take]

/-- R284: the windows from index `k` on, times their powers, are the number of the digits at its place. -/
theorem windowSum_decWindows {k fuel : Nat} {r : List Byte} (hk : k + fuel ≤ 5) (hr : r.length ≤ 19 * fuel) :
    windowSum k (decWindows fuel r) = 10 ^ (19 * k) * Nat.ofDigits 10 (r.map digitValue) := by
  induction fuel generalizing k r with
  | zero =>
    obtain rfl := List.eq_nil_of_length_eq_zero (Nat.le_zero.1 hr)
    rfl
  | succ fuel ih =>
    rw [decWindows]
    split
    · next hnil =>
      subst hnil
      rfl
    · have hdrop : (r.drop 19).length ≤ 19 * fuel := by
        rw [List.length_drop]
        omega
      rw [windowSum, ih (by omega) hdrop, decValue_window, pow19_toNat (by omega),
        ofDigits_take_add_drop 10 19 (r.map digitValue), List.map_drop, Nat.mul_succ, Nat.pow_add]
      ring

theorem nibValue_lt (b : Byte) : nibValue b < 16 := by
  rw [nibValue]
  cases h : nib b with
  | none => decide
  | some n => exact nib_lt h

/-- R301: the windows of 16 hex digits are the limbs of the number. -/
theorem hexWindows_eq_toLimbs (fuel : Nat) (r : List Byte) :
    hexWindows fuel r = toLimbs fuel (Nat.ofDigits 16 (r.map nibValue)) := by
  induction fuel generalizing r with
  | zero => rfl
  | succ fuel ih =>
    have hdigit : ∀ n ∈ (r.map nibValue).take 16, n < 16 := fun n hn => by
      obtain ⟨b, -, rfl⟩ := List.mem_map.1 (List.mem_of_mem_take hn)
      exact nibValue_lt b
    have hlt : Nat.ofDigits 16 ((r.map nibValue).take 16) < 2 ^ 64 :=
      calc _ < 16 ^ ((r.map nibValue).take 16).length := Nat.ofDigits_lt_base_pow_length (by decide) hdigit
        _ ≤ 16 ^ 16 := Nat.pow_le_pow_right (by decide) (List.length_take_le _ _)
        _ = 2 ^ 64 := by norm_num
    have hsplit := ofDigits_take_add_drop 16 16 (r.map nibValue)
    have hlow : BitVec.ofNat 64 (Nat.ofDigits 16 (r.map nibValue)) =
        BitVec.ofNat 64 (Nat.ofDigits 16 ((r.map nibValue).take 16)) := by
      apply BitVec.eq_of_toNat_eq
      rw [BitVec.toNat_ofNat, BitVec.toNat_ofNat, hsplit]
      omega
    have hhigh : Nat.ofDigits 16 (r.map nibValue) / 2 ^ 64 = Nat.ofDigits 16 ((r.drop 16).map nibValue) := by
      rw [hsplit, List.map_drop]
      omega
    rw [hexWindows, toLimbs, ih, hexValue_window, hlow, hhigh]

/-- The limbs of a number modulo 2^256. -/
theorem toLimbs_eq_limbs (v : Nat) : toLimbs 4 v = limbs (BitVec.ofNat 256 v) := by
  have hlimb (j : Nat) (hj : j < 4) : BitVec.ofNat 64 (v / 2 ^ (64 * j)) = limb (BitVec.ofNat 256 v) j := by
    apply BitVec.eq_of_toNat_eq
    rw [limb_toNat, BitVec.toNat_ofNat, BitVec.toNat_ofNat]
    interval_cases j <;> omega
  simp only [toLimbs, limbs, ← hlimb _ (show 0 < 4 by decide), ← hlimb _ (show 1 < 4 by decide),
    ← hlimb _ (show 2 < 4 by decide), ← hlimb _ (show 3 < 4 by decide), Nat.div_div_eq_div_mul]
  norm_num

/-- Settles O51: a number is the sum of its windows at their places, and windows of 16 hex digits are limbs. -/
theorem codecWindowsDenoteTheNumber : Obligations.CodecWindowsDenoteTheNumber := by
  refine ⟨fun k _ hk => pow19_toNat hk, fun d hd _ => ?_, fun d ns _ hns => ?_⟩
  · rw [decDatapath, windowSum_decWindows (by decide) (by rw [List.length_reverse]; omega), Nat.mul_zero, Nat.pow_zero,
      Nat.one_mul]
    rfl
  · rw [hexDatapath, hexWindows_eq_toLimbs, toLimbs_eq_limbs, ← hexValue_eq, hexValue_of_forall₂ hns]

/-! ## Host registers -/

theorem portTarget_limb (c : Config) (i : Reg) {j : Nat} (hj : j < 4) :
    portTarget c (32 * i + 8 * j) = .limb i j := by
  have hi := i.isLt
  have hreg : (32 * i.val + 8 * j) / 32 = i := by omega
  have hlimb : (32 * i.val + 8 * j) % 32 / 8 = j := by omega
  rw [portTarget, if_pos (by omega), hreg, hlimb, Fin.ofNat_val_eq_self]

/-- Settles O52: the target of the offset is the limb, whose write and read are those of the state. -/
theorem hostLimbAccess : Obligations.HostLimbAccess := by
  intro s i j rest hb hj
  have haligned : (32 * i.val + 8 * j) % 8 = 0 := by omega
  have htarget := portTarget_limb s.cfg i hj
  refine ⟨fun w hh => ?_, fun hh hw => ?_⟩
  · have hstep : step s = .next ((s.setHost rest).setRegLimb i j w) := by
      have hi := i.isLt
      rw [step_write_aligned hb haligned (by omega) hh, htarget]
      rfl
    refine ⟨_, hstep, ?_, ?_, fun k hk hne => ⟨?_, ?_⟩, fun r hr => ⟨?_, ?_⟩, rfl⟩
    · rw [State.getReg_setRegLimb, if_pos rfl, limb_setLimb _ _ _ _ hj, if_pos rfl]
    · rw [State.limbWritten_setRegLimb _ _ _ _ _ _ hj]
      simp
    · rw [State.getReg_setRegLimb, if_pos rfl, limb_setLimb _ _ _ _ hk, if_neg hne]
      rfl
    · rw [State.limbWritten_setRegLimb _ _ _ _ _ _ hk]
      simp [hne, State.limbWritten]
    · rw [State.getReg_setRegLimb, if_neg hr]
      rfl
    · rw [State.written_setRegLimb, if_neg hr]
      rfl
  · have hvalue : (s.setHost rest).hostValue (32 * i + 8 * j) = limb (s.getReg i) j := by
      rw [State.hostValue, State.setHost_cfg, htarget]
      exact if_pos hw
    rw [step_read_aligned hb haligned hh, hvalue]
    rfl

end Sys2Proof.Machine


namespace Sys2Proof.Machine

variable {s : State}

/-! ## STATUS (R44) -/

theorem getLsbD_bit (b : Bool) (k : Nat) : (bit b).getLsbD k = (decide (k = 0) && b) := by
  rw [bit, BitVec.getLsbD_ofBool]

theorem State.statusWord_flags (s : State) :
    s.statusWord.getLsbD 0 = s.ovf ∧ s.statusWord.getLsbD 1 = s.fault ∧ s.statusWord.getLsbD 2 = s.busy ∧
      s.statusWord.getLsbD 3 = s.wait2.isSome ∧ s.statusWord.getLsbD 12 = s.cfg.hasSigned := by
  simp only [State.statusWord, BitVec.getLsbD_append, getLsbD_bit]
  simp

/-- The fields of STATUS, with its width as the sum of theirs, so that each rewriting can split off the lowest one. -/
theorem State.statusWord_field (s : State) (k len : Nat) : s.statusWord.extractLsb' k len =
    BitVec.extractLsb' (n := 51 + 1 + 4 + 4 + 1 + 1 + 1 + 1) k len
      (0#51 ++ bit s.cfg.hasSigned ++ s.perr.code ++ s.fcause.code ++ bit s.wait2.isSome ++ bit s.busy ++ bit s.fault
        ++ bit s.ovf) := rfl

theorem State.statusWord_fcause (s : State) : s.statusWord.extractLsb' 4 4 = s.fcause.code := by
  rw [s.statusWord_field]
  simp [BitVec.extractLsb'_append_eq_of_le, BitVec.extractLsb'_append_eq_right, -Nat.reduceAdd]

theorem State.statusWord_perr (s : State) : s.statusWord.extractLsb' 8 4 = s.perr.code := by
  rw [s.statusWord_field]
  simp [BitVec.extractLsb'_append_eq_of_le, BitVec.extractLsb'_append_eq_right, -Nat.reduceAdd]

theorem State.statusWord_high (s : State) : s.statusWord.extractLsb' 13 51 = 0 := by
  rw [s.statusWord_field]
  simp [BitVec.extractLsb'_append_eq_of_le, -Nat.reduceAdd]

/-! ## Reads of the host registers (R81) -/

/-- A register narrower than a host word reads zero-extended. -/
theorem setWidth_eq_of_toNat_eq {n : Nat} {r : BitVec n} {v : Word} (hn : n ≤ 64) (h : v.toNat = r.toNat) :
    r.setWidth 64 = v := by
  apply BitVec.eq_of_toNat_eq
  rw [BitVec.toNat_setWidth_of_le hn, h]

/-- Settles O54: each field of STATUS stands at its place with its code, and the offset of each register is its
target. -/
theorem hostRegisterReads : Obligations.HostRegisterReads := by
  refine ⟨fun s => ?_, fun s rest offset v hb hv hh => ?_⟩
  · obtain ⟨hovf, hfault, hbusy, hwait, hsigned⟩ := s.statusWord_flags
    refine ⟨hovf, hfault, hbusy, hwait, ?_, ?_, hsigned, s.statusWord_high⟩
    · rw [s.statusWord_fcause]
      cases s.fcause <;> rfl
    · rw [s.statusWord_perr]
      cases s.perr <;> rfl
  · have haligned : offset % 8 = 0 := by omega
    have hvalue : (s.setHost rest).hostValue offset = v := by
      rcases hv with ⟨rfl, rfl⟩ | ⟨rfl, rfl⟩ | ⟨rfl, hv⟩ | ⟨rfl, hv⟩ | ⟨rfl, hv⟩ | ⟨rfl, rfl⟩
      · rfl
      · rfl
      · exact setWidth_eq_of_toNat_eq (by decide) hv
      · exact setWidth_eq_of_toNat_eq (by decide) hv
      · exact setWidth_eq_of_toNat_eq (by decide) hv
      · rfl
    rw [step_read_aligned hb haligned hh, hvalue]
    rfl

end Sys2Proof.Machine
